-- ==== Sys2Proof/Word.lean ====
section
/-! DEFINITION. The word types of the sequencer: the 8-bit byte of rule R11 and the 32-bit operand lane of rules R49
and R51 to R53. -/

namespace Sys2Proof

/-- An expander byte, a command byte, a data byte or an opcode (R11: 8 bits wide, bit 0 least significant). -/
abbrev Byte := BitVec 8

/-- One `int32` operand lane of the request port, as the 32 wires carry it (R49, R12). -/
abbrev Lane := BitVec 32

end Sys2Proof
end

