-- ==== Sys2Proof/Syntax.lean ====
section
/-! DEFINITION. The requests of the block, one constructor per row of the opcode table (rule R55), and the record in
which the request port carries one (rule R49). -/

namespace Sys2Proof

/-- The 8 bitmap bytes `bm[0..7]` of a glyph (R49, R52; `GLYPH_BYTES` = 8, R9). -/
structure Bitmap where
  b0 : Byte
  b1 : Byte
  b2 : Byte
  b3 : Byte
  b4 : Byte
  b5 : Byte
  b6 : Byte
  b7 : Byte
deriving DecidableEq, Repr

/-- The record a caller puts on the request port (R49 item 2): `{op, a, b, bm, data}`. -/
structure Request where
  op : Byte
  a : Lane := 0
  b : Lane := 0
  bm : Bitmap := ⟨0, 0, 0, 0, 0, 0, 0, 0⟩
  data : List Byte := []
deriving DecidableEq, Repr

/-- The requests (R55). The operands of SET_CURSOR and REGISTER_CHAR are `int32` numbers (R51, R52): the cursor rules
compare them as mathematical integers (R110), so they are integers here and `Instr.wellFormed` says they fit 32 bits. -/
inductive Instr where
  | start
  | stop
  | clear
  | home
  | displayOn
  | displayOff
  | backlightOn
  | backlightOff
  | underlineOn
  | underlineOff
  | blinkOn
  | blinkOff
  | shiftLeft
  | shiftRight
  | leftToRight
  | rightToLeft
  | autoscrollOn
  | autoscrollOff
  | setCursor (col row : Int)
  | registerChar (slot : Int) (bm : Bitmap)
  | write (data : List Byte)
deriving DecidableEq, Repr

end Sys2Proof
end

