-- ==== Sys2Proof/WellFormed.lean ====
section
/-! DEFINITION. Which requests the port can carry: the `int32` operands of rules R51 and R52 fit in 32 bits. The 8-byte
bitmap (R52) and the byte list of any length (R53) are right by their types. -/

namespace Sys2Proof

/-- R12: an `int32` is a 32-bit two's-complement integer. -/
def isInt32 (x : Int) : Bool := decide (-2147483648 ≤ x) && decide (x ≤ 2147483647)

/-- R50 to R53: what each format asks of its operands. -/
def Instr.wellFormed : Instr → Bool
  | .setCursor col row => isInt32 col && isInt32 row
  | .registerChar slot _ => isInt32 slot
  | .start | .stop | .clear | .home | .displayOn | .displayOff | .backlightOn | .backlightOff => true
  | .underlineOn | .underlineOff | .blinkOn | .blinkOff | .shiftLeft | .shiftRight => true
  | .leftToRight | .rightToLeft | .autoscrollOn | .autoscrollOff => true
  | .write _ => true

end Sys2Proof
end

