-- ==== Sys2Proof/Decode.lean ====
section
/-! DEFINITION. The opcode map (rules R55 and R56), the formats (R50 to R54), the decoder of a request record and the
encoder. -/

namespace Sys2Proof

/-- The four formats of R50 to R53. -/
inductive OpFormat where
  | N
  | C
  | G
  | S
deriving DecidableEq, Repr

/-- Why a request record is no request: its opcode is reserved (R56). -/
inductive DecodeError where
  | reservedOp (op : Byte)
deriving DecidableEq, Repr

/-- One row of the opcode map (R55). -/
structure OpRow where
  op : Byte
  mnemonic : String
  format : OpFormat
deriving DecidableEq, Repr

/-- R55, the lifecycle rows and the first half of display control. -/
def opMapLow : List OpRow :=
  [⟨0x01, "START", .N⟩, ⟨0x02, "STOP", .N⟩, ⟨0x10, "CLEAR", .N⟩, ⟨0x11, "HOME", .N⟩,
   ⟨0x12, "DISPLAY_ON", .N⟩, ⟨0x13, "DISPLAY_OFF", .N⟩, ⟨0x14, "BACKLIGHT_ON", .N⟩,
   ⟨0x15, "BACKLIGHT_OFF", .N⟩, ⟨0x16, "UNDERLINE_ON", .N⟩, ⟨0x17, "UNDERLINE_OFF", .N⟩]

/-- R55, the second half of display control and the requests that take operands. -/
def opMapHigh : List OpRow :=
  [⟨0x18, "BLINK_ON", .N⟩, ⟨0x19, "BLINK_OFF", .N⟩, ⟨0x1A, "SHIFT_LEFT", .N⟩, ⟨0x1B, "SHIFT_RIGHT", .N⟩,
   ⟨0x1C, "LEFT_TO_RIGHT", .N⟩, ⟨0x1D, "RIGHT_TO_LEFT", .N⟩, ⟨0x1E, "AUTOSCROLL_ON", .N⟩,
   ⟨0x1F, "AUTOSCROLL_OFF", .N⟩, ⟨0x20, "SET_CURSOR", .C⟩, ⟨0x30, "REGISTER_CHAR", .G⟩, ⟨0x40, "WRITE", .S⟩]

/-- The opcode map of R55. -/
def opMap : List OpRow := opMapLow ++ opMapHigh

/-- "A decoder tells the format from `op` alone, using the map of rule R55" (R54); `none` for a reserved opcode. -/
def formatOf (op : Byte) : Option OpFormat := (opMap.find? fun row => row.op == op).map OpRow.format

/-- The opcode of a request (R55). -/
def Instr.opcode : Instr → Byte
  | .start => 0x01
  | .stop => 0x02
  | .clear => 0x10
  | .home => 0x11
  | .displayOn => 0x12
  | .displayOff => 0x13
  | .backlightOn => 0x14
  | .backlightOff => 0x15
  | .underlineOn => 0x16
  | .underlineOff => 0x17
  | .blinkOn => 0x18
  | .blinkOff => 0x19
  | .shiftLeft => 0x1A
  | .shiftRight => 0x1B
  | .leftToRight => 0x1C
  | .rightToLeft => 0x1D
  | .autoscrollOn => 0x1E
  | .autoscrollOff => 0x1F
  | .setCursor _ _ => 0x20
  | .registerChar _ _ => 0x30
  | .write _ => 0x40

/-- The format of a request (R50 to R53). -/
def Instr.format : Instr → OpFormat
  | .setCursor _ _ => .C
  | .registerChar _ _ => .G
  | .write _ => .S
  | .start | .stop | .clear | .home | .displayOn | .displayOff | .backlightOn | .backlightOff => .N
  | .underlineOn | .underlineOff | .blinkOn | .blinkOff | .shiftLeft | .shiftRight => .N
  | .leftToRight | .rightToLeft | .autoscrollOn | .autoscrollOff => .N

/-- The format-N requests by opcode (R50, R55). -/
def decodeN (op : Byte) : Option Instr :=
  match op.toNat with
  | 0x01 => some .start
  | 0x02 => some .stop
  | 0x10 => some .clear
  | 0x11 => some .home
  | 0x12 => some .displayOn
  | 0x13 => some .displayOff
  | 0x14 => some .backlightOn
  | 0x15 => some .backlightOff
  | 0x16 => some .underlineOn
  | 0x17 => some .underlineOff
  | 0x18 => some .blinkOn
  | 0x19 => some .blinkOff
  | 0x1A => some .shiftLeft
  | 0x1B => some .shiftRight
  | 0x1C => some .leftToRight
  | 0x1D => some .rightToLeft
  | 0x1E => some .autoscrollOn
  | 0x1F => some .autoscrollOff
  | _ => none

/-- The decoder: total on every record. It reads the fields the format names and no other (R49), and rejects a reserved
opcode by name (R56). -/
def decode (r : Request) : Except DecodeError Instr :=
  match formatOf r.op with
  | none => .error (.reservedOp r.op)
  | some .N =>
    match decodeN r.op with
    | some i => .ok i
    | none => .error (.reservedOp r.op)
  | some .C => .ok (.setCursor r.a.toInt r.b.toInt)
  | some .G => .ok (.registerChar r.a.toInt r.bm)
  | some .S => .ok (.write r.data)

/-- The record that carries a request, with every field its format does not name at zero (R49 to R53). -/
def encode (i : Instr) : Request :=
  match i with
  | .setCursor col row => { op := i.opcode, a := BitVec.ofInt 32 col, b := BitVec.ofInt 32 row }
  | .registerChar slot bm => { op := i.opcode, a := BitVec.ofInt 32 slot, bm := bm }
  | .write data => { op := i.opcode, data := data }
  | .start | .stop | .clear | .home | .displayOn | .displayOff | .backlightOn | .backlightOff => { op := i.opcode }
  | .underlineOn | .underlineOff | .blinkOn | .blinkOff | .shiftLeft | .shiftRight => { op := i.opcode }
  | .leftToRight | .rightToLeft | .autoscrollOn | .autoscrollOff => { op := i.opcode }

/-- The record of an opcode-table word: the table gives bits only to `op` (bits 7..0), so every operand field is zero
and the data list is empty (log entry 12). -/
def Request.ofTableWord (nbits w : Nat) : Request := { op := BitVec.ofNat 8 (w % 2 ^ nbits) }

/-- The request the decoder reads from an opcode-table word; a word with a bit above the opcode's 8 is no table word. -/
def decodeTableWord (nbits w : Nat) : Option Instr :=
  if w % 2 ^ nbits < 256 then
    match decode (Request.ofTableWord nbits w) with
    | .ok i => some i
    | .error _ => none
  else none

end Sys2Proof
end

