-- ==== Sys2Proof/Config.lean ====
section
/-! DEFINITION. What is fixed when the block is built (rules R5 to R8), and the values the spec leaves open: the
byte-sink's answers (R71, R78), the latch after a failed write and the latch before the first write (R30). -/

namespace Sys2Proof

/-- R5, decision D35: the dot size is an enumeration with no numeric code of its own. -/
inductive DotSize where
  | dots5x8
  | dots5x10
deriving DecidableEq, Repr

/-- The names of the eight timing parameters of R7, as they stand in a `D(T)` event (R14). -/
inductive Delay where
  | enPw
  | settle
  | powerOn
  | prime
  | sync1
  | sync2
  | sync3
  | clearHome
deriving DecidableEq, Repr

/-- The values of the timing parameters of R7, in nanoseconds (the unit is the model's choice, log entry 4). No default. -/
structure Timing where
  enPw : Nat
  settle : Nat
  powerOn : Nat
  prime : Nat
  sync1 : Nat
  sync2 : Nat
  sync3 : Nat
  clearHome : Nat
deriving DecidableEq, Repr

/-- The construction configuration (R5 to R8, R49 item 1). `cols`, `rows`, `dotSize` and `timing` have no default. -/
structure Configuration where
  cols : Nat
  rows : Nat
  dotSize : DotSize
  timing : Timing
  i2cAddr : BitVec 7 := 0x27
  busIndex : Nat := 1
  rsMask : Byte := 0x01
  rwMask : Byte := 0x02
  enMask : Byte := 0x04
  blMask : Byte := 0x08
  blWrites : Bool := true
deriving DecidableEq, Repr

/-- What the byte-sink does with one `acquire` or `writeByte` call (R71, R78, R118): it reports success, it reports
failure, or it never answers. -/
inductive SinkAnswer where
  | ok
  | fail
  | never
deriving DecidableEq, Repr, Inhabited

/-- FREE VALUE (log entry 5). The byte-sink's answer to its `n`-th call, for the calls whose answer the state does not
list. "The oracle's answers are a draw under no law" (R71; I7). -/
opaque Config.freeAnswer : Nat → SinkAnswer

/-- FREE VALUE (log entry 6). Whether the failed write that is the byte-sink's `n`-th call reached the expander's latch:
"Which one is a draw that the model does not fix" (R30; I4). -/
opaque Config.freeLatch : Nat → Bool

/-- FREE VALUE (log entry 7). The expander's latch before the first write: "any 8-bit value" (R30, R32; I5). -/
opaque Config.expPowerUp : Byte

end Sys2Proof
end

