-- ==== Sys2Proof/Machine/Constants.lean ====
section
/-! DEFINITION. The fixed constants of rule R9, and which configurations are valid (rules R6, R7 and R10). -/

namespace Sys2Proof

/-- `ROW_BASE[r]` (R9, R43): the DDRAM address of column 0 of row `r`. A configuration has at most four rows (R10), so no
rule reads it above 3. -/
def rowBase : Nat → Nat
  | 0 => 0x00
  | 1 => 0x40
  | 2 => 0x14
  | _ => 0x54

/-- `NUM_SLOTS` (R9). -/
def numSlots : Nat := 8

/-- `GLYPH_BYTES` (R9). -/
def glyphBytes : Nat := 8

/-- R6: a mask has exactly one bit set and that bit is within [3:0]. -/
def isLineMask (m : Byte) : Bool := m == 0x01 || m == 0x02 || m == 0x04 || m == 0x08

/-- R6: each mask is one of bits [3:0] and the four are pairwise distinct. -/
def Configuration.masksValid (c : Configuration) : Bool :=
  isLineMask c.rsMask && isLineMask c.rwMask && isLineMask c.enMask && isLineMask c.blMask &&
  c.rsMask != c.rwMask && c.rsMask != c.enMask && c.rsMask != c.blMask &&
  c.rwMask != c.enMask && c.rwMask != c.blMask && c.enMask != c.blMask

/-- R7: the constraints on the delays, in nanoseconds. -/
def Timing.valid (t : Timing) : Bool :=
  decide (450 ≤ t.enPw) && decide (37000 ≤ t.settle) && decide (40000000 ≤ t.powerOn) &&
  decide (1520000 ≤ t.clearHome) && decide (t.sync2 ≤ t.sync1) && decide (t.sync3 ≤ t.sync2) &&
  decide (0 < t.sync3) && decide (0 < t.prime)

/-- R10: the largest DDRAM address of the geometry, `ROW_BASE[r] + COLS − 1`, is at most 0x7F for every row `r`. -/
def Configuration.addressesFit (c : Configuration) : Bool :=
  (List.range c.rows).all fun r => decide (rowBase r + c.cols ≤ 0x80)

/-- R10: a configuration the block can be built from. -/
def Configuration.valid (c : Configuration) : Bool :=
  decide (1 ≤ c.rows) && decide (c.rows ≤ 4) && decide (1 ≤ c.cols) && c.addressesFit && c.masksValid && c.timing.valid

/-- The value of the timing parameter a `D(T)` event names (R7, R72). -/
def Timing.value (t : Timing) : Delay → Nat
  | .enPw => t.enPw
  | .settle => t.settle
  | .powerOn => t.powerOn
  | .prime => t.prime
  | .sync1 => t.sync1
  | .sync2 => t.sync2
  | .sync3 => t.sync3
  | .clearHome => t.clearHome

end Sys2Proof
end

