-- ==== Sys2Proof/Machine/State.lean ====
section
/-! DEFINITION. The state of the sequencer (rules R16 to R32), the events of its trace (R14), its responses (R70), the
reasons a step stops, and the state right after construction (R32, R131). -/

namespace Sys2Proof.Machine

/-- The lifecycle register (R18). Its fourth 2-bit value is unused and never reached, so it has no name here. -/
inductive Phase where
  | unstarted
  | ready
  | failed
deriving DecidableEq, Repr

/-- The sequence pointer (R19): idle, or the running request's opcode and the index of its next statement. -/
inductive Seq where
  | idle
  | running (op : Byte) (k : Nat)
deriving DecidableEq, Repr

/-- The trace events of R14: `W(v)`, `W!(v)`, `D(T)`, `ACQ(a, b)` and `ACQ!(a, b)`. -/
inductive Event where
  | write (v : Byte)
  | writeFailed (v : Byte)
  | delay (d : Delay)
  | acquired (address : BitVec 7) (bus : Nat)
  | acquireFailed (address : BitVec 7) (bus : Nat)
deriving DecidableEq, Repr

/-- The error records of R70 and R115, with what each records. -/
inductive ErrorRecord where
  | connectionError (address : BitVec 7) (bus : Nat)
  | ioError (value : Byte)
deriving DecidableEq, Repr

/-- `status` of a response (R70). -/
inductive Status where
  | ok
  | err
deriving DecidableEq, Repr

/-- A response record (R70). -/
structure Response where
  status : Status
  count : Nat := 0
  code : BitVec 3 := 0
  errs : List ErrorRecord := []
deriving DecidableEq, Repr

/-- The machine's state.
`phase` to `conn` are the block's registers (R16). `exp` is the expander's latch (R30). `trace` and `responses` are the
observation of a run (R4, R14, R70). `cfg` is the construction configuration, read-only (R5; log entry 1). `port` and
`answers` are the two input ports of R49: the requests the caller presents, in order, and the byte-sink's answers to its
next calls; `calls` counts those calls (log entries 2 and 5). -/
structure State where
  cfg : Configuration
  phase : Phase
  seq : Seq
  func : Byte
  dctrl : Byte
  emode : Byte
  bl : Bool
  conn : Bool
  exp : Byte
  port : List Request
  answers : List SinkAnswer
  calls : Nat
  responses : List Response
  trace : List Event
deriving DecidableEq, Repr

/-- How a primitive, a statement or a request body ends: it completes, it raises an exception (R115), or the byte-sink
never answers and the block is stuck inside it (R118). Each carries the state it leaves. -/
inductive Res where
  | done (s : State)
  | raised (e : ErrorRecord) (s : State)
  | hung (s : State)
deriving DecidableEq, Repr

/-- The reasons a step faults. -/
inductive Fault where
  /-- Raised by `step` alone, in a state that an unanswered byte-sink call left in the middle of request `op` at
  statement `k`, with no request on the port: "The block then has no next step" (R118). Safe: the hardware does not go
  on either. -/
  | hung (op : Byte) (k : Nat)
deriving DecidableEq, Repr

/-- The reasons a step is refused. -/
inductive Refusal where
  /-- Raised by an arm of `exec` whose request has no meaning yet. No arm of this model raises it. Safe. -/
  | notModelled (mnemonic : String)
  /-- Raised by `step` for a record whose opcode is not in the map (R56; I1). Safe: the spec refuses it too. -/
  | reservedOp (op : Byte)
  /-- Raised by every meaning for a request that the admission table does not admit in this phase (R119; I2). Safe: the
  spec refuses it too. -/
  | notAdmitted (op : Byte) (phase : Phase)
  /-- Raised by every meaning for a request presented while `seq` is not IDLE (R119, last row; I15). Safe: the spec
  refuses it too. -/
  | requestInProgress (op : Byte)
deriving DecidableEq, Repr

/-- Construction (R32, R49 item 1, R131): an invalid configuration is refused, "the model has no state for it" (R10). -/
def State.construct (cfg : Configuration) : Option State :=
  if cfg.valid then
    some { cfg := cfg, phase := .unstarted, seq := .idle, func := 0x00, dctrl := 0x00, emode := 0x00, bl := true,
           conn := false, exp := Config.expPowerUp, port := [], answers := [], calls := 0, responses := [], trace := [] }
  else none

/-- The configuration of the state after reset (log entry 3): that of the spec's test vectors, 16 columns, 2 rows, 5×8
dots and every default of R5 to R8, with the documented minimum of each delay that has one. -/
def standardConfiguration : Configuration :=
  { cols := 16, rows := 2, dotSize := .dots5x8,
    timing := { enPw := 450, settle := 37000, powerOn := 40000000, prime := 1, sync1 := 1, sync2 := 1, sync3 := 1,
                clearHome := 1520000 } }

/-- The machine right after construction with the standard configuration (R32, R131). -/
def State.reset : State :=
  { cfg := standardConfiguration, phase := .unstarted, seq := .idle, func := 0x00, dctrl := 0x00, emode := 0x00,
    bl := true, conn := false, exp := Config.expPowerUp, port := [], answers := [], calls := 0, responses := [],
    trace := [] }

end Sys2Proof.Machine
end

