-- ==== Sys2Proof/Machine/Flags.lean ====
section
/-! DEFINITION. The on/off bits of the three mode registers (rules R20 to R22) and the command bytes they form (R63 to
R66). The block has no condition flags and no condition codes (R29): these bits are the nearest it has. -/

namespace Sys2Proof.Machine

/-- `FUNC.N`, bit 3 (R20). -/
def maskN : Byte := 0x08
/-- `FUNC.F`, bit 2 (R20). -/
def maskF : Byte := 0x04
/-- `DCTRL.D`, bit 2 (R21). -/
def maskD : Byte := 0x04
/-- `DCTRL.C`, bit 1 (R21). -/
def maskC : Byte := 0x02
/-- `DCTRL.B`, bit 0 (R21). -/
def maskB : Byte := 0x01
/-- `EMODE.ID`, bit 1 (R22). -/
def maskID : Byte := 0x02
/-- `EMODE.S`, bit 0 (R22). -/
def maskS : Byte := 0x01

/-- An `_ON` request sets its bit, whatever it was (R91). -/
def setBit (r m : Byte) : Byte := r ||| m

/-- An `_OFF` request clears its bit, whatever it was (R91). -/
def clearBit (r m : Byte) : Byte := r &&& ~~~m

/-- Bus width `DL` (R20): 1 is 8-bit, 0 is 4-bit. -/
def State.dl (s : State) : Bool := s.func.getLsbD 4
/-- Line count `N` (R20): 1 is two lines. -/
def State.lineCount (s : State) : Bool := s.func.getLsbD 3
/-- Dot size `F` (R20): 1 is 5×10 dots. -/
def State.dotSizeBit (s : State) : Bool := s.func.getLsbD 2
/-- Display on `D` (R21). -/
def State.displayBit (s : State) : Bool := s.dctrl.getLsbD 2
/-- Cursor underline on `C` (R21). -/
def State.underlineBit (s : State) : Bool := s.dctrl.getLsbD 1
/-- Cursor blink on `B` (R21). -/
def State.blinkBit (s : State) : Bool := s.dctrl.getLsbD 0
/-- Text direction `ID` (R22): 1 is left-to-right. -/
def State.directionBit (s : State) : Bool := s.emode.getLsbD 1
/-- Auto-scroll `S` (R22). -/
def State.autoscrollBit (s : State) : Bool := s.emode.getLsbD 0

/-- The value START gives `FUNC` (R83): two lines when `ROWS > 1`; 5×10 dots only in the single-row case. -/
def funcValue (c : Configuration) : Byte :=
  (if 1 < c.rows then maskN else 0x00) ||| (if c.rows = 1 ∧ c.dotSize = .dots5x10 then maskF else 0x00)

/-- FunctionSet, `0x20 | FUNC` (R63, R64). -/
def functionSetByte (func : Byte) : Byte := 0x20 ||| func

/-- DisplayControl, `0x08 | DCTRL` (R63, R65). -/
def displayControlByte (dctrl : Byte) : Byte := 0x08 ||| dctrl

/-- EntryMode, `0x04 | EMODE` (R63, R66). -/
def entryModeByte (emode : Byte) : Byte := 0x04 ||| emode

/-- Clear (R63). -/
def clearByte : Byte := 0x01
/-- Home (R63). -/
def homeByte : Byte := 0x02
/-- Display shift left: S/C = 1, R/L = 0 (R63, R102). -/
def shiftLeftByte : Byte := 0x18
/-- Display shift right: S/C = 1, R/L = 1 (R63, R103). -/
def shiftRightByte : Byte := 0x1C
/-- The init nibble 0x3 as an expander nibble (R63, R69). -/
def syncNibble : Byte := 0x30
/-- The init nibble 0x2 as an expander nibble (R63, R69). -/
def commitNibble : Byte := 0x20

/-- The 2-bit code of a phase (R18). -/
def Phase.code : Phase → BitVec 2
  | .unstarted => 0
  | .ready => 1
  | .failed => 2

/-- The numeric code of an error record (R70, R115). -/
def ErrorRecord.code : ErrorRecord → Nat
  | .connectionError _ _ => 1
  | .ioError _ => 2

end Sys2Proof.Machine
end

