-- ==== Sys2Proof/Machine/Operands.lean ====
section
/-! DEFINITION. What requests compute from their operands and from the configuration: the clamps and the DDRAM address
(rule R110), the glyph slot (R52, R68), the nibble split (R61) and the expander control byte (R58 to R60, R62). -/

namespace Sys2Proof.Machine

/-- `clamp(x, lo, hi)` on mathematical integers (R12). -/
def clamp (x lo hi : Int) : Int := if x < lo then lo else if hi < x then hi else x

/-- The clamped row of SET_CURSOR (R110). -/
def clampRow (c : Configuration) (row : Int) : Nat := (clamp row 0 ((c.rows : Int) - 1)).toNat

/-- The clamped column of SET_CURSOR (R110). -/
def clampCol (c : Configuration) (col : Int) : Nat := (clamp col 0 ((c.cols : Int) - 1)).toNat

/-- `addr = ROW_BASE[r] + c`, an exact sum (R110, R12). -/
def cursorAddress (c : Configuration) (col row : Int) : Nat := rowBase (clampRow c row) + clampCol c col

/-- `s = a[2:0]` of the int32 slot operand (R52, R112). -/
def slotOf (slot : Int) : BitVec 3 := (BitVec.ofInt 32 slot).extractLsb' 0 3

/-- The bitmap bytes in index order, `bm[0]` first (R37). -/
def bitmapBytes (bm : Bitmap) : List Byte := [bm.b0, bm.b1, bm.b2, bm.b3, bm.b4, bm.b5, bm.b6, bm.b7]

/-- SetDDRAMAddress: `0x80 | addr` (R67). -/
def setDdramByte (addr : Nat) : Byte := 0x80 ||| BitVec.ofNat 8 addr

/-- SetCGRAMAddress: `0x40 | (s << 3)` (R68). -/
def setCgramByte (s : BitVec 3) : Byte := 0x40 ||| (s.setWidth 8 <<< 3)

/-- The high nibble of a byte, in bits [7:4] (R61). -/
def hiNibble (v : Byte) : Byte := v &&& 0xF0

/-- The low nibble of a byte, shifted into bits [7:4] (R61). -/
def loNibble (v : Byte) : Byte := (v <<< 4) &&& 0xF0

/-- The mode flag of a Command transfer (R60). -/
def commandMode : Byte := 0x00

/-- The mode flag of a Data transfer (R60). -/
def dataMode (c : Configuration) : Byte := c.rsMask

/-- `blbit`, and with it the backlight-only byte (R23, R62). -/
def blBit (c : Configuration) (bl : Bool) : Byte := if bl then c.blMask else 0x00

/-- The control byte `b` of one nibble transfer (R59). Its RW bit is 0: no rule sets it (R58). -/
def controlByte (c : Configuration) (bl : Bool) (n mode : Byte) : Byte := (n &&& 0xF0) ||| mode ||| blBit c bl

end Sys2Proof.Machine
end

