-- ==== Sys2Proof/Machine/Ops.lean ====
section
/-! DEFINITION. The shared operations: the named updates of State, the byte-sink's two calls, the primitives of rules
R71 to R78, statements in sequence (R15, R19), the response port (R70), taking an exception (R122) and admission
(R119). -/

namespace Sys2Proof.Machine

/-! ## Named updates -/

/-- Append one event to the trace (R14). -/
def State.emit (s : State) (e : Event) : State := { s with trace := s.trace ++ [e] }
/-- Drive the expander's output lines (R30). -/
def State.latch (s : State) (v : Byte) : State := { s with exp := v }
/-- One byte-sink call has been answered (log entry 5). -/
def State.answered (s : State) : State := { s with answers := s.answers.tail, calls := s.calls + 1 }
/-- Point `seq` at statement `k` of request `op` (R19). -/
def State.pointAt (s : State) (op : Byte) (k : Nat) : State := { s with seq := .running op k }
/-- `phase <- p` (R18). -/
def State.setPhase (s : State) (p : Phase) : State := { s with phase := p }
/-- `CONN <- 1` (R28). -/
def State.connect (s : State) : State := { s with conn := true }
/-- `FUNC <- v` (R24). -/
def State.setFunc (s : State) (v : Byte) : State := { s with func := v }
/-- `DCTRL <- v` (R25). -/
def State.setDctrl (s : State) (v : Byte) : State := { s with dctrl := v }
/-- `EMODE <- v` (R26). -/
def State.setEmode (s : State) (v : Byte) : State := { s with emode := v }
/-- `BL <- b` (R27). -/
def State.setBl (s : State) (b : Bool) : State := { s with bl := b }
/-- Deliver the response of the request and return `seq` to IDLE (R19, R49 item 3, R70). -/
def State.respond (s : State) (r : Response) : State := { s with seq := .idle, responses := s.responses ++ [r] }

/-! ## Responses and exceptions -/

/-- `{status = OK}` (R70). -/
def okResponse : Response := { status := .ok }
/-- `{status = ERR}` with its error records; only WRITE gives a count (R70, R114). -/
def errResponse (errs : List ErrorRecord) (count : Nat := 0) : Response := { status := .err, count := count, errs := errs }

/-- TAKING AN EXCEPTION (R122): `seq` returns to IDLE and the error record goes into the response's `errs`; nothing else
is saved, and there is no vector, handler, mode change or stack. There is no return from it (R123): the next request is
admitted or refused by R119 in the state this leaves. -/
def State.takeException (s : State) (e : ErrorRecord) (count : Nat := 0) : State := s.respond (errResponse [e] count)

/-! ## Statements in sequence -/

/-- A primitive or a statement. -/
abbrev Action := State → Res

/-- Go on with `k` unless the statement raised or hung: a raise "ends the whole request at once" (R15). -/
def Res.andThen (r : Res) (k : Action) : Res :=
  match r with
  | .done s => k s
  | .raised e s => .raised e s
  | .hung s => .hung s

/-- The state a result leaves, however it ended. -/
def Res.state : Res → State
  | .done s => s
  | .raised _ s => s
  | .hung s => s

/-- Two statements in order, each complete before the next begins (R15). -/
def both (a b : Action) : Action := fun s => (a s).andThen b

/-- The statements of request `op` in order, the first at index `k`: `seq` points at each while it runs (R19). -/
def runFrom (op : Byte) (k : Nat) : List Action → Action
  | [] => fun s => .done s
  | a :: rest => fun s => (a (s.pointAt op k)).andThen (runFrom op (k + 1) rest)

/-! ## The byte-sink -/

/-- The byte-sink's answer to the `i`-th call from here (0 is the next one): the one the state lists, or the free value of
that call (R71, R78; log entry 5). -/
def State.answerAt (s : State) (i : Nat) : SinkAnswer := (s.answers[i]?).getD (Config.freeAnswer (s.calls + i))

/-- The expander's latch after a failed write of `v`: its old value or `v`, which is not fixed (R30; log entry 6). -/
def State.latchAfterFailure (s : State) (v : Byte) : Byte := if Config.freeLatch s.calls then v else s.exp

/-! ## The primitives -/

/-- `ExpWrite(v)` (R71). A failed write is not retried. Without an answer the block stays in the primitive (R118). -/
def expWrite (v : Byte) : Action := fun s =>
  match s.answerAt 0 with
  | .ok => .done ((s.answered.emit (.write v)).latch v)
  | .fail => .raised (.ioError v) ((s.answered.emit (.writeFailed v)).latch (s.latchAfterFailure v))
  | .never => .hung s

/-- `Wait(T)` (R72): the event only records which lower bound holds. -/
def wait (d : Delay) : Action := fun s => .done (s.emit (.delay d))

/-- `SendNibble(n, mode)` (R73): `BL` is read once; the enable-high write, its wait, the enable-low write, its wait. -/
def sendNibble (n mode : Byte) : Action := fun s =>
  let b := controlByte s.cfg s.bl n mode
  both (expWrite (b ||| s.cfg.enMask)) (both (wait .enPw) (both (expWrite b) (wait .settle))) s

/-- `Transmit(v, mode)` (R74): the high nibble, then the low nibble. -/
def transmit (v mode : Byte) : Action := both (sendNibble (hiNibble v) mode) (sendNibble (loNibble v) mode)

/-- `Command(v)` (R75). -/
def command (v : Byte) : Action := transmit v commandMode

/-- `Data(v)` (R76). -/
def data (v : Byte) : Action := fun s => transmit v (dataMode s.cfg) s

/-- `BlOnly()` (R77): one write, no strobe, no wait. -/
def blOnly : Action := fun s => expWrite (blBit s.cfg s.bl) s

/-- `Acquire(I2C_ADDR, BUS_INDEX)` (R78). -/
def acquire : Action := fun s =>
  match s.answerAt 0 with
  | .ok => .done (s.answered.emit (.acquired s.cfg.i2cAddr s.cfg.busIndex)).connect
  | .fail =>
    .raised (.connectionError s.cfg.i2cAddr s.cfg.busIndex)
      (s.answered.emit (.acquireFailed s.cfg.i2cAddr s.cfg.busIndex))
  | .never => .hung s

/-! ## Register statements -/

/-- An assignment to a name local to the pseudocode (`r`, `c`, `addr`, `s`, `n`, `errs`): a statement that `seq` counts
(R19) and that no register shows. -/
def localAssign : Action := fun s => .done s

/-- `FUNC <- f` (R83). -/
def assignFunc : Action := fun s => .done (s.setFunc (funcValue s.cfg))
/-- `DCTRL <- v` (R82, S10). -/
def assignDctrl (v : Byte) : Action := fun s => .done (s.setDctrl v)
/-- `EMODE <- v` (R82, S12). -/
def assignEmode (v : Byte) : Action := fun s => .done (s.setEmode v)
/-- `DCTRL <- DCTRL | m` (R91). -/
def setDctrlBit (m : Byte) : Action := fun s => .done (s.setDctrl (setBit s.dctrl m))
/-- `DCTRL <- DCTRL & ~m` (R91). -/
def clearDctrlBit (m : Byte) : Action := fun s => .done (s.setDctrl (clearBit s.dctrl m))
/-- `EMODE <- EMODE | m` (R91). -/
def setEmodeBit (m : Byte) : Action := fun s => .done (s.setEmode (setBit s.emode m))
/-- `EMODE <- EMODE & ~m` (R91). -/
def clearEmodeBit (m : Byte) : Action := fun s => .done (s.setEmode (clearBit s.emode m))
/-- `BL <- b` (R96, R97). -/
def assignBl (b : Bool) : Action := fun s => .done (s.setBl b)

/-- `Command(0x20 | FUNC)` (R82). -/
def commandFunc : Action := fun s => command (functionSetByte s.func) s
/-- `Command(0x08 | DCTRL)` (R25). -/
def commandDctrl : Action := fun s => command (displayControlByte s.dctrl) s
/-- `Command(0x04 | EMODE)` (R26). -/
def commandEmode : Action := fun s => command (entryModeByte s.emode) s
/-- `if BL_WRITES: BlOnly()` (R8, R96, R97). -/
def blOnlyIfWrites : Action := fun s => if s.cfg.blWrites then blOnly s else .done s

/-! ## Admission and the end of a request -/

/-- The outcome of a step of this machine. -/
abbrev Outcome := Host.Outcome State Fault Refusal

/-- Admission (R119): request `op` runs only when `seq` is IDLE and `phase` is the one that admits it. A refused request
changes no state, emits no event and gets no response; the refusal ends the run. -/
def serve (gate : Phase) (op : Byte) (run : State → State) (s : State) : Outcome :=
  match s.seq with
  | .running _ _ => .refused (.requestInProgress op)
  | .idle => if s.phase = gate then .next (run s) else .refused (.notAdmitted op s.phase)

/-- The end of a request other than START, STOP and WRITE (R89): respond OK, or take the exception, `phase` unchanged in
both cases. A request stuck in the byte-sink delivers no response and `seq` stays where it is (R118). -/
def finish (ok : Response) : Res → State
  | .done s => s.respond ok
  | .raised e s => s.takeException e
  | .hung s => s

/-- A request admitted in READY whose whole pseudocode is `body`, and whose success response is `ok`. -/
def request (op : Byte) (body : List Action) (ok : Response) (s : State) : Outcome :=
  serve .ready op (fun s => finish ok (runFrom op 0 body s)) s

/-! ## The request port -/

/-- The request on the port and the state once the block has taken it with all its operands (R47, R49 item 2). -/
def State.fetch (s : State) : Option (Request × State) :=
  match s.port with
  | [] => none
  | r :: rest => some (r, { s with port := rest })

/-- The phase that admits a request (R119): START in UNSTARTED, every other request in READY. -/
def gateOf : Instr → Phase
  | .start => .unstarted
  | .stop | .clear | .home | .displayOn | .displayOff | .backlightOn | .backlightOff => .ready
  | .underlineOn | .underlineOff | .blinkOn | .blinkOff | .shiftLeft | .shiftRight => .ready
  | .leftToRight | .rightToLeft | .autoscrollOn | .autoscrollOff => .ready
  | .setCursor _ _ | .registerChar _ _ | .write _ => .ready

/-- The caller presents `r` next, in a state that can admit it: `seq` IDLE and, for a defined request, the phase that
admits it (R119; log entry 13). -/
def State.present (s : State) (r : Request) : State :=
  match decode r with
  | .ok i => { s with port := r :: s.port, seq := .idle, phase := gateOf i }
  | .error _ => { s with port := r :: s.port, seq := .idle }

end Sys2Proof.Machine
end

