-- ==== Sys2Proof/Machine/Display.lean ====
section
/-! DEFINITION. The sixteen display-control requests (rules R89 to R107): for each its pseudocode and its meaning. -/

namespace Sys2Proof.Machine

/-- R92. STOP runs this body as its first step (R86). -/
def clearBody : List Action := [command clearByte, wait .clearHome]
/-- R93. -/
def homeBody : List Action := [command homeByte, wait .clearHome]
/-- R94: `D <- 1`. -/
def displayOnBody : List Action := [setDctrlBit maskD, commandDctrl]
/-- R95: `D <- 0`. STOP runs this body as its fourth step (R86). -/
def displayOffBody : List Action := [clearDctrlBit maskD, commandDctrl]
/-- R96. -/
def backlightOnBody : List Action := [assignBl true, blOnlyIfWrites]
/-- R97. STOP runs this body as its second step (R86). -/
def backlightOffBody : List Action := [assignBl false, blOnlyIfWrites]
/-- R98: `C <- 1`. -/
def underlineOnBody : List Action := [setDctrlBit maskC, commandDctrl]
/-- R99: `C <- 0`. STOP runs this body as its third step (R86). -/
def underlineOffBody : List Action := [clearDctrlBit maskC, commandDctrl]
/-- R100: `B <- 1`. -/
def blinkOnBody : List Action := [setDctrlBit maskB, commandDctrl]
/-- R101: `B <- 0`. -/
def blinkOffBody : List Action := [clearDctrlBit maskB, commandDctrl]
/-- R102. -/
def shiftLeftBody : List Action := [command shiftLeftByte]
/-- R103. -/
def shiftRightBody : List Action := [command shiftRightByte]
/-- R104: `ID <- 1`. -/
def leftToRightBody : List Action := [setEmodeBit maskID, commandEmode]
/-- R105: `ID <- 0`. -/
def rightToLeftBody : List Action := [clearEmodeBit maskID, commandEmode]
/-- R106: `S <- 1`. -/
def autoscrollOnBody : List Action := [setEmodeBit maskS, commandEmode]
/-- R107: `S <- 0`. -/
def autoscrollOffBody : List Action := [clearEmodeBit maskS, commandEmode]

/-- `CLEAR` (R92). -/
def execClear (s : State) : Outcome := request (Instr.opcode .clear) clearBody okResponse s
/-- `HOME` (R93). -/
def execHome (s : State) : Outcome := request (Instr.opcode .home) homeBody okResponse s
/-- `DISPLAY_ON` (R94). -/
def execDisplayOn (s : State) : Outcome := request (Instr.opcode .displayOn) displayOnBody okResponse s
/-- `DISPLAY_OFF` (R95). -/
def execDisplayOff (s : State) : Outcome := request (Instr.opcode .displayOff) displayOffBody okResponse s
/-- `BACKLIGHT_ON` (R96). -/
def execBacklightOn (s : State) : Outcome := request (Instr.opcode .backlightOn) backlightOnBody okResponse s
/-- `BACKLIGHT_OFF` (R97). -/
def execBacklightOff (s : State) : Outcome := request (Instr.opcode .backlightOff) backlightOffBody okResponse s
/-- `UNDERLINE_ON` (R98). -/
def execUnderlineOn (s : State) : Outcome := request (Instr.opcode .underlineOn) underlineOnBody okResponse s
/-- `UNDERLINE_OFF` (R99). -/
def execUnderlineOff (s : State) : Outcome := request (Instr.opcode .underlineOff) underlineOffBody okResponse s
/-- `BLINK_ON` (R100). -/
def execBlinkOn (s : State) : Outcome := request (Instr.opcode .blinkOn) blinkOnBody okResponse s
/-- `BLINK_OFF` (R101). -/
def execBlinkOff (s : State) : Outcome := request (Instr.opcode .blinkOff) blinkOffBody okResponse s
/-- `SHIFT_LEFT` (R102). -/
def execShiftLeft (s : State) : Outcome := request (Instr.opcode .shiftLeft) shiftLeftBody okResponse s
/-- `SHIFT_RIGHT` (R103). -/
def execShiftRight (s : State) : Outcome := request (Instr.opcode .shiftRight) shiftRightBody okResponse s
/-- `LEFT_TO_RIGHT` (R104). -/
def execLeftToRight (s : State) : Outcome := request (Instr.opcode .leftToRight) leftToRightBody okResponse s
/-- `RIGHT_TO_LEFT` (R105). -/
def execRightToLeft (s : State) : Outcome := request (Instr.opcode .rightToLeft) rightToLeftBody okResponse s
/-- `AUTOSCROLL_ON` (R106). -/
def execAutoscrollOn (s : State) : Outcome := request (Instr.opcode .autoscrollOn) autoscrollOnBody okResponse s
/-- `AUTOSCROLL_OFF` (R107). -/
def execAutoscrollOff (s : State) : Outcome := request (Instr.opcode .autoscrollOff) autoscrollOffBody okResponse s

end Sys2Proof.Machine
end

