-- ==== Sys2Proof/Machine/Lifecycle.lean ====
section
/-! DEFINITION. START and STOP (rules R81 to R88). -/

namespace Sys2Proof.Machine

/-- The states of START's linear state machine (R81). -/
inductive InitState where
  | s0Idle
  | s1Acquire
  | s2PowerOn
  | s3Prime
  | s4PrimeWait
  | s5Sync1
  | s6Sync2
  | s7Sync3
  | s8Commit4
  | s9FuncSet
  | s10DispCtrl
  | s11Clear
  | s12Entry
  | s13Home
  | s14Ready
  | sfFailed
deriving DecidableEq, Repr

/-- The 4-bit code that `seq.k` holds in each init state (R81). -/
def InitState.code : InitState → Nat
  | .s0Idle => 0
  | .s1Acquire => 1
  | .s2PowerOn => 2
  | .s3Prime => 3
  | .s4PrimeWait => 4
  | .s5Sync1 => 5
  | .s6Sync2 => 6
  | .s7Sync3 => 7
  | .s8Commit4 => 8
  | .s9FuncSet => 9
  | .s10DispCtrl => 10
  | .s11Clear => 11
  | .s12Entry => 12
  | .s13Home => 13
  | .s14Ready => 14
  | .sfFailed => 15

/-- The action of each init state that START performs in order (R81, R82). S0, S14 and SF have none of their own here:
admission, `succeedStart` and `failStart` are theirs. -/
def InitState.action : InitState → Action
  | .s1Acquire => acquire
  | .s2PowerOn => wait .powerOn
  | .s3Prime => blOnly
  | .s4PrimeWait => wait .prime
  | .s5Sync1 => both (sendNibble syncNibble commandMode) (wait .sync1)
  | .s6Sync2 => both (sendNibble syncNibble commandMode) (wait .sync2)
  | .s7Sync3 => both (sendNibble syncNibble commandMode) (wait .sync3)
  | .s8Commit4 => sendNibble commitNibble commandMode
  | .s9FuncSet => both assignFunc commandFunc
  | .s10DispCtrl => both (assignDctrl 0x04) commandDctrl
  | .s11Clear => both (command clearByte) (wait .clearHome)
  | .s12Entry => both (assignEmode 0x02) commandEmode
  | .s13Home => both (command homeByte) (wait .clearHome)
  | .s0Idle | .s14Ready | .sfFailed => localAssign

/-- S1 to S13, in the order of R81's "next" column: their codes are 1 to 13. -/
def initSequence : List InitState :=
  [.s1Acquire, .s2PowerOn, .s3Prime, .s4PrimeWait, .s5Sync1, .s6Sync2, .s7Sync3, .s8Commit4, .s9FuncSet,
   .s10DispCtrl, .s11Clear, .s12Entry, .s13Home]

/-- S14: `phase <- READY`; respond OK (R81, R82). -/
def succeedStart (s : State) : State := (s.setPhase .ready).respond okResponse

/-- SF: `phase <- FAILED`; respond ERR (R81, R85). -/
def failStart (e : ErrorRecord) (s : State) : State := (s.setPhase .failed).takeException e

/-- The end of START (R82, R85, R118). -/
def finishStart : Res → State
  | .done s => succeedStart s
  | .raised e s => failStart e s
  | .hung s => s

/-- `START` (R82): admitted in UNSTARTED; the init sequence from state S1, code 1. -/
def execStart (s : State) : Outcome :=
  serve .unstarted (Instr.opcode .start)
    (fun s => finishStart (runFrom (Instr.opcode .start) 1 (initSequence.map InitState.action) s)) s

/-- The four steps of STOP in order, each with the index of its first statement: "Each step is exactly the body of the
corresponding request" (R86; log entry 8 for the indices). -/
def stopSteps : List (Nat × List Action) :=
  [(1, clearBody), (3, backlightOffBody), (5, underlineOffBody), (7, displayOffBody)]

/-- The steps of STOP in order, each attempted whatever earlier ones did; a raised error is appended to `errs` and ends its
step only (R86, R87). -/
def runStop (errs : List ErrorRecord) : List (Nat × List Action) → State → List ErrorRecord × Res
  | [], s => (errs, .done s)
  | (k, body) :: rest, s =>
    match runFrom (Instr.opcode .stop) k body s with
    | .done s' => runStop errs rest s'
    | .raised e s' => runStop (errs ++ [e]) rest s'
    | .hung s' => (errs, .hung s')

/-- The end of STOP (R86): OK when no step raised, otherwise one ERR response with all the errors in step order. -/
def finishStop : List ErrorRecord × Res → State
  | (_, .hung s) => s
  | ([], r) => r.state.respond okResponse
  | (e :: es, r) => r.state.respond (errResponse (e :: es))

/-- `STOP` (R86). -/
def execStop (s : State) : Outcome :=
  serve .ready (Instr.opcode .stop) (fun s => finishStop (runStop [] stopSteps s)) s

end Sys2Proof.Machine
end

