-- ==== Sys2Proof/Machine/Output.lean ====
section
/-! DEFINITION. The requests that take operands: SET_CURSOR (rules R110 and R111), REGISTER_CHAR (R112) and WRITE (R113
and R114). -/

namespace Sys2Proof.Machine

/-- `Command(0x80 | addr)` with the address of the clamped cell (R111). The block keeps no cursor position. -/
def commandSetDdram (col row : Int) : Action := fun s => command (setDdramByte (cursorAddress s.cfg col row)) s

/-- R111: `r`, `c` and `addr` are local; the fourth statement is the command. -/
def setCursorBody (col row : Int) : List Action := [localAssign, localAssign, localAssign, commandSetDdram col row]

/-- `SET_CURSOR col, row` (R111). -/
def execSetCursor (col row : Int) (s : State) : Outcome :=
  request (Instr.opcode (.setCursor col row)) (setCursorBody col row) okResponse s

/-- R112: `s` is local, then SetCGRAMAddress, then the eight bitmap bytes in index order as given, all 8 bits. -/
def registerCharBody (slot : Int) (bm : Bitmap) : List Action :=
  localAssign :: command (setCgramByte (slotOf slot)) :: (bitmapBytes bm).map data

/-- `REGISTER_CHAR slot, bm` (R112): a success returns the code point; an error response carries none. -/
def execRegisterChar (slot : Int) (bm : Bitmap) (s : State) : Outcome :=
  request (Instr.opcode (.registerChar slot bm)) (registerCharBody slot bm) { status := .ok, code := slotOf slot } s

/-- The loop of R113 from the byte whose Data transmit is statement `k`, with `n` bytes already sent: the number of bytes
fully sent, and how the loop ended. Each turn is two statements, the transmit and `n <- n + 1` (log entry 8). -/
def sendBytes (op : Byte) (k n : Nat) : List Byte → State → Nat × Res
  | [], s => (n, .done s)
  | d :: rest, s =>
    match data d (s.pointAt op k) with
    | .done s' => sendBytes op (k + 2) (n + 1) rest s'
    | .raised e s' => (n, .raised e s')
    | .hung s' => (n, .hung s')

/-- The end of WRITE (R113, R114): both responses carry the count of bytes fully sent. -/
def finishWrite : Nat × Res → State
  | (n, .done s) => s.respond { status := .ok, count := n }
  | (n, .raised e s) => s.takeException e n
  | (_, .hung s) => s

/-- `WRITE data` (R113). -/
def execWrite (bytes : List Byte) (s : State) : Outcome :=
  serve .ready (Instr.opcode (.write bytes)) (fun s => finishWrite (sendBytes (Instr.opcode (.write bytes)) 1 0 bytes s)) s

end Sys2Proof.Machine
end

