-- ==== Sys2Proof/Machine/Step.lean ====
section
/-! DEFINITION. One step of the machine: the request on the port, run until its response, until the byte-sink leaves it
stuck, or refused. -/

namespace Sys2Proof.Machine

/-- With no request on the port nothing happens (R120, R131), unless an unanswered byte-sink call holds the block: then
there is no next step (R118). A request on the port is taken whole (R47), decoded and run, or refused (R56, R119). -/
def step (s : State) : Host.Outcome State Fault Refusal :=
  match s.fetch with
  | none =>
    match s.seq with
    | .idle => .next s
    | .running op k => .fault (.hung op k)
  | some (r, s') =>
    match decode r with
    | .ok i => exec i s'
    | .error (.reservedOp op) => .refused (.reservedOp op)

/-- The record of an opcode-table word presented as the next request, in a state that can admit it (log entry 13). -/
def State.withFetchWord (s : State) (nbits w : Nat) : State := s.present (Request.ofTableWord nbits w)

end Sys2Proof.Machine
end

