-- ==== Sys2Proof/Machine/Trace.lean ====
section
/-! DEFINITION. The trace as the spec writes it (rule R14): the fragments `Cmd[v]` and `Dat[v]`, the event lists of the
requests on their success paths, what a failed or unanswered call leaves of one, and the observations R80, R134, R135 and
R145 make of a trace. `exec` uses nothing of this file: the laws and the statements compare the two. -/

namespace Sys2Proof.Machine

/-! ## The event lists the rules give -/

/-- The four events of a complete SendNibble (R73, R59). -/
def nibbleEvents (c : Configuration) (bl : Bool) (n mode : Byte) : List Event :=
  [.write (controlByte c bl n mode ||| c.enMask), .delay .enPw, .write (controlByte c bl n mode), .delay .settle]

/-- The events of a complete Transmit, high nibble first (R74, R79 item 1). -/
def transmitEvents (c : Configuration) (bl : Bool) (v mode : Byte) : List Event :=
  nibbleEvents c bl (v &&& 0xF0) mode ++ nibbleEvents c bl ((v <<< 4) &&& 0xF0) mode

/-- `Cmd[v]` (R14, R75). -/
def cmdEvents (c : Configuration) (bl : Bool) (v : Byte) : List Event := transmitEvents c bl v 0x00

/-- `Dat[v]` (R14, R76). -/
def datEvents (c : Configuration) (bl : Bool) (v : Byte) : List Event := transmitEvents c bl v c.rsMask

/-- The events of a backlight request that sets `BL` to `bl` (R96, R97). -/
def backlightEvents (c : Configuration) (bl : Bool) : List Event := if c.blWrites then [.write (blBit c bl)] else []

/-- The events of CLEAR (R92). -/
def clearEvents (c : Configuration) (bl : Bool) : List Event := cmdEvents c bl 0x01 ++ [.delay .clearHome]

/-- The events of HOME (R93). -/
def homeEvents (c : Configuration) (bl : Bool) : List Event := cmdEvents c bl 0x02 ++ [.delay .clearHome]

/-- START from S1 to S8: acquisition, priming and the four init nibbles (R82). -/
def handshakeEvents (c : Configuration) (bl : Bool) : List Event :=
  [.acquired c.i2cAddr c.busIndex, .delay .powerOn, .write (blBit c bl), .delay .prime] ++
  nibbleEvents c bl 0x30 0x00 ++ [.delay .sync1] ++ nibbleEvents c bl 0x30 0x00 ++ [.delay .sync2] ++
  nibbleEvents c bl 0x30 0x00 ++ [.delay .sync3] ++ nibbleEvents c bl 0x20 0x00

/-- START from S9 to S13: FunctionSet with `f` of R83, DisplayControl 0x0C, clear, EntryMode 0x06, home (R82). -/
def modeEvents (c : Configuration) (bl : Bool) : List Event :=
  cmdEvents c bl (0x20 ||| funcValue c) ++ cmdEvents c bl 0x0C ++ clearEvents c bl ++ cmdEvents c bl 0x06 ++
  homeEvents c bl

/-- The events of START (R82, V-START-1). -/
def startEvents (c : Configuration) (bl : Bool) : List Event := handshakeEvents c bl ++ modeEvents c bl

/-- The events of STOP from a state with `BL` = `bl` and `DCTRL` = `d` (R86): the steps after the first have `BL` = 0. -/
def stopEvents (c : Configuration) (bl : Bool) (d : Byte) : List Event :=
  clearEvents c bl ++ backlightEvents c false ++ cmdEvents c false (0x08 ||| (d &&& ~~~0x02)) ++
  cmdEvents c false (0x08 ||| ((d &&& ~~~0x02) &&& ~~~0x04))

/-- The events of REGISTER_CHAR (R112). -/
def registerCharEvents (c : Configuration) (bl : Bool) (slot : Int) (bm : Bitmap) : List Event :=
  cmdEvents c bl (setCgramByte (slotOf slot)) ++ datEvents c bl bm.b0 ++ datEvents c bl bm.b1 ++ datEvents c bl bm.b2 ++
  datEvents c bl bm.b3 ++ datEvents c bl bm.b4 ++ datEvents c bl bm.b5 ++ datEvents c bl bm.b6 ++ datEvents c bl bm.b7

/-- The events of WRITE (R113). -/
def writeEvents (c : Configuration) (bl : Bool) (bytes : List Byte) : List Event := bytes.flatMap (datEvents c bl)

/-! ## What the byte-sink's answers make of an event list -/

/-- The number of byte-sink calls in an event list. -/
def callCount : List Event → Nat
  | [] => 0
  | .delay _ :: es => callCount es
  | .write _ :: es => callCount es + 1
  | .writeFailed _ :: es => callCount es + 1
  | .acquired _ _ :: es => callCount es + 1
  | .acquireFailed _ _ :: es => callCount es + 1

/-- The byte-sink answers OK to each of its next `n` calls. -/
def State.AnswersOk (s : State) (n : Nat) : Prop := ∀ i, i < n → s.answerAt i = .ok

/-- The byte-sink answers OK to its next `n` calls and reports failure for the one after. -/
def State.FailsAt (s : State) (n : Nat) : Prop := s.AnswersOk n ∧ s.answerAt n = .fail

/-- The byte-sink answers OK to its next `n` calls and never answers the one after. -/
def State.HangsAt (s : State) (n : Nat) : Prop := s.AnswersOk n ∧ s.answerAt n = .never

/-- The expander's latch after the successful writes of an event list (R30: "After an event `W(v)`, `EXP` = v"). -/
def lastWrite (old : Byte) : List Event → Byte
  | [] => old
  | .write v :: es => lastWrite v es
  | .writeFailed _ :: es => lastWrite old es
  | .delay _ :: es => lastWrite old es
  | .acquired _ _ :: es => lastWrite old es
  | .acquireFailed _ _ :: es => lastWrite old es

/-- The events before call number `k` (0 is the first) of an event list: what has happened when that call is made. -/
def beforeCall : Nat → List Event → List Event
  | _, [] => []
  | k, .delay d :: es => .delay d :: beforeCall k es
  | 0, _ :: _ => []
  | k + 1, e :: es => e :: beforeCall k es

/-- The event that is call number `k` of an event list. -/
def callAt : Nat → List Event → Option Event
  | _, [] => none
  | k, .delay _ :: es => callAt k es
  | 0, e :: _ => some e
  | k + 1, _ :: es => callAt k es

/-- `W(v)` as the failed `W!(v)`, `ACQ` as the failed `ACQ!` (R14). -/
def Event.failed : Event → Event
  | .write v => .writeFailed v
  | .acquired a b => .acquireFailed a b
  | .writeFailed v => .writeFailed v
  | .acquireFailed a b => .acquireFailed a b
  | .delay d => .delay d

/-- `s` once every event of `es` has happened, each call answered OK. -/
def State.played (s : State) (es : List Event) : State :=
  { s with trace := s.trace ++ es, exp := lastWrite s.exp es, answers := s.answers.drop (callCount es),
           calls := s.calls + callCount es }

/-- `s` once the write of `v` that call number `k` of `es` makes has failed, every call before it answered OK (R71, R117):
nothing follows the failed write, and the latch holds its old value or `v` (R30). -/
def State.playedToFailedWrite (s : State) (es : List Event) (k : Nat) (v : Byte) : State :=
  let t := s.played (beforeCall k es)
  (t.answered.emit (.writeFailed v)).latch (t.latchAfterFailure v)

/-- The `n`-th byte (from 0) that the writes of an event list carry. -/
def writeAt (es : List Event) (k : Nat) : Option Byte :=
  match callAt k es with
  | some (.write v) => some v
  | _ => none

/-! ## Observations of a trace -/

/-- The bytes of the writes of a trace, the failed ones too: every byte the block put on the bus (R79). -/
def writtenBytes : List Event → List Byte
  | [] => []
  | .write v :: es => v :: writtenBytes es
  | .writeFailed v :: es => v :: writtenBytes es
  | .delay _ :: es => writtenBytes es
  | .acquired _ _ :: es => writtenBytes es
  | .acquireFailed _ _ :: es => writtenBytes es

/-- `Latched(trace)` (R80, informative), with `high` the byte of the last enable-high write since which only waits
happened. -/
def latchedFrom (c : Configuration) (high : Option Byte) : List Event → List (Bool × BitVec 4)
  | [] => []
  | .delay _ :: es => latchedFrom c high es
  | .write y :: es =>
    (match high with
      | some x => if y = x &&& ~~~c.enMask then [(x &&& c.rsMask != 0, x.extractLsb' 4 4)] else []
      | none => []) ++
    latchedFrom c (if y &&& c.enMask = 0 then none else some y) es
  | .writeFailed _ :: es => latchedFrom c none es
  | .acquired _ _ :: es => latchedFrom c none es
  | .acquireFailed _ _ :: es => latchedFrom c none es

/-- `Latched(trace)` (R80): the register-select bit and the nibble of every complete enable pulse. -/
def latched (c : Configuration) (es : List Event) : List (Bool × BitVec 4) := latchedFrom c none es

/-- Where a trace stands in the strobe protocol of R134 and R135. -/
inductive Strobe where
  /-- No strobe is open. -/
  | rest
  /-- The enable-high write of `x` has happened and nothing since. -/
  | high (x : Byte)
  /-- The enable-high write of `x` and then `D(T_EN_PW)` have happened. -/
  | held (x : Byte)
  /-- The enable-low write has happened and its `D(T_SETTLE)` has not. -/
  | low
  /-- The protocol has been violated. -/
  | broken
deriving DecidableEq, Repr

/-- One event of the strobe protocol: "every EN-high write is followed by `D(T_EN_PW)` and then the matching EN-low write
(rule R134); every EN-low write is followed by `D(T_SETTLE)` before any other write (rule R135)". A failed write ends its
strobe, because nothing follows it in its request (R73). -/
def strobeStep (c : Configuration) (p : Strobe) (e : Event) : Strobe :=
  match p with
  | .broken => .broken
  | .rest =>
    match e with
    | .write x => if x &&& c.enMask = 0 then .rest else .high x
    | .writeFailed _ | .delay _ | .acquired _ _ | .acquireFailed _ _ => .rest
  | .high x =>
    match e with
    | .delay .enPw => .held x
    | _ => .broken
  | .held x =>
    match e with
    | .write y => if y = x &&& ~~~c.enMask then .low else .broken
    | .writeFailed y => if y = x &&& ~~~c.enMask then .rest else .broken
    | .delay _ | .acquired _ _ | .acquireFailed _ _ => .broken
  | .low =>
    match e with
    | .delay .settle => .rest
    | _ => .broken

/-- Where a whole trace stands in the strobe protocol. -/
def strobe (c : Configuration) (es : List Event) : Strobe := es.foldl (strobeStep c) .rest

/-- The number of write events (R145). -/
def writeCount (es : List Event) : Nat := (writtenBytes es).length

/-- The number of wait events (R145). -/
def waitCount : List Event → Nat
  | [] => 0
  | .delay _ :: es => waitCount es + 1
  | .write _ :: es => waitCount es
  | .writeFailed _ :: es => waitCount es
  | .acquired _ _ :: es => waitCount es
  | .acquireFailed _ _ :: es => waitCount es

/-- The lower bound on the duration of an event list (R46, R72: consecutive waits add up; R145). -/
def durationBound (t : Timing) : List Event → Nat
  | [] => 0
  | .delay d :: es => t.value d + durationBound t es
  | .write _ :: es => durationBound t es
  | .writeFailed _ :: es => durationBound t es
  | .acquired _ _ :: es => durationBound t es
  | .acquireFailed _ _ :: es => durationBound t es

end Sys2Proof.Machine
end

