-- ==== Sys2Proof/Safety.lean ====
section
/-! DEFINITION. What claims say of a state and of a run: when a request can be served (rule R119), the invariant of the
machine, and when a run has ended normally (R147). -/

namespace Sys2Proof.Machine

/-- `seq` is IDLE and the phase is `p`: a request whose admission column is `p` is admitted (R119). -/
def State.Serves (s : State) (p : Phase) : Prop := s.seq = .idle ∧ s.phase = p

/-- What `seq` can hold (R19): IDLE; START at one of its codes 1 to 13 before READY (R81); or another defined opcode, in
READY. -/
def State.SeqLegal (s : State) : Prop :=
  match s.seq with
  | .idle => True
  | .running op k =>
    (op = 0x01 ∧ 1 ≤ k ∧ k ≤ 13 ∧ s.phase = .unstarted) ∨ (op ≠ 0x01 ∧ formatOf op ≠ none ∧ s.phase = .ready)

/-- The invariant of the machine. -/
structure State.Inv (s : State) : Prop where
  /-- The block exists only for a valid configuration (R10). -/
  cfgValid : s.cfg.valid = true
  /-- `FUNC` holds its reset value or the value START gives it (R24, R83), and from READY on the latter. -/
  funcLegal : s.func = 0x00 ∨ s.func = funcValue s.cfg
  funcReady : s.phase = .ready → s.func = funcValue s.cfg
  /-- Bits 7:3 of `DCTRL` are always 0 (R21). -/
  dctrlLegal : s.dctrl &&& 0xF8 = 0
  /-- Bits 7:2 of `EMODE` are always 0 (R22). -/
  emodeLegal : s.emode &&& 0xFC = 0
  /-- `CONN` is 1 in READY, and 0 before START (R28). -/
  connReady : s.phase = .ready → s.conn = true
  connUnstarted : s.phase = .unstarted → s.seq = .idle → s.conn = false
  seqLegal : s.SeqLegal
  /-- Every byte the block put on the bus has RW = 0 (R58, R79 item 3). -/
  rwLow : ∀ v ∈ writtenBytes s.trace, v &&& s.cfg.rwMask = 0
  /-- The strobe protocol holds along the whole trace, and no strobe is open between requests (R134, R135). -/
  strobeSound : strobe s.cfg s.trace ≠ .broken
  strobeClosed : s.seq = .idle → strobe s.cfg s.trace = .rest

/-- The requests that issue exactly one command (R92 to R95, R98 to R107, R111): the state once the register it changes is
written (R90), the command byte the rule gives (R63), and the index of the command among the request's statements (R19). -/
def singleCommand (i : Instr) (s : State) : Option (State × Byte × Nat) :=
  match i with
  | .clear => some (s, 0x01, 0)
  | .home => some (s, 0x02, 0)
  | .displayOn => some (s.setDctrl (s.dctrl ||| 0x04), 0x08 ||| (s.dctrl ||| 0x04), 1)
  | .displayOff => some (s.setDctrl (s.dctrl &&& ~~~0x04), 0x08 ||| (s.dctrl &&& ~~~0x04), 1)
  | .underlineOn => some (s.setDctrl (s.dctrl ||| 0x02), 0x08 ||| (s.dctrl ||| 0x02), 1)
  | .underlineOff => some (s.setDctrl (s.dctrl &&& ~~~0x02), 0x08 ||| (s.dctrl &&& ~~~0x02), 1)
  | .blinkOn => some (s.setDctrl (s.dctrl ||| 0x01), 0x08 ||| (s.dctrl ||| 0x01), 1)
  | .blinkOff => some (s.setDctrl (s.dctrl &&& ~~~0x01), 0x08 ||| (s.dctrl &&& ~~~0x01), 1)
  | .shiftLeft => some (s, 0x18, 0)
  | .shiftRight => some (s, 0x1C, 0)
  | .leftToRight => some (s.setEmode (s.emode ||| 0x02), 0x04 ||| (s.emode ||| 0x02), 1)
  | .rightToLeft => some (s.setEmode (s.emode &&& ~~~0x02), 0x04 ||| (s.emode &&& ~~~0x02), 1)
  | .autoscrollOn => some (s.setEmode (s.emode ||| 0x01), 0x04 ||| (s.emode ||| 0x01), 1)
  | .autoscrollOff => some (s.setEmode (s.emode &&& ~~~0x01), 0x04 ||| (s.emode &&& ~~~0x01), 1)
  | .setCursor col row => some (s, 0x80 ||| BitVec.ofNat 8 (cursorAddress s.cfg col row), 3)
  | .start | .stop | .backlightOn | .backlightOff | .registerChar _ _ | .write _ => none

/-- The requests that write `DCTRL` (R25). -/
def writesDctrl : Instr → Bool
  | .start | .stop | .displayOn | .displayOff | .underlineOn | .underlineOff | .blinkOn | .blinkOff => true
  | .clear | .home | .backlightOn | .backlightOff | .shiftLeft | .shiftRight => false
  | .leftToRight | .rightToLeft | .autoscrollOn | .autoscrollOff => false
  | .setCursor _ _ | .registerChar _ _ | .write _ => false

/-- The requests that write `EMODE` (R26). -/
def writesEmode : Instr → Bool
  | .start | .leftToRight | .rightToLeft | .autoscrollOn | .autoscrollOff => true
  | .stop | .displayOn | .displayOff | .underlineOn | .underlineOff | .blinkOn | .blinkOff => false
  | .clear | .home | .backlightOn | .backlightOff | .shiftLeft | .shiftRight => false
  | .setCursor _ _ | .registerChar _ _ | .write _ => false

/-- The requests that write `BL` (R27). -/
def writesBl : Instr → Bool
  | .stop | .backlightOn | .backlightOff => true
  | .start | .leftToRight | .rightToLeft | .autoscrollOn | .autoscrollOff => false
  | .displayOn | .displayOff | .underlineOn | .underlineOff | .blinkOn | .blinkOff => false
  | .clear | .home | .shiftLeft | .shiftRight | .setCursor _ _ | .registerChar _ _ | .write _ => false

/-- The byte-sink's next answers are exactly those of the list, in order. -/
def State.AnswersWith (s : State) (as : List SinkAnswer) : Prop := ∀ i a, as[i]? = some a → s.answerAt i = a

/-- How one step of STOP ends (R87): every call answered OK, or its call number `k` fails. -/
inductive StepEnd where
  | success
  | failsAt (k : Nat)
deriving DecidableEq, Repr

/-- The byte-sink's answers to a step whose events on success are `es`. -/
def StepEnd.answers (es : List Event) : StepEnd → List SinkAnswer
  | .success => List.replicate (callCount es) .ok
  | .failsAt k => List.replicate k .ok ++ [.fail]

/-- The events of such a step: all of `es`, or those before the failed call and the failed call as the last (R122). -/
def StepEnd.events (es : List Event) : StepEnd → List Event
  | .success => es
  | .failsAt k => beforeCall k es ++ ((callAt k es).map Event.failed).toList

/-- The error such a step raises (R115). -/
def StepEnd.errors (es : List Event) : StepEnd → List ErrorRecord
  | .success => []
  | .failsAt k =>
    match callAt k es with
    | some (.write v) => [.ioError v]
    | _ => []

/-- The end is one the step can have: the failing call is one of its calls. -/
def StepEnd.possible (es : List Event) : StepEnd → Prop
  | .success => True
  | .failsAt k => k < callCount es

/-- The block is stuck in a byte-sink call that is never answered (R118). -/
def State.Stuck (s : State) : Prop := s.seq ≠ .idle

/-- The most byte-sink calls a request makes, whatever it is answered (R145: its acquisitions and writes). -/
def callBound : Instr → Nat
  | .start => 30
  | .stop => 13
  | .backlightOn | .backlightOff => 1
  | .clear | .home | .displayOn | .displayOff | .underlineOn | .underlineOff | .blinkOn | .blinkOff => 4
  | .shiftLeft | .shiftRight | .leftToRight | .rightToLeft | .autoscrollOn | .autoscrollOff | .setCursor _ _ => 4
  | .registerChar _ _ => 36
  | .write bytes => 4 * bytes.length

/-- The same for a list of request records; a reserved opcode makes no call (R56). -/
def portCalls : List Request → Nat
  | [] => 0
  | r :: rest =>
    (match decode r with
     | .ok i => callBound i
     | .error _ => 0) + portCalls rest

/-- The indices of the statements of a request that call the byte-sink (R19; log entry 8): an unanswered call leaves `seq`
at one of them. START's are its init-state codes, without those of its two plain waits (R81). -/
def callStatements : Instr → List Nat
  | .start => [1, 3, 5, 6, 7, 8, 9, 10, 11, 12, 13]
  | .stop => [1, 4, 6, 8]
  | .clear | .home | .shiftLeft | .shiftRight => [0]
  | .displayOn | .displayOff | .backlightOn | .backlightOff | .underlineOn | .underlineOff | .blinkOn | .blinkOff => [1]
  | .leftToRight | .rightToLeft | .autoscrollOn | .autoscrollOff => [1]
  | .setCursor _ _ => [3]
  | .registerChar _ _ => [1, 2, 3, 4, 5, 6, 7, 8, 9]
  | .write bytes => (List.range bytes.length).map fun n => 1 + 2 * n

/-- Request `i` succeeds from `s`, and `evs` is what it appends to the trace. -/
def Appends (i : Instr) (s : State) (evs : List Event) : Prop :=
  ∃ t r, exec i s = .next t ∧ t.trace = s.trace ++ evs ∧ t.responses = s.responses ++ [r] ∧ r.status = .ok

/-- Request `i` succeeds from `s` with this many writes and wait events, and its waits add up to this bound (R145). -/
def Costs (i : Instr) (s : State) (writes waits bound : Nat) : Prop :=
  ∃ evs, Appends i s evs ∧ writeCount evs = writes ∧ waitCount evs = waits ∧ durationBound s.cfg.timing evs = bound

/-- The byte-sink answers each of its next `n` calls, OK or FAIL. -/
def State.Answered (s : State) (n : Nat) : Prop := ∀ i, i < n → s.answerAt i ≠ .never

/-- A run of `n` steps from `s` ends normally in `t` (R147): every request presented has returned its response and `seq` is
IDLE; neither a refusal nor a hang ended it. -/
def EndsNormally (n : Nat) (s t : State) : Prop :=
  Sys2Proof.core.run n s = .next t ∧ t.port = [] ∧ t.seq = .idle

end Sys2Proof.Machine
end

