-- ==== Sys2Proof/Certificates/Slice0/Obligations.lean ====
section
/-! DEFINITION. The statements for the provers. Each docstring names the rules of the spec it comes from. -/

open Sys2Proof Sys2Proof.Machine

/-! ## Encoding -/

/-- R56: the reserved opcodes are exactly the listed ranges, and a request with one is refused: no next state, so no state
change, no event and no response. -/
def Obligations.ReservedOpcodesAreRefused : Prop :=
  (∀ op : Byte, formatOf op = none ↔
    op.toNat = 0x00 ∨ (0x03 ≤ op.toNat ∧ op.toNat ≤ 0x0F) ∨ (0x21 ≤ op.toNat ∧ op.toNat ≤ 0x2F) ∨
    (0x31 ≤ op.toNat ∧ op.toNat ≤ 0x3F) ∨ 0x41 ≤ op.toNat) ∧
  (∀ (s : State) (r : Request) (rest : List Request), s.port = r :: rest → formatOf r.op = none →
    step s = .refused (.reservedOp r.op))

/-- R49 to R54: the opcode alone gives the format, and only the fields the format names are read. -/
def Obligations.DecodeReadsOnlyTheFieldsOfItsFormat : Prop :=
  ∀ r q : Request, r.op = q.op →
    (formatOf r.op = some .C → r.a = q.a ∧ r.b = q.b) →
    (formatOf r.op = some .G → r.a = q.a ∧ r.bm = q.bm) →
    (formatOf r.op = some .S → r.data = q.data) →
    decode r = decode q

/-- R49 to R55: decoding the record of a well-formed request gives the request back, with every operand. -/
def Obligations.DecodeOfEncodeIsTheRequest : Prop :=
  ∀ i : Instr, i.wellFormed = true → decode (encode i) = .ok i

/-- R49 to R55: what the decoder gives is well formed, has the record's opcode and format, and encodes to a record that
agrees with the decoded one on every field the format names. -/
def Obligations.DecodedRequestsAreWellFormed : Prop :=
  ∀ (r : Request) (i : Instr), decode r = .ok i →
    i.wellFormed = true ∧ i.opcode = r.op ∧ formatOf r.op = some i.format ∧ (encode i).op = r.op ∧
    (i.format = .C → (encode i).a = r.a ∧ (encode i).b = r.b) ∧
    (i.format = .G → (encode i).a = r.a ∧ (encode i).bm = r.bm) ∧
    (i.format = .S → (encode i).data = r.data)

/-- R55: opcodes written out from the map decode to the requests they stand for, one of every family and format. -/
def Obligations.OpcodesOfTheMapDecode : Prop :=
  decode { op := 0x01 } = .ok .start ∧ decode { op := 0x02 } = .ok .stop ∧ decode { op := 0x10 } = .ok .clear ∧
  decode { op := 0x15 } = .ok .backlightOff ∧ decode { op := 0x1F } = .ok .autoscrollOff ∧
  decode { op := 0x20, a := 0xFFFFFFFF, b := 0x00000001 } = .ok (.setCursor (-1) 1) ∧
  decode { op := 0x30, a := 0x00000009, bm := ⟨0x00, 0x0A, 0x1F, 0x1F, 0x0E, 0x04, 0x00, 0x00⟩ } =
    .ok (.registerChar 9 ⟨0x00, 0x0A, 0x1F, 0x1F, 0x0E, 0x04, 0x00, 0x00⟩) ∧
  decode { op := 0x40, data := [0x48, 0x69] } = .ok (.write [0x48, 0x69])

/-! ## Step, admission and construction -/

/-- A step runs the decoded request: the block takes the request at the head of the port with all its operands (R47, R49)
and does what `exec` says of it. -/
def Obligations.StepRunsTheDecodedRequest : Prop :=
  ∀ (s : State) (r : Request) (rest : List Request) (i : Instr), s.port = r :: rest → decode r = .ok i →
    step s = exec i { s with port := rest }

/-- R118, R120, R131: with nothing on the port an idle block does nothing, and a block in the middle of a request, which
only an unanswered byte-sink call leaves, has no next step. -/
def Obligations.WithoutARequestNothingRuns : Prop :=
  (∀ s : State, s.port = [] → s.seq = .idle → step s = .next s) ∧
  (∀ (s : State) (op : Byte) (k : Nat), s.port = [] → s.seq = .running op k → step s = .fault (.hung op k))

/-- R119: the admission table. START is admitted in UNSTARTED and every other request in READY, each only at IDLE; every
other cell is a refusal. An admitted request has a next state; that it has one also when the byte-sink never answers is the
model's choice (log entry 9), R118 giving the block no next step. -/
def Obligations.AdmissionFollowsTheTable : Prop :=
  ∀ (i : Instr) (s : State),
    (s.Serves (if i = .start then .unstarted else .ready) → ∃ t, exec i s = .next t) ∧
    (s.seq = .idle → s.phase ≠ (if i = .start then .unstarted else .ready) →
      exec i s = .refused (.notAdmitted i.opcode s.phase)) ∧
    (∀ op k, s.seq = .running op k → exec i s = .refused (.requestInProgress i.opcode))

/-- R32: the state right after construction, for every valid configuration; an invalid one has no state (R10). The
expander's latch is not among the values stated: it is any byte. -/
def Obligations.ConstructionGivesTheResetValues : Prop :=
  (∀ c : Configuration, c.valid = true → ∃ s, State.construct c = some s ∧ s.cfg = c ∧ s.phase = .unstarted ∧
    s.seq = .idle ∧ s.func = 0x00 ∧ s.dctrl = 0x00 ∧ s.emode = 0x00 ∧ s.bl = true ∧ s.conn = false ∧
    s.trace = [] ∧ s.responses = []) ∧
  (∀ c : Configuration, c.valid = false → State.construct c = none) ∧
  State.construct standardConfiguration = some State.reset

/-- R10, R6, R7: which configurations are valid, with the column bound written out for each row count and the masks by
their bits. -/
def Obligations.ValidConfigurationsAreThoseOfTheRule : Prop :=
  ∀ c : Configuration, c.valid = true ↔
    (1 ≤ c.cols ∧ ((c.rows = 1 ∧ c.cols ≤ 128) ∨ (c.rows = 2 ∧ c.cols ≤ 64) ∨ (c.rows = 3 ∧ c.cols ≤ 64) ∨
      (c.rows = 4 ∧ c.cols ≤ 44))) ∧
    (∃ rs rw en bl : Nat, rs < 4 ∧ rw < 4 ∧ en < 4 ∧ bl < 4 ∧ [rs, rw, en, bl].Nodup ∧
      c.rsMask = .twoPow 8 rs ∧ c.rwMask = .twoPow 8 rw ∧ c.enMask = .twoPow 8 en ∧ c.blMask = .twoPow 8 bl) ∧
    450 ≤ c.timing.enPw ∧ 37000 ≤ c.timing.settle ∧ 40000000 ≤ c.timing.powerOn ∧ 1520000 ≤ c.timing.clearHome ∧
    c.timing.sync2 ≤ c.timing.sync1 ∧ c.timing.sync3 ≤ c.timing.sync2 ∧ 0 < c.timing.sync3 ∧ 0 < c.timing.prime

/-! ## Transport primitives -/

/-- R71: a write that the byte-sink takes is a `W(v)` and `EXP` = v; one it reports failed is a `W!(v)`, raises
IOError(v), is not retried, and leaves `EXP` at its old value or v; without an answer the block stays where it is. -/
def Obligations.ExpWriteFollowsTheByteSink : Prop :=
  ∀ (s : State) (v : Byte),
    (s.answerAt 0 = .ok → expWrite v s = .done ((s.answered.emit (.write v)).latch v)) ∧
    (s.answerAt 0 = .fail → ∃ x, (x = s.exp ∨ x = v) ∧
      expWrite v s = .raised (.ioError v) ((s.answered.emit (.writeFailed v)).latch x)) ∧
    (s.answerAt 0 = .never → expWrite v s = .hung s)

/-- R78: acquisition answered OK sets CONN; answered FAIL it raises ConnectionError and CONN is not written. -/
def Obligations.AcquireFollowsTheByteSink : Prop :=
  ∀ s : State,
    (s.answerAt 0 = .ok →
      acquire s = .done (s.answered.emit (.acquired s.cfg.i2cAddr s.cfg.busIndex)).connect) ∧
    (s.answerAt 0 = .fail →
      acquire s = .raised (.connectionError s.cfg.i2cAddr s.cfg.busIndex)
        (s.answered.emit (.acquireFailed s.cfg.i2cAddr s.cfg.busIndex))) ∧
    (s.answerAt 0 = .never → acquire s = .hung s)

/-- R73: a SendNibble whose writes succeed makes the enable-high write, its wait, the enable-low write and its wait; one
whose first write fails ends after one write attempt, one whose second fails after two, and no wait follows. -/
def Obligations.SendNibbleStrobesOnce : Prop :=
  ∀ (s : State) (n mode : Byte),
    let b := (n &&& 0xF0) ||| mode ||| (if s.bl then s.cfg.blMask else 0x00)
    (s.AnswersOk 2 → sendNibble n mode s =
      .done (s.played [.write (b ||| s.cfg.enMask), .delay .enPw, .write b, .delay .settle])) ∧
    (s.FailsAt 0 → ∃ x, (x = s.exp ∨ x = b ||| s.cfg.enMask) ∧ sendNibble n mode s =
      .raised (.ioError (b ||| s.cfg.enMask)) ((s.answered.emit (.writeFailed (b ||| s.cfg.enMask))).latch x)) ∧
    (s.FailsAt 1 → ∃ x, (x = b ||| s.cfg.enMask ∨ x = b) ∧ sendNibble n mode s =
      .raised (.ioError b)
        (((s.played [.write (b ||| s.cfg.enMask), .delay .enPw]).answered.emit (.writeFailed b)).latch x))

/-- R74, R79 item 1, R36: a successful Transmit writes `hi|EN`, `hi`, `lo|EN` and `lo` in that order, with four waits. -/
def Obligations.TransmitWritesHighNibbleFirst : Prop :=
  ∀ (s : State) (v mode : Byte), s.AnswersOk 4 →
    let bb := if s.bl then s.cfg.blMask else 0x00
    let hi := (v &&& 0xF0) ||| mode ||| bb
    let lo := ((v <<< 4) &&& 0xF0) ||| mode ||| bb
    transmit v mode s = .done (s.played
      [.write (hi ||| s.cfg.enMask), .delay .enPw, .write hi, .delay .settle,
       .write (lo ||| s.cfg.enMask), .delay .enPw, .write lo, .delay .settle])

/-- R80, R36, R58 (derived): with valid masks and every write answered OK, the controller latches two nibbles of what a
`Command(v)` or a `Data(v)` appends to the trace, the high one and then the low one, with the register select of its mode. -/
def Obligations.TransmitLatchesTheTwoNibbles : Prop :=
  ∀ (s : State) (v : Byte), s.cfg.valid = true → s.AnswersOk 4 →
    (∃ t evs, command v s = .done t ∧ t.trace = s.trace ++ evs ∧
      latched s.cfg evs = [(false, v.extractLsb' 4 4), (false, v.extractLsb' 0 4)]) ∧
    (∃ t evs, data v s = .done t ∧ t.trace = s.trace ++ evs ∧
      latched s.cfg evs = [(true, v.extractLsb' 4 4), (true, v.extractLsb' 0 4)])

/-- R64, R65, R66: the bytes of the three mode commands, for every configuration with a row and every value the registers
can hold. -/
def Obligations.ModeCommandBytes : Prop :=
  (∀ c : Configuration, 1 ≤ c.rows → functionSetByte (funcValue c) = 0x20 ∨ functionSetByte (funcValue c) = 0x24 ∨
    functionSetByte (funcValue c) = 0x28) ∧
  (∀ d : Byte, d &&& 0xF8 = 0 → (displayControlByte d).toNat = 0x08 + d.toNat ∧ (displayControlByte d).toNat ≤ 0x0F) ∧
  (∀ e : Byte, e &&& 0xFC = 0 → (entryModeByte e).toNat = 0x04 + e.toNat ∧ (entryModeByte e).toNat ≤ 0x07) ∧
  displayControlByte 0x04 = 0x0C ∧ entryModeByte 0x02 = 0x06

/-! ## START -/

/-- R82: the success path of START. -/
def Obligations.StartInitialisesTheController : Prop :=
  ∀ s : State, s.Serves .unstarted → s.AnswersOk 30 →
    exec .start s = .next
      (({ s with conn := true, func := funcValue s.cfg, dctrl := 0x04, emode := 0x02, phase := .ready }.played
        (startEvents s.cfg s.bl)).respond { status := .ok, count := 0, code := 0, errs := [] })

/-- R83: the value of FUNC and the FunctionSet byte, for every configuration with at least one row. -/
def Obligations.FunctionSetFollowsTheGeometry : Prop :=
  ∀ c : Configuration,
    (1 < c.rows → funcValue c = 0x08 ∧ functionSetByte (funcValue c) = 0x28) ∧
    (c.rows = 1 → c.dotSize = .dots5x10 → funcValue c = 0x04 ∧ functionSetByte (funcValue c) = 0x24) ∧
    (c.rows = 1 → c.dotSize = .dots5x8 → funcValue c = 0x00 ∧ functionSetByte (funcValue c) = 0x20)

/-- R84, R80: of what a successful START appends to the trace, the controller latches 0x3 three times, then 0x2, then the
two nibbles of FunctionSet; nothing is interleaved, and the remaining commands follow in R82's order. -/
def Obligations.StartHandshakeOrder : Prop :=
  ∀ s : State, s.Serves .unstarted → s.cfg.valid = true → s.AnswersOk 30 →
    ∃ evs, Appends .start s evs ∧ latched s.cfg evs =
      [(false, 0x3), (false, 0x3), (false, 0x3), (false, 0x2),
       (false, 0x2), (false, (funcValue s.cfg).extractLsb' 0 4),
       (false, 0x0), (false, 0xC), (false, 0x0), (false, 0x1), (false, 0x0), (false, 0x6), (false, 0x0), (false, 0x2)]

/-- R116: a failed acquisition. START emits `ACQ!` and nothing else, sets FAILED, responds with the ConnectionError, and
CONN is not written. The instance is dead for good: every request after it is refused. -/
def Obligations.StartAcquisitionFailure : Prop :=
  ∀ s : State, s.Serves .unstarted → s.FailsAt 0 →
    let t := ((s.answered.emit (.acquireFailed s.cfg.i2cAddr s.cfg.busIndex)).setPhase .failed).respond
      { status := .err, count := 0, code := 0, errs := [.connectionError s.cfg.i2cAddr s.cfg.busIndex] }
    exec .start s = .next t ∧ ∀ i : Instr, exec i t = .refused (.notAdmitted i.opcode .failed)

/-- R85, R117: START's write number `k` (from 0) fails. Every event before it has happened and none after, every register
assignment made before it stays, FAILED is set, and the response carries the failed byte. -/
def Obligations.StartWriteFailure : Prop :=
  ∀ (s : State) (k : Nat) (v : Byte), s.Serves .unstarted → s.FailsAt (k + 1) →
    callAt (k + 1) (startEvents s.cfg s.bl) = some (.write v) →
    exec .start s = .next
      (({ s with
          conn := true
          func := if 9 ≤ k then funcValue s.cfg else s.func
          dctrl := if 13 ≤ k then 0x04 else s.dctrl
          emode := if 21 ≤ k then 0x02 else s.emode
          phase := .failed }.playedToFailedWrite (startEvents s.cfg s.bl) (k + 1) v).respond
        { status := .err, count := 0, code := 0, errs := [.ioError v] })

/-- R118, R81, R19: the byte-sink never answers START's call number `k` (the acquisition is number 0). The block stays in
the init state that makes the call, with the events before it on the trace and no response. -/
def Obligations.StartHangsInItsInitState : Prop :=
  ∀ (s : State) (k : Nat), s.Serves .unstarted → s.HangsAt k → k < 30 →
    ∃ t, exec .start s = .next t ∧
      t.seq = .running 0x01 (if k = 0 then 1 else if k = 1 then 3 else if k < 10 then 5 + (k - 2) / 2 else 9 + (k - 10) / 4) ∧
      t.trace = s.trace ++ beforeCall k (startEvents s.cfg s.bl) ∧ t.responses = s.responses ∧ t.phase = .unstarted

/-! ## STOP -/

/-- R86: the success path of STOP. -/
def Obligations.StopQuiescesTheDisplay : Prop :=
  ∀ s : State, s.Serves .ready → s.AnswersOk (callCount (stopEvents s.cfg s.bl s.dctrl)) →
    exec .stop s = .next
      (({ s with bl := false, dctrl := (s.dctrl &&& ~~~0x02) &&& ~~~0x04 }.played
        (stopEvents s.cfg s.bl s.dctrl)).respond { status := .ok, count := 0, code := 0, errs := [] })

/-- R88: the state after STOP, whatever errors occurred, and what is admitted then. The premise on `DCTRL` is R21's, which
`EveryStepKeepsTheInvariant` keeps. A STOP that the byte-sink leaves unanswered (R118) has not ended. -/
def Obligations.StopLeavesTheQuiescedRegisters : Prop :=
  ∀ s t : State, s.dctrl &&& 0xF8 = 0 → exec .stop s = .next t → t.seq = .idle →
    t.phase = .ready ∧ t.bl = false ∧ t.dctrl = s.dctrl &&& 0x01 ∧ t.func = s.func ∧ t.emode = s.emode ∧
    t.conn = s.conn ∧ (∀ i : Instr, i ≠ .start → ∃ u, exec i t = .next u) ∧
    exec .start t = .refused (.notAdmitted 0x01 .ready)

/-- R87, R121: each of STOP's four steps ends in success or at one of its calls, whatever the others did. All four are
attempted, a failed step ends at its failed call, and the one response carries the errors in step order. -/
def Obligations.StopAggregatesTheErrorsOfItsSteps : Prop :=
  ∀ (s : State) (e1 e2 e3 e4 : StepEnd), s.Serves .ready →
    let es1 := clearEvents s.cfg s.bl
    let es2 := backlightEvents s.cfg false
    let es3 := cmdEvents s.cfg false (0x08 ||| (s.dctrl &&& ~~~0x02))
    let es4 := cmdEvents s.cfg false (0x08 ||| ((s.dctrl &&& ~~~0x02) &&& ~~~0x04))
    e1.possible es1 → e2.possible es2 → e3.possible es3 → e4.possible es4 →
    s.AnswersWith (e1.answers es1 ++ e2.answers es2 ++ e3.answers es3 ++ e4.answers es4) →
    ∃ t, exec .stop s = .next t ∧ t.seq = .idle ∧
      t.trace = s.trace ++ e1.events es1 ++ e2.events es2 ++ e3.events es3 ++ e4.events es4 ∧
      t.responses = s.responses ++
        [if e1.errors es1 ++ e2.errors es2 ++ e3.errors es3 ++ e4.errors es4 = [] then
           { status := .ok, count := 0, code := 0, errs := [] }
         else
           { status := .err, count := 0, code := 0,
             errs := e1.errors es1 ++ e2.errors es2 ++ e3.errors es3 ++ e4.errors es4 }]

/-! ## Display control -/

/-- R92, R93: CLEAR and HOME. -/
def Obligations.ClearAndHomeSendTheirCommandAndWait : Prop :=
  ∀ s : State, s.Serves .ready → s.AnswersOk 4 →
    exec .clear s = .next ((s.played (cmdEvents s.cfg s.bl 0x01 ++ [.delay .clearHome])).respond
      { status := .ok, count := 0, code := 0, errs := [] }) ∧
    exec .home s = .next ((s.played (cmdEvents s.cfg s.bl 0x02 ++ [.delay .clearHome])).respond
      { status := .ok, count := 0, code := 0, errs := [] })

/-- R94, R95, R98 to R101, R91: the six requests on the bits of DCTRL. -/
def Obligations.DisplayControlRequestsSetAndClearTheirBit : Prop :=
  ∀ s : State, s.Serves .ready → s.AnswersOk 4 →
    let after := fun (d : Byte) => ((s.setDctrl d).played (cmdEvents s.cfg s.bl (0x08 ||| d))).respond
      { status := .ok, count := 0, code := 0, errs := [] }
    exec .displayOn s = .next (after (s.dctrl ||| 0x04)) ∧ exec .displayOff s = .next (after (s.dctrl &&& ~~~0x04)) ∧
    exec .underlineOn s = .next (after (s.dctrl ||| 0x02)) ∧
    exec .underlineOff s = .next (after (s.dctrl &&& ~~~0x02)) ∧
    exec .blinkOn s = .next (after (s.dctrl ||| 0x01)) ∧ exec .blinkOff s = .next (after (s.dctrl &&& ~~~0x01))

/-- R104 to R107, R91: the four requests on the bits of EMODE. -/
def Obligations.EntryModeRequestsSetAndClearTheirBit : Prop :=
  ∀ s : State, s.Serves .ready → s.AnswersOk 4 →
    let after := fun (e : Byte) => ((s.setEmode e).played (cmdEvents s.cfg s.bl (0x04 ||| e))).respond
      { status := .ok, count := 0, code := 0, errs := [] }
    exec .leftToRight s = .next (after (s.emode ||| 0x02)) ∧
    exec .rightToLeft s = .next (after (s.emode &&& ~~~0x02)) ∧
    exec .autoscrollOn s = .next (after (s.emode ||| 0x01)) ∧
    exec .autoscrollOff s = .next (after (s.emode &&& ~~~0x01))

/-- R96, R97, R8: the backlight requests. With BL_WRITES they make exactly one write, without it none. -/
def Obligations.BacklightRequestsWriteTheBacklightByte : Prop :=
  ∀ s : State, s.Serves .ready → (s.cfg.blWrites = true → s.AnswersOk 1) →
    exec .backlightOn s = .next (((s.setBl true).played
      (if s.cfg.blWrites then [.write s.cfg.blMask] else [])).respond
        { status := .ok, count := 0, code := 0, errs := [] }) ∧
    exec .backlightOff s = .next (((s.setBl false).played
      (if s.cfg.blWrites then [.write 0x00] else [])).respond { status := .ok, count := 0, code := 0, errs := [] })

/-- R102, R103: the shift requests change no register. -/
def Obligations.ShiftRequestsSendTheirCommand : Prop :=
  ∀ s : State, s.Serves .ready → s.AnswersOk 4 →
    exec .shiftLeft s = .next ((s.played (cmdEvents s.cfg s.bl 0x18)).respond
      { status := .ok, count := 0, code := 0, errs := [] }) ∧
    exec .shiftRight s = .next ((s.played (cmdEvents s.cfg s.bl 0x1C)).respond
      { status := .ok, count := 0, code := 0, errs := [] })

/-- R89, R90, R117: write number `k` of a request that issues one command fails. The register keeps its new value, the
failed write is the last event, and the response carries the failed byte. -/
def Obligations.SingleCommandFailure : Prop :=
  ∀ (i : Instr) (s r : State) (b v : Byte) (j k : Nat), s.Serves .ready → singleCommand i s = some (r, b, j) →
    s.FailsAt k → callAt k (cmdEvents s.cfg s.bl b) = some (.write v) →
    exec i s = .next ((r.playedToFailedWrite (cmdEvents s.cfg s.bl b) k v).respond
      { status := .err, count := 0, code := 0, errs := [.ioError v] })

/-- R96, R97, R90: the one write of a backlight request fails; BL keeps its new value. -/
def Obligations.BacklightWriteFailure : Prop :=
  ∀ s : State, s.Serves .ready → s.cfg.blWrites = true → s.FailsAt 0 →
    (∃ x, (x = s.exp ∨ x = s.cfg.blMask) ∧
      exec .backlightOn s = .next ((((s.setBl true).answered.emit (.writeFailed s.cfg.blMask)).latch x).respond
        { status := .err, count := 0, code := 0, errs := [.ioError s.cfg.blMask] })) ∧
    (∃ x, (x = s.exp ∨ x = 0x00) ∧
      exec .backlightOff s = .next ((((s.setBl false).answered.emit (.writeFailed 0x00)).latch x).respond
        { status := .err, count := 0, code := 0, errs := [.ioError 0x00] }))

/-- R118, R19: the byte-sink never answers write number `k` of a request that issues one command. The block is stuck at
that command: the register is written, the events before the call are on the trace, there is no response, and the
following step, with nothing on the port, faults. -/
def Obligations.SingleCommandHang : Prop :=
  ∀ (i : Instr) (s r : State) (b : Byte) (j k : Nat), s.Serves .ready → singleCommand i s = some (r, b, j) →
    s.HangsAt k → k < 4 →
    exec i s = .next ((r.played (beforeCall k (cmdEvents s.cfg s.bl b))).pointAt i.opcode j) ∧
    (s.port = [] → step ((r.played (beforeCall k (cmdEvents s.cfg s.bl b))).pointAt i.opcode j) =
      .fault (.hung i.opcode j))

/-- R108: for each pair of an on and an off request on bit `m` of a register, both successful: the bit ends clear, every
other bit ends as it was, and the register is restored when the bit was clear before. BL is a register of one bit. -/
def Obligations.ToggleRoundTrip : Prop :=
  (∀ (s : State) (on off : Instr) (read : State → Byte) (m : Byte), s.Serves .ready → s.AnswersOk 8 →
    ((on = .displayOn ∧ off = .displayOff ∧ read = State.dctrl ∧ m = 0x04) ∨
     (on = .underlineOn ∧ off = .underlineOff ∧ read = State.dctrl ∧ m = 0x02) ∨
     (on = .blinkOn ∧ off = .blinkOff ∧ read = State.dctrl ∧ m = 0x01) ∨
     (on = .leftToRight ∧ off = .rightToLeft ∧ read = State.emode ∧ m = 0x02) ∨
     (on = .autoscrollOn ∧ off = .autoscrollOff ∧ read = State.emode ∧ m = 0x01)) →
    ∃ t u, exec on s = .next t ∧ exec off t = .next u ∧ u.responses = s.responses ++
        [{ status := .ok, count := 0, code := 0, errs := [] }, { status := .ok, count := 0, code := 0, errs := [] }] ∧
      read u &&& m = 0 ∧ read u &&& ~~~m = read s &&& ~~~m ∧ (read s &&& m = 0 → read u = read s)) ∧
  (∀ s : State, s.Serves .ready → s.AnswersOk 2 →
    ∃ t u, exec .backlightOn s = .next t ∧ exec .backlightOff t = .next u ∧ u.responses = s.responses ++
        [{ status := .ok, count := 0, code := 0, errs := [] }, { status := .ok, count := 0, code := 0, errs := [] }] ∧
      u.bl = false ∧ (s.bl = false → u.bl = s.bl))

/-! ## Cursor, glyphs and output -/

/-- R111: SET_CURSOR sends SetDDRAMAddress of the clamped cell and changes no register. -/
def Obligations.SetCursorSendsTheClampedAddress : Prop :=
  ∀ (s : State) (col row : Int), s.Serves .ready → s.AnswersOk 4 →
    exec (.setCursor col row) s = .next ((s.played (cmdEvents s.cfg s.bl
      (0x80 ||| BitVec.ofNat 8 (cursorAddress s.cfg col row)))).respond
        { status := .ok, count := 0, code := 0, errs := [] })

/-- R110, R67, R43: the arithmetic of SET_CURSOR in a valid configuration. The clamped row and column are in range, the
address is the row base plus the column, it fits seven bits, and the command byte is 0x80 + addr exactly. -/
def Obligations.CursorAddressIsClampedAndFits : Prop :=
  ∀ (c : Configuration) (col row : Int), c.valid = true →
    ∃ x y : Nat, x < c.cols ∧ y < c.rows ∧
      (col < 0 → x = 0) ∧ ((c.cols : Int) ≤ col → x = c.cols - 1) ∧ (0 ≤ col → col < c.cols → (x : Int) = col) ∧
      (row < 0 → y = 0) ∧ ((c.rows : Int) ≤ row → y = c.rows - 1) ∧ (0 ≤ row → row < c.rows → (y : Int) = row) ∧
      cursorAddress c col row = [0x00, 0x40, 0x14, 0x54].getD y 0 + x ∧ cursorAddress c col row ≤ 0x7F ∧
      (setDdramByte (cursorAddress c col row)).toNat = 0x80 + cursorAddress c col row

/-- R112, R37: REGISTER_CHAR sends SetCGRAMAddress and the eight bitmap bytes as given, in index order, changes no
register, and returns the slot as the code point. -/
def Obligations.RegisterCharProgramsTheSlot : Prop :=
  ∀ (s : State) (slot : Int) (bm : Bitmap), s.Serves .ready → s.AnswersOk 36 →
    exec (.registerChar slot bm) s = .next ((s.played
      (cmdEvents s.cfg s.bl (setCgramByte (slotOf slot)) ++
        [bm.b0, bm.b1, bm.b2, bm.b3, bm.b4, bm.b5, bm.b6, bm.b7].flatMap (datEvents s.cfg s.bl))).respond
      { status := .ok, count := 0, code := slotOf slot, errs := [] })

/-- R112, D30: a failed write of REGISTER_CHAR. The error response carries no code point. -/
def Obligations.RegisterCharFailure : Prop :=
  ∀ (s : State) (slot : Int) (bm : Bitmap) (k : Nat) (v : Byte), s.Serves .ready → s.FailsAt k →
    callAt k (registerCharEvents s.cfg s.bl slot bm) = some (.write v) →
    exec (.registerChar slot bm) s = .next ((s.playedToFailedWrite (registerCharEvents s.cfg s.bl slot bm) k v).respond
      { status := .err, count := 0, code := 0, errs := [.ioError v] })

/-- R52, R68: the slot is the operand modulo 8, for negative operands too, and the CGRAM byte is 0x40 + 8 · slot. -/
def Obligations.GlyphSlotWrapsModuloEight : Prop :=
  ∀ slot : Int, ((slotOf slot).toNat : Int) = slot % 8 ∧
    (setCgramByte (slotOf slot)).toNat = 0x40 + 8 * (slotOf slot).toNat

/-- R113, R38: WRITE sends every byte as data, in order, changes no register, and returns the count. The empty list emits
nothing and returns 0. -/
def Obligations.WriteSendsEveryByte : Prop :=
  ∀ (s : State) (bytes : List Byte), s.Serves .ready → s.AnswersOk (4 * bytes.length) →
    exec (.write bytes) s = .next ((s.played (bytes.flatMap (datEvents s.cfg s.bl))).respond
      { status := .ok, count := bytes.length, code := 0, errs := [] })

/-- R114: WRITE's write number `k` (from 0) fails, so the failing byte is number N = k/4 + 1. The count is N − 1, the
bytes before it have been sent whole, and nothing follows the failed write. No other request's response carries a count. -/
def Obligations.WriteReportsThePartialCount : Prop :=
  (∀ (s : State) (bytes : List Byte) (k : Nat) (v : Byte), s.Serves .ready → s.FailsAt k →
    callAt k (bytes.flatMap (datEvents s.cfg s.bl)) = some (.write v) →
    exec (.write bytes) s = .next ((s.playedToFailedWrite (bytes.flatMap (datEvents s.cfg s.bl)) k v).respond
      { status := .err, count := k / 4, code := 0, errs := [.ioError v] })) ∧
  (∀ (i : Instr) (s t : State) (r : Response), (∀ bytes, i ≠ .write bytes) → exec i s = .next t →
    t.responses = s.responses ++ [r] → r.count = 0)

/-! ## Frames and whole-machine rules -/

/-- The frame of every request other than START, for every next state: success, error or hang. The configuration, the
phase, FUNC, CONN and the port are unchanged; DCTRL, EMODE and BL are unchanged except in the requests that write them
(R24 to R28, R89). -/
def Obligations.ReadyRequestFrame : Prop :=
  ∀ (i : Instr) (s t : State), i ≠ .start → exec i s = .next t →
    t.cfg = s.cfg ∧ t.phase = s.phase ∧ t.func = s.func ∧ t.conn = s.conn ∧ t.port = s.port ∧
    (writesDctrl i = false → t.dctrl = s.dctrl) ∧ (writesEmode i = false → t.emode = s.emode) ∧
    (writesBl i = false → t.bl = s.bl)

/-- The frame of START, for every next state: the configuration, BL and the port are unchanged, and the registers START
writes hold what they held or what R82 gives them (R24 to R28, R82). -/
def Obligations.StartFrame : Prop :=
  ∀ s t : State, exec .start s = .next t →
    t.cfg = s.cfg ∧ t.bl = s.bl ∧ t.port = s.port ∧ (t.func = s.func ∨ t.func = funcValue s.cfg) ∧
    (t.dctrl = s.dctrl ∨ t.dctrl = 0x04) ∧ (t.emode = s.emode ∨ t.emode = 0x02) ∧ (t.conn = s.conn ∨ t.conn = true) ∧
    (t.seq = .idle → t.phase = .ready ∨ t.phase = .failed)

/-- R90, R91: the register is written before the command, so in every next state, also after an error or in a hang, a
request that sets or clears a bit has changed that bit of its register and no other. -/
def Obligations.RegisterIsWrittenBeforeTheCommand : Prop :=
  ∀ s t : State,
    (exec .displayOn s = .next t → t.dctrl = s.dctrl ||| 0x04) ∧
    (exec .displayOff s = .next t → t.dctrl = s.dctrl &&& ~~~0x04) ∧
    (exec .underlineOn s = .next t → t.dctrl = s.dctrl ||| 0x02) ∧
    (exec .underlineOff s = .next t → t.dctrl = s.dctrl &&& ~~~0x02) ∧
    (exec .blinkOn s = .next t → t.dctrl = s.dctrl ||| 0x01) ∧
    (exec .blinkOff s = .next t → t.dctrl = s.dctrl &&& ~~~0x01) ∧
    (exec .leftToRight s = .next t → t.emode = s.emode ||| 0x02) ∧
    (exec .rightToLeft s = .next t → t.emode = s.emode &&& ~~~0x02) ∧
    (exec .autoscrollOn s = .next t → t.emode = s.emode ||| 0x01) ∧
    (exec .autoscrollOff s = .next t → t.emode = s.emode &&& ~~~0x01) ∧
    (exec .backlightOn s = .next t → t.bl = true) ∧ (exec .backlightOff s = .next t → t.bl = false)

/-- R49 item 3, R118, R70: an admitted request either delivers exactly one response and returns `seq` to IDLE, or is stuck
with none at one of its statements that call the byte-sink (R19; their indices are DEDUCED, log entry 8); `errs` is empty
exactly when the status is OK. -/
def Obligations.OneResponsePerAdmittedRequest : Prop :=
  ∀ (i : Instr) (s t : State), exec i s = .next t →
    (t.seq = .idle ∧ ∃ r, t.responses = s.responses ++ [r] ∧ (r.status = .ok ↔ r.errs = [])) ∨
    ((∃ k ∈ callStatements i, t.seq = .running i.opcode k) ∧ t.responses = s.responses)

/-- R70, R87, R112: the fields of a response. `errs` is empty exactly when the status is OK and has at most four entries,
more than one only for STOP; only a successful REGISTER_CHAR gives a code point. -/
def Obligations.ResponseFieldsPerRequest : Prop :=
  ∀ (i : Instr) (s t : State) (r : Response), exec i s = .next t → t.responses = s.responses ++ [r] →
    (r.status = .ok ↔ r.errs = []) ∧ (i ≠ .stop → r.errs.length ≤ 1) ∧ r.errs.length ≤ 4 ∧
    ((∀ slot bm, i ≠ .registerChar slot bm) → r.code = 0) ∧ (r.status = .err → r.code = 0)

/-- R122, R121, R117, R116: errors are precise. An error response of a request other than STOP has one error, and the
failed primitive it names is the last event of the trace. -/
def Obligations.ErrorIsTheLastEvent : Prop :=
  ∀ (i : Instr) (s t : State) (r : Response), i ≠ .stop → exec i s = .next t → t.responses = s.responses ++ [r] →
    r.status = .err →
    ∃ before, (∃ v, r.errs = [.ioError v] ∧ t.trace = before ++ [.writeFailed v]) ∨
      (i = .start ∧ r.errs = [.connectionError s.cfg.i2cAddr s.cfg.busIndex] ∧
        t.trace = before ++ [.acquireFailed s.cfg.i2cAddr s.cfg.busIndex])

/-- R41, R42, R45: nothing the block has emitted or answered is taken back, and the configuration never changes. -/
def Obligations.StepsOnlyAppend : Prop :=
  ∀ s t : State, step s = .next t → s.trace <+: t.trace ∧ s.responses <+: t.responses ∧ t.cfg = s.cfg

/-- R79 item 2, R109, R144: every byte a request writes carries BL_MASK exactly when BL is 1 at that moment. Only STOP
has bytes of two kinds: those of its clear step, which are what CLEAR appends from the same state (R86), and those after its
backlight-off step. -/
def Obligations.BacklightBitIsInEveryWrite : Prop :=
  ∀ (i : Instr) (s t : State), s.cfg.valid = true → exec i s = .next t →
    ∃ first later, t.trace = s.trace ++ first ++ later ∧ (i ≠ .stop → first = []) ∧
      (i = .stop → ∃ u, exec .clear s = .next u ∧ u.trace = s.trace ++ first) ∧
      (∀ v ∈ writtenBytes first, v &&& s.cfg.blMask = if s.bl then s.cfg.blMask else 0) ∧
      (∀ v ∈ writtenBytes later, v &&& s.cfg.blMask = if t.bl then s.cfg.blMask else 0)

/-- R147, R119, R123, R89: requests other than START presented in READY, in any number and order and with any operands, to a
block whose byte-sink answers, OK or FAIL, as many calls as the requests can make: every one is admitted and returns one
response, whatever errors the earlier ones met, and the run ends normally, in READY. That the run takes one step for each
request is the model's choice (log entry 10). -/
def Obligations.RunsOfReadyRequestsEndNormally : Prop :=
  ∀ s : State, s.Serves .ready → s.Answered (portCalls s.port) →
    (∀ r ∈ s.port, ∃ i, decode r = .ok i ∧ i ≠ .start) →
    ∃ t, EndsNormally s.port.length s t ∧ t.phase = .ready ∧
      t.responses.length = s.responses.length + s.port.length

/-- R145 (informative), R72: what each request appends to the trace on its success path: the counts of writes and waits and
the lower bound on the duration. START's calls are its 29 writes and one acquisition. -/
def Obligations.CountsAndDurationsPerRequest : Prop :=
  (∀ s : State, s.Serves .unstarted → s.AnswersOk 30 →
    let t := s.cfg.timing
    Costs .start s 29 35 (t.powerOn + t.prime + t.sync1 + t.sync2 + t.sync3 + 14 * (t.enPw + t.settle) +
      2 * t.clearHome) ∧
    ∃ evs, Appends .start s evs ∧ callCount evs = 30) ∧
  (∀ s : State, s.Serves .ready →
    let t := s.cfg.timing
    (s.AnswersOk (if s.cfg.blWrites then 13 else 12) →
      Costs .stop s (if s.cfg.blWrites then 13 else 12) 13 (6 * (t.enPw + t.settle) + t.clearHome)) ∧
    (s.AnswersOk 4 →
      (∀ i ∈ [Instr.clear, .home], Costs i s 4 5 (2 * (t.enPw + t.settle) + t.clearHome)) ∧
      (∀ i ∈ [Instr.displayOn, .displayOff, .underlineOn, .underlineOff, .blinkOn, .blinkOff, .shiftLeft, .shiftRight,
          .leftToRight, .rightToLeft, .autoscrollOn, .autoscrollOff], Costs i s 4 4 (2 * (t.enPw + t.settle))) ∧
      (∀ col row, Costs (.setCursor col row) s 4 4 (2 * (t.enPw + t.settle)))) ∧
    (s.AnswersOk (if s.cfg.blWrites then 1 else 0) →
      ∀ i ∈ [Instr.backlightOn, .backlightOff], Costs i s (if s.cfg.blWrites then 1 else 0) 0 0) ∧
    (s.AnswersOk 36 → ∀ slot bm, Costs (.registerChar slot bm) s 36 36 (18 * (t.enPw + t.settle))) ∧
    (∀ bytes : List Byte, s.AnswersOk (4 * bytes.length) →
      Costs (.write bytes) s (4 * bytes.length) (4 * bytes.length) (2 * bytes.length * (t.enPw + t.settle))))

/-! ## The invariant -/

/-- The invariant holds in the state after every construction, and in the state after reset. -/
def Obligations.ConstructionSatisfiesTheInvariant : Prop :=
  (∀ (c : Configuration) (s : State), State.construct c = some s → s.Inv) ∧ State.reset.Inv

/-- Every step keeps the invariant (R10, R18 to R28, R58, R79, R81, R134, R135). -/
def Obligations.EveryStepKeepsTheInvariant : Prop :=
  ∀ s t : State, s.Inv → step s = .next t → t.Inv
end

