-- ==== Sys2Proof/Laws/State.lean ====
section
/-! SUPPORT. For every named update of State and every field, what the field holds afterwards: true by rfl and used by
simp, so that no later proof unfolds a record update. -/

namespace Sys2Proof.Machine

variable (s : State)

/-! `State.emit`: one event appended (R14). -/

@[simp] theorem State.emit_cfg (e : Event) : (s.emit e).cfg = s.cfg := rfl
@[simp] theorem State.emit_phase (e : Event) : (s.emit e).phase = s.phase := rfl
@[simp] theorem State.emit_seq (e : Event) : (s.emit e).seq = s.seq := rfl
@[simp] theorem State.emit_func (e : Event) : (s.emit e).func = s.func := rfl
@[simp] theorem State.emit_dctrl (e : Event) : (s.emit e).dctrl = s.dctrl := rfl
@[simp] theorem State.emit_emode (e : Event) : (s.emit e).emode = s.emode := rfl
@[simp] theorem State.emit_bl (e : Event) : (s.emit e).bl = s.bl := rfl
@[simp] theorem State.emit_conn (e : Event) : (s.emit e).conn = s.conn := rfl
@[simp] theorem State.emit_exp (e : Event) : (s.emit e).exp = s.exp := rfl
@[simp] theorem State.emit_port (e : Event) : (s.emit e).port = s.port := rfl
@[simp] theorem State.emit_answers (e : Event) : (s.emit e).answers = s.answers := rfl
@[simp] theorem State.emit_calls (e : Event) : (s.emit e).calls = s.calls := rfl
@[simp] theorem State.emit_responses (e : Event) : (s.emit e).responses = s.responses := rfl
@[simp] theorem State.emit_trace (e : Event) : (s.emit e).trace = s.trace ++ [e] := rfl

/-! `State.latch`: the expander's lines driven (R30). -/

@[simp] theorem State.latch_cfg (v : Byte) : (s.latch v).cfg = s.cfg := rfl
@[simp] theorem State.latch_phase (v : Byte) : (s.latch v).phase = s.phase := rfl
@[simp] theorem State.latch_seq (v : Byte) : (s.latch v).seq = s.seq := rfl
@[simp] theorem State.latch_func (v : Byte) : (s.latch v).func = s.func := rfl
@[simp] theorem State.latch_dctrl (v : Byte) : (s.latch v).dctrl = s.dctrl := rfl
@[simp] theorem State.latch_emode (v : Byte) : (s.latch v).emode = s.emode := rfl
@[simp] theorem State.latch_bl (v : Byte) : (s.latch v).bl = s.bl := rfl
@[simp] theorem State.latch_conn (v : Byte) : (s.latch v).conn = s.conn := rfl
@[simp] theorem State.latch_exp (v : Byte) : (s.latch v).exp = v := rfl
@[simp] theorem State.latch_port (v : Byte) : (s.latch v).port = s.port := rfl
@[simp] theorem State.latch_answers (v : Byte) : (s.latch v).answers = s.answers := rfl
@[simp] theorem State.latch_calls (v : Byte) : (s.latch v).calls = s.calls := rfl
@[simp] theorem State.latch_responses (v : Byte) : (s.latch v).responses = s.responses := rfl
@[simp] theorem State.latch_trace (v : Byte) : (s.latch v).trace = s.trace := rfl

/-! `State.answered`: one byte-sink call answered. -/

@[simp] theorem State.answered_cfg : (s.answered).cfg = s.cfg := rfl
@[simp] theorem State.answered_phase : (s.answered).phase = s.phase := rfl
@[simp] theorem State.answered_seq : (s.answered).seq = s.seq := rfl
@[simp] theorem State.answered_func : (s.answered).func = s.func := rfl
@[simp] theorem State.answered_dctrl : (s.answered).dctrl = s.dctrl := rfl
@[simp] theorem State.answered_emode : (s.answered).emode = s.emode := rfl
@[simp] theorem State.answered_bl : (s.answered).bl = s.bl := rfl
@[simp] theorem State.answered_conn : (s.answered).conn = s.conn := rfl
@[simp] theorem State.answered_exp : (s.answered).exp = s.exp := rfl
@[simp] theorem State.answered_port : (s.answered).port = s.port := rfl
@[simp] theorem State.answered_answers : (s.answered).answers = s.answers.tail := rfl
@[simp] theorem State.answered_calls : (s.answered).calls = s.calls + 1 := rfl
@[simp] theorem State.answered_responses : (s.answered).responses = s.responses := rfl
@[simp] theorem State.answered_trace : (s.answered).trace = s.trace := rfl

/-! `State.pointAt`: seq pointed at a statement (R19). -/

@[simp] theorem State.pointAt_cfg (op : Byte) (k : Nat) : (s.pointAt op k).cfg = s.cfg := rfl
@[simp] theorem State.pointAt_phase (op : Byte) (k : Nat) : (s.pointAt op k).phase = s.phase := rfl
@[simp] theorem State.pointAt_seq (op : Byte) (k : Nat) : (s.pointAt op k).seq = .running op k := rfl
@[simp] theorem State.pointAt_func (op : Byte) (k : Nat) : (s.pointAt op k).func = s.func := rfl
@[simp] theorem State.pointAt_dctrl (op : Byte) (k : Nat) : (s.pointAt op k).dctrl = s.dctrl := rfl
@[simp] theorem State.pointAt_emode (op : Byte) (k : Nat) : (s.pointAt op k).emode = s.emode := rfl
@[simp] theorem State.pointAt_bl (op : Byte) (k : Nat) : (s.pointAt op k).bl = s.bl := rfl
@[simp] theorem State.pointAt_conn (op : Byte) (k : Nat) : (s.pointAt op k).conn = s.conn := rfl
@[simp] theorem State.pointAt_exp (op : Byte) (k : Nat) : (s.pointAt op k).exp = s.exp := rfl
@[simp] theorem State.pointAt_port (op : Byte) (k : Nat) : (s.pointAt op k).port = s.port := rfl
@[simp] theorem State.pointAt_answers (op : Byte) (k : Nat) : (s.pointAt op k).answers = s.answers := rfl
@[simp] theorem State.pointAt_calls (op : Byte) (k : Nat) : (s.pointAt op k).calls = s.calls := rfl
@[simp] theorem State.pointAt_responses (op : Byte) (k : Nat) : (s.pointAt op k).responses = s.responses := rfl
@[simp] theorem State.pointAt_trace (op : Byte) (k : Nat) : (s.pointAt op k).trace = s.trace := rfl

/-! `State.setPhase`: phase written (R18). -/

@[simp] theorem State.setPhase_cfg (p : Phase) : (s.setPhase p).cfg = s.cfg := rfl
@[simp] theorem State.setPhase_phase (p : Phase) : (s.setPhase p).phase = p := rfl
@[simp] theorem State.setPhase_seq (p : Phase) : (s.setPhase p).seq = s.seq := rfl
@[simp] theorem State.setPhase_func (p : Phase) : (s.setPhase p).func = s.func := rfl
@[simp] theorem State.setPhase_dctrl (p : Phase) : (s.setPhase p).dctrl = s.dctrl := rfl
@[simp] theorem State.setPhase_emode (p : Phase) : (s.setPhase p).emode = s.emode := rfl
@[simp] theorem State.setPhase_bl (p : Phase) : (s.setPhase p).bl = s.bl := rfl
@[simp] theorem State.setPhase_conn (p : Phase) : (s.setPhase p).conn = s.conn := rfl
@[simp] theorem State.setPhase_exp (p : Phase) : (s.setPhase p).exp = s.exp := rfl
@[simp] theorem State.setPhase_port (p : Phase) : (s.setPhase p).port = s.port := rfl
@[simp] theorem State.setPhase_answers (p : Phase) : (s.setPhase p).answers = s.answers := rfl
@[simp] theorem State.setPhase_calls (p : Phase) : (s.setPhase p).calls = s.calls := rfl
@[simp] theorem State.setPhase_responses (p : Phase) : (s.setPhase p).responses = s.responses := rfl
@[simp] theorem State.setPhase_trace (p : Phase) : (s.setPhase p).trace = s.trace := rfl

/-! `State.connect`: CONN set (R28). -/

@[simp] theorem State.connect_cfg : (s.connect).cfg = s.cfg := rfl
@[simp] theorem State.connect_phase : (s.connect).phase = s.phase := rfl
@[simp] theorem State.connect_seq : (s.connect).seq = s.seq := rfl
@[simp] theorem State.connect_func : (s.connect).func = s.func := rfl
@[simp] theorem State.connect_dctrl : (s.connect).dctrl = s.dctrl := rfl
@[simp] theorem State.connect_emode : (s.connect).emode = s.emode := rfl
@[simp] theorem State.connect_bl : (s.connect).bl = s.bl := rfl
@[simp] theorem State.connect_conn : (s.connect).conn = true := rfl
@[simp] theorem State.connect_exp : (s.connect).exp = s.exp := rfl
@[simp] theorem State.connect_port : (s.connect).port = s.port := rfl
@[simp] theorem State.connect_answers : (s.connect).answers = s.answers := rfl
@[simp] theorem State.connect_calls : (s.connect).calls = s.calls := rfl
@[simp] theorem State.connect_responses : (s.connect).responses = s.responses := rfl
@[simp] theorem State.connect_trace : (s.connect).trace = s.trace := rfl

/-! `State.setFunc`: FUNC written (R24). -/

@[simp] theorem State.setFunc_cfg (v : Byte) : (s.setFunc v).cfg = s.cfg := rfl
@[simp] theorem State.setFunc_phase (v : Byte) : (s.setFunc v).phase = s.phase := rfl
@[simp] theorem State.setFunc_seq (v : Byte) : (s.setFunc v).seq = s.seq := rfl
@[simp] theorem State.setFunc_func (v : Byte) : (s.setFunc v).func = v := rfl
@[simp] theorem State.setFunc_dctrl (v : Byte) : (s.setFunc v).dctrl = s.dctrl := rfl
@[simp] theorem State.setFunc_emode (v : Byte) : (s.setFunc v).emode = s.emode := rfl
@[simp] theorem State.setFunc_bl (v : Byte) : (s.setFunc v).bl = s.bl := rfl
@[simp] theorem State.setFunc_conn (v : Byte) : (s.setFunc v).conn = s.conn := rfl
@[simp] theorem State.setFunc_exp (v : Byte) : (s.setFunc v).exp = s.exp := rfl
@[simp] theorem State.setFunc_port (v : Byte) : (s.setFunc v).port = s.port := rfl
@[simp] theorem State.setFunc_answers (v : Byte) : (s.setFunc v).answers = s.answers := rfl
@[simp] theorem State.setFunc_calls (v : Byte) : (s.setFunc v).calls = s.calls := rfl
@[simp] theorem State.setFunc_responses (v : Byte) : (s.setFunc v).responses = s.responses := rfl
@[simp] theorem State.setFunc_trace (v : Byte) : (s.setFunc v).trace = s.trace := rfl

/-! `State.setDctrl`: DCTRL written (R25). -/

@[simp] theorem State.setDctrl_cfg (v : Byte) : (s.setDctrl v).cfg = s.cfg := rfl
@[simp] theorem State.setDctrl_phase (v : Byte) : (s.setDctrl v).phase = s.phase := rfl
@[simp] theorem State.setDctrl_seq (v : Byte) : (s.setDctrl v).seq = s.seq := rfl
@[simp] theorem State.setDctrl_func (v : Byte) : (s.setDctrl v).func = s.func := rfl
@[simp] theorem State.setDctrl_dctrl (v : Byte) : (s.setDctrl v).dctrl = v := rfl
@[simp] theorem State.setDctrl_emode (v : Byte) : (s.setDctrl v).emode = s.emode := rfl
@[simp] theorem State.setDctrl_bl (v : Byte) : (s.setDctrl v).bl = s.bl := rfl
@[simp] theorem State.setDctrl_conn (v : Byte) : (s.setDctrl v).conn = s.conn := rfl
@[simp] theorem State.setDctrl_exp (v : Byte) : (s.setDctrl v).exp = s.exp := rfl
@[simp] theorem State.setDctrl_port (v : Byte) : (s.setDctrl v).port = s.port := rfl
@[simp] theorem State.setDctrl_answers (v : Byte) : (s.setDctrl v).answers = s.answers := rfl
@[simp] theorem State.setDctrl_calls (v : Byte) : (s.setDctrl v).calls = s.calls := rfl
@[simp] theorem State.setDctrl_responses (v : Byte) : (s.setDctrl v).responses = s.responses := rfl
@[simp] theorem State.setDctrl_trace (v : Byte) : (s.setDctrl v).trace = s.trace := rfl

/-! `State.setEmode`: EMODE written (R26). -/

@[simp] theorem State.setEmode_cfg (v : Byte) : (s.setEmode v).cfg = s.cfg := rfl
@[simp] theorem State.setEmode_phase (v : Byte) : (s.setEmode v).phase = s.phase := rfl
@[simp] theorem State.setEmode_seq (v : Byte) : (s.setEmode v).seq = s.seq := rfl
@[simp] theorem State.setEmode_func (v : Byte) : (s.setEmode v).func = s.func := rfl
@[simp] theorem State.setEmode_dctrl (v : Byte) : (s.setEmode v).dctrl = s.dctrl := rfl
@[simp] theorem State.setEmode_emode (v : Byte) : (s.setEmode v).emode = v := rfl
@[simp] theorem State.setEmode_bl (v : Byte) : (s.setEmode v).bl = s.bl := rfl
@[simp] theorem State.setEmode_conn (v : Byte) : (s.setEmode v).conn = s.conn := rfl
@[simp] theorem State.setEmode_exp (v : Byte) : (s.setEmode v).exp = s.exp := rfl
@[simp] theorem State.setEmode_port (v : Byte) : (s.setEmode v).port = s.port := rfl
@[simp] theorem State.setEmode_answers (v : Byte) : (s.setEmode v).answers = s.answers := rfl
@[simp] theorem State.setEmode_calls (v : Byte) : (s.setEmode v).calls = s.calls := rfl
@[simp] theorem State.setEmode_responses (v : Byte) : (s.setEmode v).responses = s.responses := rfl
@[simp] theorem State.setEmode_trace (v : Byte) : (s.setEmode v).trace = s.trace := rfl

/-! `State.setBl`: BL written (R27). -/

@[simp] theorem State.setBl_cfg (b : Bool) : (s.setBl b).cfg = s.cfg := rfl
@[simp] theorem State.setBl_phase (b : Bool) : (s.setBl b).phase = s.phase := rfl
@[simp] theorem State.setBl_seq (b : Bool) : (s.setBl b).seq = s.seq := rfl
@[simp] theorem State.setBl_func (b : Bool) : (s.setBl b).func = s.func := rfl
@[simp] theorem State.setBl_dctrl (b : Bool) : (s.setBl b).dctrl = s.dctrl := rfl
@[simp] theorem State.setBl_emode (b : Bool) : (s.setBl b).emode = s.emode := rfl
@[simp] theorem State.setBl_bl (b : Bool) : (s.setBl b).bl = b := rfl
@[simp] theorem State.setBl_conn (b : Bool) : (s.setBl b).conn = s.conn := rfl
@[simp] theorem State.setBl_exp (b : Bool) : (s.setBl b).exp = s.exp := rfl
@[simp] theorem State.setBl_port (b : Bool) : (s.setBl b).port = s.port := rfl
@[simp] theorem State.setBl_answers (b : Bool) : (s.setBl b).answers = s.answers := rfl
@[simp] theorem State.setBl_calls (b : Bool) : (s.setBl b).calls = s.calls := rfl
@[simp] theorem State.setBl_responses (b : Bool) : (s.setBl b).responses = s.responses := rfl
@[simp] theorem State.setBl_trace (b : Bool) : (s.setBl b).trace = s.trace := rfl

/-! `State.respond`: a response delivered (R70). -/

@[simp] theorem State.respond_cfg (r : Response) : (s.respond r).cfg = s.cfg := rfl
@[simp] theorem State.respond_phase (r : Response) : (s.respond r).phase = s.phase := rfl
@[simp] theorem State.respond_seq (r : Response) : (s.respond r).seq = .idle := rfl
@[simp] theorem State.respond_func (r : Response) : (s.respond r).func = s.func := rfl
@[simp] theorem State.respond_dctrl (r : Response) : (s.respond r).dctrl = s.dctrl := rfl
@[simp] theorem State.respond_emode (r : Response) : (s.respond r).emode = s.emode := rfl
@[simp] theorem State.respond_bl (r : Response) : (s.respond r).bl = s.bl := rfl
@[simp] theorem State.respond_conn (r : Response) : (s.respond r).conn = s.conn := rfl
@[simp] theorem State.respond_exp (r : Response) : (s.respond r).exp = s.exp := rfl
@[simp] theorem State.respond_port (r : Response) : (s.respond r).port = s.port := rfl
@[simp] theorem State.respond_answers (r : Response) : (s.respond r).answers = s.answers := rfl
@[simp] theorem State.respond_calls (r : Response) : (s.respond r).calls = s.calls := rfl
@[simp] theorem State.respond_responses (r : Response) : (s.respond r).responses = s.responses ++ [r] := rfl
@[simp] theorem State.respond_trace (r : Response) : (s.respond r).trace = s.trace := rfl

/-! `State.takeException`: an exception taken (R122). -/

@[simp] theorem State.takeException_cfg (e : ErrorRecord) (n : Nat) : (s.takeException e n).cfg = s.cfg := rfl
@[simp] theorem State.takeException_phase (e : ErrorRecord) (n : Nat) : (s.takeException e n).phase = s.phase := rfl
@[simp] theorem State.takeException_seq (e : ErrorRecord) (n : Nat) : (s.takeException e n).seq = .idle := rfl
@[simp] theorem State.takeException_func (e : ErrorRecord) (n : Nat) : (s.takeException e n).func = s.func := rfl
@[simp] theorem State.takeException_dctrl (e : ErrorRecord) (n : Nat) : (s.takeException e n).dctrl = s.dctrl := rfl
@[simp] theorem State.takeException_emode (e : ErrorRecord) (n : Nat) : (s.takeException e n).emode = s.emode := rfl
@[simp] theorem State.takeException_bl (e : ErrorRecord) (n : Nat) : (s.takeException e n).bl = s.bl := rfl
@[simp] theorem State.takeException_conn (e : ErrorRecord) (n : Nat) : (s.takeException e n).conn = s.conn := rfl
@[simp] theorem State.takeException_exp (e : ErrorRecord) (n : Nat) : (s.takeException e n).exp = s.exp := rfl
@[simp] theorem State.takeException_port (e : ErrorRecord) (n : Nat) : (s.takeException e n).port = s.port := rfl
@[simp] theorem State.takeException_answers (e : ErrorRecord) (n : Nat) : (s.takeException e n).answers = s.answers := rfl
@[simp] theorem State.takeException_calls (e : ErrorRecord) (n : Nat) : (s.takeException e n).calls = s.calls := rfl
@[simp] theorem State.takeException_responses (e : ErrorRecord) (n : Nat) : (s.takeException e n).responses = s.responses ++ [errResponse [e] n] := rfl
@[simp] theorem State.takeException_trace (e : ErrorRecord) (n : Nat) : (s.takeException e n).trace = s.trace := rfl

/-! `State.played`: an event list played. -/

@[simp] theorem State.played_cfg (es : List Event) : (s.played es).cfg = s.cfg := rfl
@[simp] theorem State.played_phase (es : List Event) : (s.played es).phase = s.phase := rfl
@[simp] theorem State.played_seq (es : List Event) : (s.played es).seq = s.seq := rfl
@[simp] theorem State.played_func (es : List Event) : (s.played es).func = s.func := rfl
@[simp] theorem State.played_dctrl (es : List Event) : (s.played es).dctrl = s.dctrl := rfl
@[simp] theorem State.played_emode (es : List Event) : (s.played es).emode = s.emode := rfl
@[simp] theorem State.played_bl (es : List Event) : (s.played es).bl = s.bl := rfl
@[simp] theorem State.played_conn (es : List Event) : (s.played es).conn = s.conn := rfl
@[simp] theorem State.played_exp (es : List Event) : (s.played es).exp = lastWrite s.exp es := rfl
@[simp] theorem State.played_port (es : List Event) : (s.played es).port = s.port := rfl
@[simp] theorem State.played_answers (es : List Event) : (s.played es).answers = s.answers.drop (callCount es) := rfl
@[simp] theorem State.played_calls (es : List Event) : (s.played es).calls = s.calls + callCount es := rfl
@[simp] theorem State.played_responses (es : List Event) : (s.played es).responses = s.responses := rfl
@[simp] theorem State.played_trace (es : List Event) : (s.played es).trace = s.trace ++ es := rfl

end Sys2Proof.Machine
end

