-- ==== Sys2Proof/Laws/Sink.lean ====
section
/-! SUPPORT. The byte-sink's answers (rules R71, R78): how they move along the trace, and that no register update touches
them. -/

namespace Sys2Proof.Machine

variable (s : State)

/-- After one answered call the next answers are one place nearer. -/
@[simp] theorem State.answerAt_answered (i : Nat) : s.answered.answerAt i = s.answerAt (i + 1) := by
  simp [State.answerAt, Nat.add_assoc, Nat.add_comm 1 i]

@[simp] theorem State.answerAt_emit (e : Event) (i : Nat) : (s.emit e).answerAt i = s.answerAt i := rfl
@[simp] theorem State.answerAt_latch (v : Byte) (i : Nat) : (s.latch v).answerAt i = s.answerAt i := rfl
@[simp] theorem State.answerAt_pointAt (op : Byte) (k i : Nat) : (s.pointAt op k).answerAt i = s.answerAt i := rfl
@[simp] theorem State.answerAt_setPhase (p : Phase) (i : Nat) : (s.setPhase p).answerAt i = s.answerAt i := rfl
@[simp] theorem State.answerAt_connect (i : Nat) : s.connect.answerAt i = s.answerAt i := rfl
@[simp] theorem State.answerAt_setFunc (v : Byte) (i : Nat) : (s.setFunc v).answerAt i = s.answerAt i := rfl
@[simp] theorem State.answerAt_setDctrl (v : Byte) (i : Nat) : (s.setDctrl v).answerAt i = s.answerAt i := rfl
@[simp] theorem State.answerAt_setEmode (v : Byte) (i : Nat) : (s.setEmode v).answerAt i = s.answerAt i := rfl
@[simp] theorem State.answerAt_setBl (b : Bool) (i : Nat) : (s.setBl b).answerAt i = s.answerAt i := rfl
@[simp] theorem State.answerAt_respond (r : Response) (i : Nat) : (s.respond r).answerAt i = s.answerAt i := rfl

/-- After a played event list the next answers are as many places nearer as it makes calls. -/
@[simp] theorem State.answerAt_played (es : List Event) (i : Nat) :
    (s.played es).answerAt i = s.answerAt (callCount es + i) := by
  simp [State.answerAt, Nat.add_assoc]

/-- A shorter run of OK answers is contained in a longer one. -/
theorem State.AnswersOk.mono {s : State} {m n : Nat} (h : s.AnswersOk n) (hmn : m ≤ n) : s.AnswersOk m :=
  fun i hi => h i (Nat.lt_of_lt_of_le hi hmn)

/-- The first of at least one OK answer. -/
theorem State.AnswersOk.head {s : State} {n : Nat} (h : s.AnswersOk (n + 1)) : s.answerAt 0 = .ok := h 0 (by omega)

/-- What is left of a run of OK answers once its first call is answered. -/
theorem State.AnswersOk.tail {s : State} {n : Nat} (h : s.AnswersOk (n + 1)) : s.answered.AnswersOk n :=
  fun i hi => by simpa using h (i + 1) (by omega)

end Sys2Proof.Machine
end

