-- ==== Sys2Proof/Laws/Play.lean ====
section
/-! SUPPORT. The transport primitives as event lists. `play es` performs the waits and writes of `es` in order; every
primitive of rules R71 to R77 is one such list, and what a list leaves is said once for each way the byte-sink answers. -/

namespace Sys2Proof.Machine

/-- Perform the waits and writes of an event list in order. -/
def play : List Event → Action
  | [] => fun s => .done s
  | .delay d :: es => both (wait d) (play es)
  | .write v :: es => both (expWrite v) (play es)
  | .writeFailed _ :: es => play es
  | .acquired _ _ :: es => play es
  | .acquireFailed _ _ :: es => play es

/-- An event list of waits and successful writes only. -/
def plain : List Event → Bool
  | [] => true
  | .delay _ :: es => plain es
  | .write _ :: es => plain es
  | .writeFailed _ :: _ => false
  | .acquired _ _ :: _ => false
  | .acquireFailed _ _ :: _ => false

/-! ## Sequencing -/

@[simp] theorem andThen_done (s : State) (k : Action) : (Res.done s).andThen k = k s := rfl
@[simp] theorem andThen_raised (e : ErrorRecord) (s : State) (k : Action) : (Res.raised e s).andThen k = .raised e s := rfl
@[simp] theorem andThen_hung (s : State) (k : Action) : (Res.hung s).andThen k = .hung s := rfl

theorem andThen_assoc (r : Res) (a b : Action) : (r.andThen a).andThen b = r.andThen (both a b) := by
  cases r <;> rfl

theorem both_assoc (a b c : Action) : both (both a b) c = both a (both b c) := by
  funext s; exact andThen_assoc (a s) b c

/-- One more statement: `seq` points at it, then the rest follows. -/
theorem runFrom_cons (op : Byte) (k : Nat) (a : Action) (rest : List Action) (s : State) :
    runFrom op k (a :: rest) s = (a (s.pointAt op k)).andThen (runFrom op (k + 1) rest) := rfl

@[simp] theorem runFrom_nil (op : Byte) (k : Nat) (s : State) : runFrom op k [] s = .done s := rfl

theorem play_append (a b : List Event) : play (a ++ b) = both (play a) (play b) := by
  induction a with
  | nil => rfl
  | cons e a ih =>
    cases e <;> simp only [List.cons_append, play, ih, both_assoc]

theorem plain_append (a b : List Event) : plain (a ++ b) = (plain a && plain b) := by
  induction a with
  | nil => simp [plain]
  | cons e a ih => cases e <;> simp [plain, ih]

theorem callCount_append (a b : List Event) : callCount (a ++ b) = callCount a + callCount b := by
  induction a with
  | nil => simp [callCount]
  | cons e a ih => cases e <;> simp [callCount, ih] <;> omega

theorem lastWrite_append (v : Byte) (a b : List Event) : lastWrite v (a ++ b) = lastWrite (lastWrite v a) b := by
  induction a generalizing v with
  | nil => rfl
  | cons e a ih => cases e <;> simp [lastWrite, ih]

@[simp] theorem played_nil (s : State) : s.played [] = s := by
  cases s; simp [State.played, callCount, lastWrite]

theorem played_append (s : State) (a b : List Event) : s.played (a ++ b) = (s.played a).played b := by
  simp [State.played, callCount_append, lastWrite_append, Nat.add_assoc]

/-! ## The primitives are event lists -/

theorem sendNibble_eq_play (n mode : Byte) (s : State) :
    sendNibble n mode s = play (nibbleEvents s.cfg s.bl n mode) s := by
  simp only [sendNibble, nibbleEvents, play, both]
  congr 1

/-! ## The three ways an event list ends -/

/-- Every call answered OK: every event happens. -/
theorem play_of_answersOk {es : List Event} {s : State} (hp : plain es = true) (h : s.AnswersOk (callCount es)) :
    play es s = .done (s.played es) := by
  induction es generalizing s with
  | nil => simp [play]
  | cons e es ih =>
    cases e with
    | delay d =>
      have : (s.emit (.delay d)).AnswersOk (callCount es) := fun i hi => by
        simpa using h i (by simpa [callCount] using hi)
      simp only [play, both, wait, andThen_done]
      rw [ih (by simpa [plain] using hp) this]
      simp [State.played, State.emit, callCount, lastWrite]
    | write v =>
      have hc : callCount (.write v :: es) = callCount es + 1 := by simp [callCount]
      rw [hc] at h
      have : ((s.answered.emit (.write v)).latch v).AnswersOk (callCount es) := fun i hi => by
        simpa using h (i + 1) (by omega)
      simp only [play, both, expWrite, h.head, andThen_done]
      rw [ih (by simpa [plain] using hp) this]
      simp [State.played, State.emit, State.latch, State.answered, lastWrite, callCount,
        Nat.add_assoc, Nat.add_comm 1]
    | writeFailed v => simp [plain] at hp
    | acquired a b => simp [plain] at hp
    | acquireFailed a b => simp [plain] at hp

/-- Call number `k` fails: the list up to it happens, and the failed write is the last event (R71, R122). -/
theorem play_of_failsAt {es : List Event} {s : State} {k : Nat} {v : Byte} (hp : plain es = true)
    (hv : callAt k es = some (.write v)) (h : s.FailsAt k) :
    play es s = .raised (.ioError v) (s.playedToFailedWrite es k v) := by
  induction es generalizing s k with
  | nil => simp [callAt] at hv
  | cons e es ih =>
    cases e with
    | delay d =>
      have : (s.emit (.delay d)).FailsAt k := ⟨fun i hi => by simpa using h.1 i hi, by simpa using h.2⟩
      simp only [play, both, wait, andThen_done]
      rw [ih (by simpa [plain] using hp) (by cases k <;> simpa [callAt] using hv) this]
      cases k <;> simp [State.playedToFailedWrite, beforeCall, State.played, State.emit, State.latch,
        State.answered, State.latchAfterFailure, callCount, lastWrite]
    | write w =>
      cases k with
      | zero =>
        simp only [callAt, Option.some.injEq, Event.write.injEq] at hv
        subst hv
        simp [play, both, expWrite, h.2, State.playedToFailedWrite, beforeCall]
      | succ k =>
        have : ((s.answered.emit (.write w)).latch w).FailsAt k :=
          ⟨fun i hi => by simpa using h.1 (i + 1) (by omega), by simpa using h.2⟩
        simp only [play, both, expWrite, h.1.head, andThen_done]
        rw [ih (by simpa [plain] using hp) (by simpa [callAt] using hv) this]
        simp [State.playedToFailedWrite, beforeCall, State.played, State.emit, State.latch, State.answered,
          State.latchAfterFailure, lastWrite, callCount, Nat.add_assoc, Nat.add_comm 1]
    | writeFailed v => simp [plain] at hp
    | acquired a b => simp [plain] at hp
    | acquireFailed a b => simp [plain] at hp

/-- Call number `k` is never answered: the list up to it happens and the block is stuck in it (R118). -/
theorem play_of_hangsAt {es : List Event} {s : State} {k : Nat} (hp : plain es = true) (hk : k < callCount es)
    (h : s.HangsAt k) : play es s = .hung (s.played (beforeCall k es)) := by
  induction es generalizing s k with
  | nil => simp [callCount] at hk
  | cons e es ih =>
    cases e with
    | delay d =>
      have : (s.emit (.delay d)).HangsAt k := ⟨fun i hi => by simpa using h.1 i hi, by simpa using h.2⟩
      simp only [play, both, wait, andThen_done]
      rw [ih (by simpa [plain] using hp) (by simpa [callCount] using hk) this]
      cases k <;> simp [beforeCall, State.played, State.emit, callCount, lastWrite]
    | write w =>
      cases k with
      | zero => simp [play, both, expWrite, h.2, beforeCall]
      | succ k =>
        have : ((s.answered.emit (.write w)).latch w).HangsAt k :=
          ⟨fun i hi => by simpa using h.1 (i + 1) (by omega), by simpa using h.2⟩
        simp only [play, both, expWrite, h.1.head, andThen_done]
        rw [ih (by simpa [plain] using hp) (by simp [callCount] at hk ⊢; omega) this]
        simp [beforeCall, State.played, State.emit, State.latch, State.answered, lastWrite, callCount,
          Nat.add_assoc, Nat.add_comm 1]
    | writeFailed v => simp [plain] at hp
    | acquired a b => simp [plain] at hp
    | acquireFailed a b => simp [plain] at hp

/-- The byte-sink answers some first part of `n` calls OK and then fails or hangs, or it answers them all OK. -/
theorem State.answers_cases (s : State) (n : Nat) :
    s.AnswersOk n ∨ ∃ k, k < n ∧ (s.FailsAt k ∨ s.HangsAt k) := by
  induction n with
  | zero => exact .inl fun i hi => absurd hi (by omega)
  | succ n ih =>
    obtain h | ⟨k, hk, h⟩ := ih
    · cases ha : s.answerAt n with
      | ok =>
        refine .inl fun i hi => ?_
        rcases Nat.lt_succ_iff_lt_or_eq.mp hi with hi | rfl
        · exact h i hi
        · exact ha
      | fail => exact .inr ⟨n, by omega, .inl ⟨h, ha⟩⟩
      | never => exact .inr ⟨n, by omega, .inr ⟨h, ha⟩⟩
    · exact .inr ⟨k, by omega, h⟩

/-- Every call of a plain list is a write. -/
theorem exists_callAt {es : List Event} (hp : plain es = true) {k : Nat} (hk : k < callCount es) :
    ∃ v, callAt k es = some (.write v) := by
  induction es generalizing k with
  | nil => simp [callCount] at hk
  | cons e es ih =>
    cases e with
    | delay d =>
      obtain ⟨v, hv⟩ := ih (by simpa [plain] using hp) (by simpa [callCount] using hk)
      exact ⟨v, by cases k <;> simpa [callAt] using hv⟩
    | write w =>
      cases k with
      | zero => exact ⟨w, rfl⟩
      | succ k =>
        obtain ⟨v, hv⟩ := ih (k := k) (by simpa [plain] using hp) (by simp [callCount] at hk ⊢; omega)
        exact ⟨v, by simpa [callAt] using hv⟩
    | writeFailed v => simp [plain] at hp
    | acquired a b => simp [plain] at hp
    | acquireFailed a b => simp [plain] at hp

/-- Everything a plain event list can do. -/
theorem play_cases {es : List Event} (hp : plain es = true) (s : State) :
    play es s = .done (s.played es) ∨
    (∃ k v, callAt k es = some (.write v) ∧ play es s = .raised (.ioError v) (s.playedToFailedWrite es k v)) ∨
    (∃ k, k < callCount es ∧ play es s = .hung (s.played (beforeCall k es))) := by
  obtain h | ⟨k, hk, h | h⟩ := s.answers_cases (callCount es)
  · exact .inl (play_of_answersOk hp h)
  · obtain ⟨v, hv⟩ := exists_callAt hp hk
    exact .inr (.inl ⟨k, v, hv, play_of_failsAt hp hv h⟩)
  · exact .inr (.inr ⟨k, hk, play_of_hangsAt hp hk h⟩)

/-! ## Transmit, Command, Data and BlOnly are event lists -/

theorem both_play_of_frame (es fs : List Event) (b : Action) (s : State) (hp : plain es = true)
    (hb : ∀ t : State, t.cfg = s.cfg → t.bl = s.bl → b t = play fs t) : both (play es) b s = play (es ++ fs) s := by
  rw [play_append]
  obtain h | ⟨k, v, -, h⟩ | ⟨k, -, h⟩ := play_cases hp s
  · simp only [both, h, andThen_done]
    exact hb _ rfl rfl
  · simp [both, h]
  · simp [both, h]

@[simp] theorem plain_nibbleEvents (c : Configuration) (bl : Bool) (n mode : Byte) :
    plain (nibbleEvents c bl n mode) = true := rfl

@[simp] theorem plain_transmitEvents (c : Configuration) (bl : Bool) (v mode : Byte) :
    plain (transmitEvents c bl v mode) = true := rfl

@[simp] theorem callCount_transmitEvents (c : Configuration) (bl : Bool) (v mode : Byte) :
    callCount (transmitEvents c bl v mode) = 4 := rfl

@[simp] theorem callCount_cmdEvents (c : Configuration) (bl : Bool) (v : Byte) : callCount (cmdEvents c bl v) = 4 := rfl

@[simp] theorem callCount_datEvents (c : Configuration) (bl : Bool) (v : Byte) : callCount (datEvents c bl v) = 4 := rfl

theorem transmit_eq_play (v mode : Byte) (s : State) :
    transmit v mode s = play (transmitEvents s.cfg s.bl v mode) s := by
  have h : transmit v mode s = both (play (nibbleEvents s.cfg s.bl (hiNibble v) mode)) (sendNibble (loNibble v) mode) s := by
    simp only [transmit, both, sendNibble_eq_play (hiNibble v)]
  rw [h]
  exact both_play_of_frame _ _ _ _ rfl fun t hc hb => by rw [sendNibble_eq_play, hc, hb]; rfl

theorem command_eq_play (v : Byte) (s : State) : command v s = play (cmdEvents s.cfg s.bl v) s :=
  transmit_eq_play v commandMode s

theorem data_eq_play (v : Byte) (s : State) : data v s = play (datEvents s.cfg s.bl v) s :=
  transmit_eq_play v (dataMode s.cfg) s

theorem blOnly_eq_play (s : State) : blOnly s = play [.write (blBit s.cfg s.bl)] s := by
  simp only [blOnly, play, both]
  cases h : expWrite (blBit s.cfg s.bl) s <;> rfl

theorem blOnlyIfWrites_eq_play (s : State) : blOnlyIfWrites s = play (backlightEvents s.cfg s.bl) s := by
  by_cases h : s.cfg.blWrites = true
  · simp [blOnlyIfWrites, backlightEvents, h, blOnly_eq_play]
  · simp [blOnlyIfWrites, backlightEvents, h, play]

/-! ## The requests' building blocks when every call is answered OK -/

@[simp] theorem plain_backlightEvents (c : Configuration) (bl : Bool) : plain (backlightEvents c bl) = true := by
  simp only [backlightEvents]; split <;> rfl

theorem command_of_answersOk {c : Configuration} {bl : Bool} {t : State} (v : Byte) (hc : t.cfg = c) (hb : t.bl = bl)
    (h : t.AnswersOk 4) : command v t = .done (t.played (cmdEvents c bl v)) := by
  subst hc hb; rw [command_eq_play]; exact play_of_answersOk rfl h

theorem data_of_answersOk {c : Configuration} {bl : Bool} {t : State} (v : Byte) (hc : t.cfg = c) (hb : t.bl = bl)
    (h : t.AnswersOk 4) : data v t = .done (t.played (datEvents c bl v)) := by
  subst hc hb; rw [data_eq_play]; exact play_of_answersOk rfl h

theorem blOnlyIfWrites_of_answersOk {c : Configuration} {bl : Bool} {t : State} (hc : t.cfg = c) (hb : t.bl = bl)
    (h : t.AnswersOk (callCount (backlightEvents c bl))) : blOnlyIfWrites t = .done (t.played (backlightEvents c bl)) := by
  subst hc hb; rw [blOnlyIfWrites_eq_play]; exact play_of_answersOk (plain_backlightEvents _ _) h

end Sys2Proof.Machine
end

