-- ==== Sys2Proof/Laws/Run.lean ====
section
/-! SUPPORT. What a statement, a body and a request can do, said once: what holds after each of the three endings
(`Res.Sat`, `Holds`), and the bytes a request writes (`Wrote`). -/

namespace Sys2Proof.Machine

/-! ## Calls of an appended event list -/

theorem callAt_append_left {a b : List Event} {k : Nat} (h : k < callCount a) : callAt k (a ++ b) = callAt k a := by
  induction a generalizing k with
  | nil => simp [callCount] at h
  | cons e a ih =>
    cases e <;> cases k <;> simp [callAt, callCount] at h ⊢ <;> exact ih (by omega)

theorem callAt_append_right (a b : List Event) (k : Nat) : callAt (callCount a + k) (a ++ b) = callAt k b := by
  induction a with
  | nil => simp [callCount]
  | cons e a ih =>
    cases e <;> simp [callCount, callAt, Nat.add_right_comm, ih]

theorem beforeCall_append_left {a b : List Event} {k : Nat} (h : k < callCount a) :
    beforeCall k (a ++ b) = beforeCall k a := by
  induction a generalizing k with
  | nil => simp [callCount] at h
  | cons e a ih =>
    cases e <;> cases k <;> simp [beforeCall, callCount] at h ⊢ <;> exact ih (by omega)

theorem beforeCall_append_right (a b : List Event) (k : Nat) :
    beforeCall (callCount a + k) (a ++ b) = a ++ beforeCall k b := by
  induction a with
  | nil => simp [callCount]
  | cons e a ih =>
    cases e <;> simp [callCount, beforeCall, Nat.add_right_comm, ih]

/-- A call exists only below the number of calls. -/
theorem callAt_lt {es : List Event} {k : Nat} {e : Event} (h : callAt k es = some e) : k < callCount es := by
  induction es generalizing k with
  | nil => simp [callAt] at h
  | cons x es ih =>
    cases x <;> cases k <;> simp [callAt, callCount] at h ⊢ <;> exact ih h

/-! ## What an action does in each of its three endings -/

/-- A result whose state has `I` if it completes, `E e` if it raises `e`, and `H` if it hangs. -/
def Res.Sat (I : State → Prop) (E : ErrorRecord → State → Prop) (H : State → Prop) : Res → Prop
  | .done s => I s
  | .raised e s => E e s
  | .hung s => H s

/-- From any state with `I` the action completes with `I`, raises `e` with `E e`, or hangs with `H`. -/
def Holds (I : State → Prop) (E : ErrorRecord → State → Prop) (H : State → Prop) (a : Action) : Prop :=
  ∀ s, I s → (a s).Sat I E H

variable {P I H : State → Prop} {E : ErrorRecord → State → Prop}

theorem Holds.both {a b : Action} (ha : Holds I E H a) (hb : Holds I E H b) : Holds I E H (both a b) := by
  intro s hs
  have h := ha s hs
  simp only [Machine.both]
  cases hr : a s with
  | done t => rw [hr] at h; exact hb t h
  | raised e t => rw [hr] at h; exact h
  | hung t => rw [hr] at h; exact h

/-- Less may be said of a raise. -/
theorem Holds.weaken {E' : ErrorRecord → State → Prop} {a : Action} (ha : Holds I E H a) (h : ∀ e t, E e t → E' e t) :
    Holds I E' H a := by
  intro s hs
  have := ha s hs
  cases hr : a s with
  | done t => rw [hr] at this; exact this
  | raised e t => rw [hr] at this; exact h e t this
  | hung t => rw [hr] at this; exact this

theorem Holds.localAssign : Holds I E H localAssign := fun _ hs => hs

/-- The action does not move `seq`, however it ends. -/
abbrev SeqFixed (a : Action) : Prop := ∀ q, Holds (fun t => t.seq = q) (fun _ t => t.seq = q) (fun t => t.seq = q) a

/-- Statements in sequence: what each does, and a hang leaves `seq` at one of them. -/
theorem runFrom_sat {op : Byte} {body : List Action} (hp : ∀ s k, I s → I (s.pointAt op k))
    (hb : ∀ a ∈ body, Holds I E H a) (hq : ∀ a ∈ body, SeqFixed a) (k : Nat) {s : State} (hs : I s) :
    (runFrom op k body s).Sat I E fun t => H t ∧ ∃ j, k ≤ j ∧ j < k + body.length ∧ t.seq = .running op j := by
  induction body generalizing k s with
  | nil => exact hs
  | cons a rest ih =>
    have h := hb a (by simp) _ (hp s k hs)
    have hf := hq a (by simp) (.running op k) (s.pointAt op k) rfl
    rw [runFrom_cons]
    cases hr : a (s.pointAt op k) with
    | done t =>
      rw [hr] at h
      have := ih (fun x hx => hb x (by simp [hx])) (fun x hx => hq x (by simp [hx])) (k + 1) h
      simp only [andThen_done]
      cases hr' : runFrom op (k + 1) rest t with
      | done u => rw [hr'] at this; exact this
      | raised e u => rw [hr'] at this; exact this
      | hung u =>
        rw [hr'] at this
        obtain ⟨h1, j, h2, h3, h4⟩ := this
        exact ⟨h1, j, by omega, by simp; omega, h4⟩
    | raised e t => rw [hr] at h; exact h
    | hung t => rw [hr] at h hf; exact ⟨h, k, Nat.le_refl k, by simp, hf⟩

/-- The loop of WRITE, in the same terms. -/
theorem sendBytes_sat {op : Byte} (hp : ∀ s k, I s → I (s.pointAt op k)) (hd : ∀ v, Holds I E H (data v))
    (hq : ∀ v, SeqFixed (data v)) (bytes : List Byte) (k n : Nat) {s : State} (hs : I s) :
    (sendBytes op k n bytes s).2.Sat I E fun t => H t ∧ ∃ j, t.seq = .running op j := by
  induction bytes generalizing k n s with
  | nil => exact hs
  | cons d rest ih =>
    have h := hd d _ (hp s k hs)
    have hf := hq d (.running op k) (s.pointAt op k) rfl
    simp only [sendBytes]
    cases hr : data d (s.pointAt op k) with
    | done t => rw [hr] at h; exact ih _ _ h
    | raised e t => rw [hr] at h; exact h
    | hung t => rw [hr] at h hf; exact ⟨h, k, hf⟩

/-- The steps of STOP, in the same terms: a step that raises leaves a state in which the next step begins. -/
theorem runStop_sat {steps : List (Nat × List Action)} (hp : ∀ s k, I s → I (s.pointAt (Instr.opcode .stop) k))
    (hb : ∀ p ∈ steps, ∀ a ∈ p.2, Holds I E H a) (hq : ∀ p ∈ steps, ∀ a ∈ p.2, SeqFixed a)
    (hrec : ∀ e t, E e t → I t) (errs : List ErrorRecord) {s : State} (hs : I s) :
    (runStop errs steps s).2.Sat I (fun _ _ => False) fun t => H t ∧ ∃ j, t.seq = .running (Instr.opcode .stop) j := by
  induction steps generalizing errs s with
  | nil => exact hs
  | cons p rest ih =>
    obtain ⟨k, body⟩ := p
    have h := runFrom_sat hp (hb (k, body) (by simp)) (hq (k, body) (by simp)) k hs
    have ih' := fun errs s => ih (s := s) (fun q hq => hb q (by simp [hq])) (fun p hp => hq p (by simp [hp])) errs
    simp only [runStop]
    cases hr : runFrom (Instr.opcode .stop) k body s with
    | done t => rw [hr] at h; exact ih' _ _ h
    | raised e t => rw [hr] at h; exact ih' _ _ (hrec e t h)
    | hung t =>
      rw [hr] at h
      obtain ⟨h1, j, -, -, h2⟩ := h
      exact ⟨h1, j, h2⟩

/-! ## Properties that the updates of the primitives keep -/

/-- A property that the updates of the transport primitives keep. -/
structure Stable (P : State → Prop) : Prop where
  emit : ∀ s e, P s → P (s.emit e)
  latch : ∀ s v, P s → P (s.latch v)
  answered : ∀ s, P s → P s.answered

/-- The failed primitive that an error record names is the last event of the trace (R122). -/
def Named (e : ErrorRecord) (t : State) : Prop :=
  ∃ before, (∃ v, e = .ioError v ∧ t.trace = before ++ [.writeFailed v]) ∨
    (e = .connectionError t.cfg.i2cAddr t.cfg.busIndex ∧
      t.trace = before ++ [.acquireFailed t.cfg.i2cAddr t.cfg.busIndex])

/-- What a raise by a write leaves: the property, and the failed write as the last event. -/
def IoRaised (P : State → Prop) (e : ErrorRecord) (t : State) : Prop :=
  P t ∧ ∃ before v, e = .ioError v ∧ t.trace = before ++ [.writeFailed v]

theorem Stable.expWrite (h : Stable P) (v : Byte) : Holds P (IoRaised P) P (expWrite v) := by
  intro s hs
  simp only [Machine.expWrite]
  cases s.answerAt 0
  · exact h.latch _ _ (h.emit _ _ (h.answered _ hs))
  · exact ⟨h.latch _ _ (h.emit _ _ (h.answered _ hs)), s.trace, v, rfl, rfl⟩
  · exact hs

theorem Stable.wait (h : Stable P) (d : Delay) : Holds P (IoRaised P) P (wait d) := fun s hs => h.emit s _ hs

theorem Stable.play (h : Stable P) (es : List Event) : Holds P (IoRaised P) P (play es) := by
  induction es with
  | nil => exact fun s hs => hs
  | cons e es ih =>
    cases e with
    | delay d => exact (h.wait d).both ih
    | write v => exact (h.expWrite v).both ih
    | writeFailed v => exact ih
    | acquired a b => exact ih
    | acquireFailed a b => exact ih

theorem Stable.sendNibble (h : Stable P) (n mode : Byte) : Holds P (IoRaised P) P (sendNibble n mode) := fun s hs => by
  rw [sendNibble_eq_play]; exact h.play _ s hs

theorem Stable.command (h : Stable P) (v : Byte) : Holds P (IoRaised P) P (command v) := fun s hs => by
  rw [command_eq_play]; exact h.play _ s hs

theorem Stable.data (h : Stable P) (v : Byte) : Holds P (IoRaised P) P (data v) := fun s hs => by
  rw [data_eq_play]; exact h.play _ s hs

theorem Stable.blOnly (h : Stable P) : Holds P (IoRaised P) P blOnly := fun s hs => by
  rw [blOnly_eq_play]; exact h.play _ s hs

/-- `seq` is moved by no primitive. -/
theorem stable_seq (q : Seq) : Stable fun t => t.seq = q := ⟨fun _ _ h => h, fun _ _ h => h, fun _ h => h⟩

/-! ## Admission -/

/-- Everything admission can do (R119). -/
theorem serve_cases (gate : Phase) (op : Byte) (run : State → State) (s : State) :
    (s.seq = .idle ∧ s.phase = gate ∧ serve gate op run s = .next (run s)) ∨
    (s.seq = .idle ∧ s.phase ≠ gate ∧ serve gate op run s = .refused (.notAdmitted op s.phase)) ∨
    ((∃ o k, s.seq = .running o k) ∧ serve gate op run s = .refused (.requestInProgress op)) := by
  cases hs : s.seq with
  | running o k => exact .inr (.inr ⟨⟨o, k, rfl⟩, by simp [serve, hs]⟩)
  | idle =>
    by_cases hp : s.phase = gate
    · exact .inl ⟨rfl, hp, by simp [serve, hs, hp]⟩
    · exact .inr (.inl ⟨rfl, hp, by simp [serve, hs, hp]⟩)

/-- An admitted request runs. -/
theorem serve_of_admitted {gate : Phase} {op : Byte} {run : State → State} {s : State} (h1 : s.seq = .idle)
    (h2 : s.phase = gate) : serve gate op run s = .next (run s) := by simp [serve, h1, h2]

/-- A next state comes only from an admitted request. -/
theorem serve_next {gate : Phase} {op : Byte} {run : State → State} {s t : State} (h : serve gate op run s = .next t) :
    s.seq = .idle ∧ s.phase = gate ∧ t = run s := by
  obtain ⟨h1, h2, h3⟩ | ⟨-, -, h3⟩ | ⟨-, h3⟩ := serve_cases gate op run s <;> rw [h3] at h
  · exact ⟨h1, h2, by injection h with h; exact h.symm⟩
  · cases h
  · cases h

/-! ## How a request ends -/

/-- The end of a request, by how its body ended. -/
theorem finish_cases (ok : Response) (r : Res) :
    (∃ s, r = .done s ∧ finish ok r = s.respond ok) ∨ (∃ e s, r = .raised e s ∧ finish ok r = s.takeException e) ∨
    (∃ s, r = .hung s ∧ finish ok r = s) := by
  cases r with
  | done s => exact .inl ⟨s, rfl, rfl⟩
  | raised e s => exact .inr (.inl ⟨e, s, rfl, rfl⟩)
  | hung s => exact .inr (.inr ⟨s, rfl, rfl⟩)

/-! ## What a request writes -/

/-- The trace of `t` is that of `s` and then events whose written bytes all satisfy `ok`. -/
def Wrote (ok : Byte → Prop) (s t : State) : Prop :=
  ∃ evs, t.trace = s.trace ++ evs ∧ ∀ v ∈ writtenBytes evs, ok v

theorem writtenBytes_append (a b : List Event) : writtenBytes (a ++ b) = writtenBytes a ++ writtenBytes b := by
  induction a with
  | nil => rfl
  | cons e a ih => cases e <;> simp [writtenBytes, ih]

theorem Wrote.refl (ok : Byte → Prop) (s : State) : Wrote ok s s := ⟨[], by simp, by simp [writtenBytes]⟩

theorem Wrote.trans {ok : Byte → Prop} {s t u : State} (h1 : Wrote ok s t) (h2 : Wrote ok t u) : Wrote ok s u := by
  obtain ⟨a, ha, hva⟩ := h1
  obtain ⟨b, hb, hvb⟩ := h2
  refine ⟨a ++ b, by rw [hb, ha, List.append_assoc], fun v hv => ?_⟩
  rw [writtenBytes_append, List.mem_append] at hv
  exact hv.elim (hva v) (hvb v)

/-- An event list writes only its own bytes, however the byte-sink answers. -/
theorem play_wrote {ok : Byte → Prop} {es : List Event} (h : ∀ v ∈ writtenBytes es, ok v) (s : State) :
    Wrote ok s (play es s).state := by
  induction es generalizing s with
  | nil => exact Wrote.refl ok s
  | cons e es ih =>
    cases e with
    | delay d => exact Wrote.trans ⟨[.delay d], rfl, by simp [writtenBytes]⟩ (ih (by simpa [writtenBytes] using h) _)
    | write v =>
      have hv : ok v := h v (by simp [writtenBytes])
      have hes : ∀ w ∈ writtenBytes es, ok w := fun w hw => h w (by simp [writtenBytes, hw])
      simp only [play, both, expWrite]
      cases s.answerAt 0
      · exact Wrote.trans ⟨[.write v], rfl, by simpa [writtenBytes] using hv⟩ (ih hes _)
      · exact ⟨[.writeFailed v], rfl, by simpa [writtenBytes] using hv⟩
      · exact Wrote.refl ok s
    | writeFailed v => exact ih (fun w hw => h w (by simp [writtenBytes, hw])) s
    | acquired a b => exact ih (by simpa [writtenBytes] using h) s
    | acquireFailed a b => exact ih (by simpa [writtenBytes] using h) s

end Sys2Proof.Machine
end

