-- ==== Sys2Proof/Laws/Exec.lean ====
section
/-! SUPPORT. Every request is admission around a run: `exec i s` is `serve` of the phase R119 admits it in and of what its
pseudocode does once admitted. Proofs about `exec` start from `exec_eq_serve` and never unfold the dispatch again. -/

namespace Sys2Proof.Machine

/-- The body of a request that ends as R89 says (all but START, STOP and WRITE), and its success response. -/
def bodyOf : Instr → List Action × Response
  | .clear => (clearBody, okResponse)
  | .home => (homeBody, okResponse)
  | .displayOn => (displayOnBody, okResponse)
  | .displayOff => (displayOffBody, okResponse)
  | .backlightOn => (backlightOnBody, okResponse)
  | .backlightOff => (backlightOffBody, okResponse)
  | .underlineOn => (underlineOnBody, okResponse)
  | .underlineOff => (underlineOffBody, okResponse)
  | .blinkOn => (blinkOnBody, okResponse)
  | .blinkOff => (blinkOffBody, okResponse)
  | .shiftLeft => (shiftLeftBody, okResponse)
  | .shiftRight => (shiftRightBody, okResponse)
  | .leftToRight => (leftToRightBody, okResponse)
  | .rightToLeft => (rightToLeftBody, okResponse)
  | .autoscrollOn => (autoscrollOnBody, okResponse)
  | .autoscrollOff => (autoscrollOffBody, okResponse)
  | .setCursor col row => (setCursorBody col row, okResponse)
  | .registerChar slot bm => (registerCharBody slot bm, { status := .ok, code := slotOf slot })
  | .start | .stop | .write _ => ([], okResponse)

/-- What an admitted request does. -/
def runOf (i : Instr) (s : State) : State :=
  match i with
  | .start => finishStart (runFrom (Instr.opcode .start) 1 (initSequence.map InitState.action) s)
  | .stop => finishStop (runStop [] stopSteps s)
  | .write bytes => finishWrite (sendBytes (Instr.opcode (.write bytes)) 1 0 bytes s)
  | .clear | .home | .displayOn | .displayOff | .backlightOn | .backlightOff | .underlineOn | .underlineOff
  | .blinkOn | .blinkOff | .shiftLeft | .shiftRight | .leftToRight | .rightToLeft | .autoscrollOn | .autoscrollOff
  | .setCursor _ _ | .registerChar _ _ => finish (bodyOf i).2 (runFrom i.opcode 0 (bodyOf i).1 s)

/-- A request is admission around its run. -/
theorem exec_eq_serve (i : Instr) (s : State) : exec i s = serve (gateOf i) i.opcode (runOf i) s := by
  cases i <;> rfl

/-- An admitted request has the next state its run gives. -/
theorem exec_of_admitted {i : Instr} {s : State} (h1 : s.seq = .idle) (h2 : s.phase = gateOf i) :
    exec i s = .next (runOf i s) := by
  rw [exec_eq_serve]; exact serve_of_admitted h1 h2

/-- A next state comes only from an admitted request, and is what its run gives. -/
theorem exec_next {i : Instr} {s t : State} (h : exec i s = .next t) :
    s.seq = .idle ∧ s.phase = gateOf i ∧ t = runOf i s := by
  rw [exec_eq_serve] at h; exact serve_next h

/-- Every request but START is admitted in READY. -/
theorem gateOf_of_ne_start {i : Instr} (h : i ≠ .start) : gateOf i = .ready := by
  cases i <;> first | rfl | exact absurd rfl h

/-- A request other than START runs in READY. -/
theorem exec_of_ready {i : Instr} {s : State} (hi : i ≠ .start) (h : s.Serves .ready) : exec i s = .next (runOf i s) :=
  exec_of_admitted h.1 (h.2.trans (gateOf_of_ne_start hi).symm)

/-- START runs in UNSTARTED. -/
theorem exec_start_of_unstarted {s : State} (h : s.Serves .unstarted) : exec .start s = .next (runOf .start s) :=
  exec_of_admitted h.1 h.2

/-! ## What every request keeps -/

variable {P : State → Prop}

/-- The values a request may write to DCTRL, from the value it finds there (R25). -/
def dctrlWrites (i : Instr) (d : Byte) : List Byte :=
  match i with
  | .start => [0x04]
  | .stop => [clearBit d maskC, clearBit d maskD]
  | .displayOn => [setBit d maskD]
  | .displayOff => [clearBit d maskD]
  | .underlineOn => [setBit d maskC]
  | .underlineOff => [clearBit d maskC]
  | .blinkOn => [setBit d maskB]
  | .blinkOff => [clearBit d maskB]
  | .clear | .home | .backlightOn | .backlightOff | .shiftLeft | .shiftRight => []
  | .leftToRight | .rightToLeft | .autoscrollOn | .autoscrollOff => []
  | .setCursor _ _ | .registerChar _ _ | .write _ => []

/-- The values a request may write to EMODE, from the value it finds there (R26). -/
def emodeWrites (i : Instr) (e : Byte) : List Byte :=
  match i with
  | .start => [0x02]
  | .leftToRight => [setBit e maskID]
  | .rightToLeft => [clearBit e maskID]
  | .autoscrollOn => [setBit e maskS]
  | .autoscrollOff => [clearBit e maskS]
  | .stop | .displayOn | .displayOff | .underlineOn | .underlineOff | .blinkOn | .blinkOff => []
  | .clear | .home | .backlightOn | .backlightOff | .shiftLeft | .shiftRight => []
  | .setCursor _ _ | .registerChar _ _ | .write _ => []

/-- The values a request may write to BL (R27). -/
def blValues (i : Instr) : List Bool :=
  match i with
  | .backlightOn => [true]
  | .backlightOff | .stop => [false]
  | .start | .leftToRight | .rightToLeft | .autoscrollOn | .autoscrollOff => []
  | .displayOn | .displayOff | .underlineOn | .underlineOff | .blinkOn | .blinkOff => []
  | .clear | .home | .shiftLeft | .shiftRight | .setCursor _ _ | .registerChar _ _ | .write _ => []

theorem dctrlWrites_nil {i : Instr} (h : writesDctrl i = false) (d : Byte) : dctrlWrites i d = [] := by
  cases i <;> first | rfl | simp [writesDctrl] at h

theorem emodeWrites_nil {i : Instr} (h : writesEmode i = false) (e : Byte) : emodeWrites i e = [] := by
  cases i <;> first | rfl | simp [writesEmode] at h

theorem blValues_nil {i : Instr} (h : writesBl i = false) : blValues i = [] := by
  cases i <;> first | rfl | simp [writesBl] at h

/-- What every statement of request `i` does, said of the primitives and of the register updates the request may make
(R24 to R28). -/
structure Statements (i : Instr) (I H : State → Prop) (E : ErrorRecord → State → Prop) : Prop where
  command : ∀ v, Holds I E H (command v)
  data : ∀ v, Holds I E H (data v)
  sendNibble : ∀ n, Holds I E H (sendNibble n commandMode)
  blOnly : Holds I E H blOnly
  wait : ∀ d, Holds I E H (wait d)
  acquire : i = .start → Holds I E H acquire
  setDctrl : ∀ s v, v ∈ dctrlWrites i s.dctrl → I s → I (s.setDctrl v)
  setEmode : ∀ s v, v ∈ emodeWrites i s.emode → I s → I (s.setEmode v)
  setBl : ∀ s b, b ∈ blValues i → I s → I (s.setBl b)
  setFunc : i = .start → ∀ s, I s → I (s.setFunc (funcValue s.cfg))

variable {I H : State → Prop} {E : ErrorRecord → State → Prop} {i : Instr}

theorem Statements.blOnlyIfWrites (h : Statements i I H E) : Holds I E H blOnlyIfWrites := by
  intro s hs
  simp only [Machine.blOnlyIfWrites]
  split
  · exact h.blOnly s hs
  · exact hs

theorem Statements.commandDctrl (h : Statements i I H E) : Holds I E H commandDctrl := fun s hs => h.command _ s hs
theorem Statements.commandEmode (h : Statements i I H E) : Holds I E H commandEmode := fun s hs => h.command _ s hs
theorem Statements.commandFunc (h : Statements i I H E) : Holds I E H commandFunc := fun s hs => h.command _ s hs

/-- Every statement of a request with a body. -/
theorem Statements.body (h : Statements i I H E) : ∀ a ∈ (bodyOf i).1, Holds I E H a := by
  have hD : ∀ m, (∀ d, setBit d m ∈ dctrlWrites i d) → Holds I E H (setDctrlBit m) :=
    fun m hm s => h.setDctrl s _ (hm _)
  have hD' : ∀ m, (∀ d, clearBit d m ∈ dctrlWrites i d) → Holds I E H (clearDctrlBit m) :=
    fun m hm s => h.setDctrl s _ (hm _)
  have hE : ∀ m, (∀ e, setBit e m ∈ emodeWrites i e) → Holds I E H (setEmodeBit m) :=
    fun m hm s => h.setEmode s _ (hm _)
  have hE' : ∀ m, (∀ e, clearBit e m ∈ emodeWrites i e) → Holds I E H (clearEmodeBit m) :=
    fun m hm s => h.setEmode s _ (hm _)
  have hB : ∀ b, b ∈ blValues i → Holds I E H (assignBl b) := fun b hb s => h.setBl s b hb
  cases i with
  | start => simp [bodyOf]
  | stop => simp [bodyOf]
  | write bytes => simp [bodyOf]
  | clear => simpa [bodyOf, clearBody] using ⟨h.command _, h.wait _⟩
  | home => simpa [bodyOf, homeBody] using ⟨h.command _, h.wait _⟩
  | shiftLeft => simpa [bodyOf, shiftLeftBody] using h.command _
  | shiftRight => simpa [bodyOf, shiftRightBody] using h.command _
  | displayOn => simpa [bodyOf, displayOnBody] using ⟨hD _ fun _ => .head _, h.commandDctrl⟩
  | displayOff => simpa [bodyOf, displayOffBody] using ⟨hD' _ fun _ => .head _, h.commandDctrl⟩
  | underlineOn => simpa [bodyOf, underlineOnBody] using ⟨hD _ fun _ => .head _, h.commandDctrl⟩
  | underlineOff => simpa [bodyOf, underlineOffBody] using ⟨hD' _ fun _ => .head _, h.commandDctrl⟩
  | blinkOn => simpa [bodyOf, blinkOnBody] using ⟨hD _ fun _ => .head _, h.commandDctrl⟩
  | blinkOff => simpa [bodyOf, blinkOffBody] using ⟨hD' _ fun _ => .head _, h.commandDctrl⟩
  | leftToRight => simpa [bodyOf, leftToRightBody] using ⟨hE _ fun _ => .head _, h.commandEmode⟩
  | rightToLeft => simpa [bodyOf, rightToLeftBody] using ⟨hE' _ fun _ => .head _, h.commandEmode⟩
  | autoscrollOn => simpa [bodyOf, autoscrollOnBody] using ⟨hE _ fun _ => .head _, h.commandEmode⟩
  | autoscrollOff => simpa [bodyOf, autoscrollOffBody] using ⟨hE' _ fun _ => .head _, h.commandEmode⟩
  | backlightOn => simpa [bodyOf, backlightOnBody] using ⟨hB _ (.head _), h.blOnlyIfWrites⟩
  | backlightOff => simpa [bodyOf, backlightOffBody] using ⟨hB _ (.head _), h.blOnlyIfWrites⟩
  | setCursor col row =>
    simpa [bodyOf, setCursorBody] using ⟨Holds.localAssign, fun s hs => h.command _ s hs⟩
  | registerChar slot bm =>
    simpa [bodyOf, registerCharBody, bitmapBytes] using
      ⟨Holds.localAssign, h.command _, h.data _, h.data _, h.data _, h.data _, h.data _, h.data _, h.data _, h.data _⟩

/-- Every statement of STOP. -/
theorem Statements.stopSteps (h : Statements .stop I H E) : ∀ p ∈ stopSteps, ∀ a ∈ p.2, Holds I E H a := by
  have hC : Holds I E H (clearDctrlBit maskC) := fun s => h.setDctrl s _ (.head _)
  have hD : Holds I E H (clearDctrlBit maskD) := fun s => h.setDctrl s _ (.tail _ (.head _))
  have hB : Holds I E H (assignBl false) := fun s => h.setBl s _ (.head _)
  simp only [Machine.stopSteps, clearBody, backlightOffBody, underlineOffBody, displayOffBody, List.forall_mem_cons,
    List.not_mem_nil, false_implies, implies_true, and_true]
  exact ⟨⟨h.command _, h.wait _⟩, ⟨hB, h.blOnlyIfWrites⟩, ⟨hC, h.commandDctrl⟩, hD, h.commandDctrl⟩

/-- Every init state of START. -/
theorem Statements.initSequence (h : Statements .start I H E) :
    ∀ a ∈ initSequence.map InitState.action, Holds I E H a := by
  have hF : Holds I E H assignFunc := fun s hs => h.setFunc rfl s hs
  have hD : Holds I E H (assignDctrl 0x04) := fun s => h.setDctrl s _ (.head _)
  have hE : Holds I E H (assignEmode 0x02) := fun s => h.setEmode s _ (.head _)
  have hN : ∀ n d, Holds I E H (both (Machine.sendNibble n commandMode) (Machine.wait d)) := fun n d => (h.sendNibble _).both (h.wait _)
  simp only [Machine.initSequence, List.map_cons, List.map_nil, InitState.action, List.forall_mem_cons,
    List.not_mem_nil, false_implies, implies_true, and_true]
  exact ⟨h.acquire rfl, h.wait _, h.blOnly, h.wait _, hN _ _, hN _ _, hN _ _, h.sendNibble _, hF.both h.commandFunc,
    hD.both h.commandDctrl, (h.command _).both (h.wait _), hE.both h.commandEmode, (h.command _).both (h.wait _)⟩

/-- No statement moves `seq`: only `pointAt` and the end of the request do (R19). -/
theorem statements_seq (i : Instr) (q : Seq) :
    Statements i (fun t => t.seq = q) (fun t => t.seq = q) (fun _ t => t.seq = q) := by
  have st := stable_seq q
  refine { command := fun v => (st.command v).weaken fun _ _ h => h.1, data := fun v => (st.data v).weaken fun _ _ h => h.1,
           sendNibble := fun n => (st.sendNibble n _).weaken fun _ _ h => h.1, blOnly := st.blOnly.weaken fun _ _ h => h.1,
           wait := fun d => (st.wait d).weaken fun _ _ h => h.1, acquire := fun _ s hs => ?_,
           setDctrl := fun _ _ _ h => h, setEmode := fun _ _ _ h => h, setBl := fun _ _ _ h => h,
           setFunc := fun _ _ h => h }
  simp only [acquire]
  cases s.answerAt 0 <;> exact hs

/-- What START does to `phase` when it ends (R81), and every other request does not (R89). -/
def closing (i : Instr) (r : Response) (u : State) : State :=
  if i = .start then u.setPhase (if r.status = .ok then .ready else .failed) else u

/-- The state `t` a request leaves: it is stuck at one of its statements, or it has delivered one response from a state
with `I`; an error response of a request other than STOP has one error, raised where the request ended. -/
def RunEnds (i : Instr) (I H : State → Prop) (E : ErrorRecord → State → Prop) (t : State) : Prop :=
  (∃ k, H t ∧ t.seq = .running i.opcode k ∧ (i = .start → 1 ≤ k ∧ k ≤ 13)) ∨
  (∃ u r, I u ∧ t = (closing i r u).respond r ∧
    ((r.status = .ok ∧ r.errs = []) ∨
     (r.status = .err ∧ ∃ e es, r.errs = e :: es ∧ (i ≠ .stop → es = [] ∧ E e u))))

/-- How a request with a body ends. -/
theorem finish_ends (hi : i ≠ .start) {op : Response} (hok : op.status = .ok) (herr : op.errs = [])
    (hrec : ∀ e t, E e t → I t) {r : Res} (hr : r.Sat I E fun t => H t ∧ ∃ j, t.seq = .running i.opcode j) :
    RunEnds i I H E (finish op r) := by
  cases r with
  | done t => exact .inr ⟨t, op, hr, by simp [closing, hi, finish], .inl ⟨hok, herr⟩⟩
  | raised e t =>
    exact .inr ⟨t, errResponse [e], hrec e t hr, by simp [closing, hi, finish, State.takeException],
      .inr ⟨rfl, e, [], rfl, fun _ => ⟨rfl, hr⟩⟩⟩
  | hung t => exact .inl (hr.2.imp fun j h => ⟨hr.1, h, fun hh => absurd hh hi⟩)

/-- EVERYTHING A REQUEST CAN DO. -/
theorem Statements.run_cases (h : Statements i I H E) (hp : ∀ s k, I s → I (s.pointAt i.opcode k))
    (hrec : ∀ e t, E e t → I t) {s : State} (hs : I s) : RunEnds i I H E (runOf i s) := by
  have plainBody : i ≠ .start → (bodyOf i).2.status = .ok → (bodyOf i).2.errs = [] →
      RunEnds i I H E (finish (bodyOf i).2 (runFrom i.opcode 0 (bodyOf i).1 s)) := by
    intro hi hok herr
    have hr := runFrom_sat hp h.body (fun a ha q => (statements_seq i q).body a ha) 0 hs
    refine finish_ends hi hok herr hrec ?_
    generalize runFrom i.opcode 0 (bodyOf i).1 s = r at hr
    cases r with
    | done t => exact hr
    | raised e t => exact hr
    | hung t => obtain ⟨h1, j, -, -, h2⟩ := hr; exact ⟨h1, j, h2⟩
  cases i with
  | start =>
    have hr := runFrom_sat hp h.initSequence (fun a ha q => (statements_seq .start q).initSequence a ha) 1 hs
    simp only [runOf]
    cases hc : runFrom (Instr.opcode .start) 1 (Machine.initSequence.map InitState.action) s with
    | done t => rw [hc] at hr; exact .inr ⟨t, okResponse, hr, rfl, .inl ⟨rfl, rfl⟩⟩
    | raised e t =>
      rw [hc] at hr
      exact .inr ⟨t, errResponse [e], hrec e t hr, rfl, .inr ⟨rfl, e, [], rfl, fun _ => ⟨rfl, hr⟩⟩⟩
    | hung t =>
      rw [hc] at hr
      obtain ⟨h1, j, h2, h3, h4⟩ := hr
      exact .inl ⟨j, h1, h4, fun _ => ⟨h2, by simp [Machine.initSequence] at h3; omega⟩⟩
  | stop =>
    have hr := runStop_sat hp h.stopSteps (fun p hp a ha q => (statements_seq .stop q).stopSteps p hp a ha) hrec [] hs
    simp only [runOf]
    generalize runStop [] Machine.stopSteps s = x at hr ⊢
    obtain ⟨es, r⟩ := x
    cases r with
    | done t =>
      cases es with
      | nil => exact .inr ⟨t, okResponse, hr, rfl, .inl ⟨rfl, rfl⟩⟩
      | cons e es => exact .inr ⟨t, errResponse (e :: es), hr, rfl, .inr ⟨rfl, e, es, rfl, fun hh => absurd rfl hh⟩⟩
    | raised e t => exact hr.elim
    | hung t =>
      obtain ⟨h1, j, h2⟩ := hr
      cases es <;> exact .inl ⟨j, h1, h2, fun hh => by cases hh⟩
  | write bytes =>
    have hr := sendBytes_sat hp h.data (fun v q => (statements_seq (.write bytes) q).data v) bytes 1 0 hs
    simp only [runOf]
    generalize sendBytes (Instr.opcode (.write bytes)) 1 0 bytes s = x at hr ⊢
    obtain ⟨n, r⟩ := x
    cases r with
    | done t => exact .inr ⟨t, { status := .ok, count := n }, hr, rfl, .inl ⟨rfl, rfl⟩⟩
    | raised e t =>
      exact .inr ⟨t, errResponse [e] n, hrec e t hr, rfl, .inr ⟨rfl, e, [], rfl, fun _ => ⟨rfl, hr⟩⟩⟩
    | hung t =>
      obtain ⟨h1, j, h2⟩ := hr
      exact .inl ⟨j, h1, h2, fun hh => by cases hh⟩
  | _ => exact plainBody (by simp) rfl rfl

/-! ## Properties kept along the whole request -/

/-- A property kept by every update a request may make before it responds. -/
structure KeptBy (i : Instr) (P : State → Prop) : Prop extends Stable P where
  pointAt : ∀ s k, P s → P (s.pointAt i.opcode k)
  setDctrl : ∀ s v, v ∈ dctrlWrites i s.dctrl → P s → P (s.setDctrl v)
  setEmode : ∀ s v, v ∈ emodeWrites i s.emode → P s → P (s.setEmode v)
  setBl : ∀ s b, b ∈ blValues i → P s → P (s.setBl b)
  connect : i = .start → ∀ s, P s → P s.connect
  setFunc : i = .start → ∀ s, P s → P (s.setFunc (funcValue s.cfg))

/-- What a raise leaves: the property, and the failed primitive as the last event; only START's can be an acquisition. -/
def Raised (i : Instr) (P : State → Prop) (e : ErrorRecord) (t : State) : Prop :=
  P t ∧ Named e t ∧ ((∃ v, e = .ioError v) ∨ i = .start)

theorem KeptBy.statements (h : KeptBy i P) : Statements i P P (Raised i P) := by
  have io : ∀ e t, IoRaised P e t → Raised i P e t :=
    fun e t ⟨h1, b, v, h2, h3⟩ => ⟨h1, ⟨b, .inl ⟨v, h2, h3⟩⟩, .inl ⟨v, h2⟩⟩
  have st := h.toStable
  refine { command := fun v => (st.command v).weaken io, data := fun v => (st.data v).weaken io,
           sendNibble := fun n => (st.sendNibble n _).weaken io, blOnly := st.blOnly.weaken io,
           wait := fun d => (st.wait d).weaken io, acquire := fun hi s hs => ?_,
           setDctrl := h.setDctrl, setEmode := h.setEmode, setBl := h.setBl, setFunc := h.setFunc }
  simp only [acquire]
  cases s.answerAt 0
  · exact h.connect hi _ (h.emit _ _ (h.answered _ hs))
  · exact ⟨h.emit _ _ (h.answered _ hs), ⟨s.trace, .inr ⟨rfl, rfl⟩⟩, .inr hi⟩
  · exact hs

/-- `run_cases` for a property the request keeps. -/
theorem KeptBy.run_cases (h : KeptBy i P) {s : State} (hs : P s) : RunEnds i P P (Raised i P) (runOf i s) :=
  h.statements.run_cases h.pointAt (fun _ _ h => h.1) hs

/-- A property that the response and START's last assignment keep too holds after the request, however it ends. -/
theorem KeptBy.run (h : KeptBy i P) (hr : ∀ t r, P t → P (t.respond r)) (hph : i = .start → ∀ t p, P t → P (t.setPhase p))
    {s : State} (hs : P s) : P (runOf i s) := by
  obtain ⟨-, h1, -⟩ | ⟨u, r, h1, h2, -⟩ := h.run_cases hs
  · exact h1
  · rw [h2]
    refine hr _ _ ?_
    simp only [closing]
    split
    · exact hph ‹_› _ _ h1
    · exact h1

end Sys2Proof.Machine
end

