-- ==== Sys2Proof/Laws/Calls.lean ====
section
/-! SUPPORT. How many byte-sink calls an action makes at most (rule R145), where a request can hang (R118), and that a
request the byte-sink answers never does: an action `Takes n` when, with `n + m` calls answered ahead, it ends with `m` of
them still ahead. -/

namespace Sys2Proof.Machine

/-- With its next `n + m` calls answered the action does not hang, and `m` answers are ahead of the state it leaves. -/
def Takes (n : Nat) (a : Action) : Prop :=
  ∀ m s, State.Answered s (n + m) →
    (a s).Sat (fun t => t.Answered m) (fun _ t => t.Answered m) fun _ => False

/-- Fewer calls may be asked for. -/
theorem State.Answered.mono {s : State} {m n : Nat} (h : s.Answered n) (hmn : m ≤ n) : s.Answered m :=
  fun i hi => h i (Nat.lt_of_lt_of_le hi hmn)

/-- One call answered. -/
theorem State.Answered.tail {s : State} {n : Nat} (h : s.Answered (n + 1)) : s.answered.Answered n :=
  fun i hi => by rw [State.answerAt_answered]; exact h (i + 1) (by omega)

theorem Takes.both {a b : Action} {n k : Nat} (ha : Takes n a) (hb : Takes k b) : Takes (n + k) (both a b) := by
  intro m s hs
  have h := ha (k + m) s (hs.mono (by omega))
  simp only [Machine.both]
  cases hr : a s with
  | done t => rw [hr] at h; exact hb m t h
  | raised e t => rw [hr] at h; exact State.Answered.mono h (by omega)
  | hung t => rw [hr] at h; exact h

theorem Takes.mono {a : Action} {n k : Nat} (ha : Takes n a) (h : n ≤ k) : Takes k a := by
  intro m s hs
  have := ha (k - n + m) s (hs.mono (by omega))
  cases hr : a s with
  | done t => rw [hr] at this; exact State.Answered.mono this (by omega)
  | raised e t => rw [hr] at this; exact State.Answered.mono this (by omega)
  | hung t => rw [hr] at this; exact this

/-- A statement that only updates a register makes no call. -/
theorem takes_update {f : State → State} (h : ∀ s i, (f s).answerAt i = s.answerAt i) :
    Takes 0 fun s => .done (f s) := fun m s hs i hi => by rw [h]; exact hs i (by omega)

theorem takes_expWrite (v : Byte) : Takes 1 (expWrite v) := by
  intro m s hs
  have h0 := hs 0 (by omega)
  have ht : s.answered.Answered m := State.Answered.tail (by rw [Nat.add_comm]; exact hs)
  simp only [expWrite]
  cases hr : s.answerAt 0 with
  | ok => exact ht
  | fail => exact ht
  | never => exact h0 hr

theorem takes_acquire : Takes 1 acquire := by
  intro m s hs
  have h0 := hs 0 (by omega)
  have ht : s.answered.Answered m := State.Answered.tail (by rw [Nat.add_comm]; exact hs)
  simp only [acquire]
  cases hr : s.answerAt 0 with
  | ok => exact ht
  | fail => exact ht
  | never => exact h0 hr

theorem takes_wait (d : Delay) : Takes 0 (wait d) := takes_update fun _ _ => rfl

/-- R73: two writes. -/
theorem takes_sendNibble (n mode : Byte) : Takes 2 (sendNibble n mode) := by
  intro m s hs
  exact ((takes_expWrite _).both ((takes_wait _).both ((takes_expWrite _).both (takes_wait _)))) m s hs

/-- R74: four writes. -/
theorem takes_transmit (v mode : Byte) : Takes 4 (transmit v mode) :=
  (takes_sendNibble _ mode).both (takes_sendNibble _ mode)

theorem takes_command (v : Byte) : Takes 4 (command v) := takes_transmit v _

theorem takes_data (v : Byte) : Takes 4 (data v) := fun m s hs => takes_transmit v _ m s hs

theorem takes_blOnly : Takes 1 blOnly := fun m s hs => takes_expWrite _ m s hs

theorem takes_blOnlyIfWrites : Takes 1 blOnlyIfWrites := by
  intro m s hs
  simp only [blOnlyIfWrites]
  split
  · exact takes_blOnly m s hs
  · exact State.Answered.mono hs (by omega)

/-- Statements in sequence make no more calls than their sum. -/
theorem takes_runFrom (op : Byte) {body : List (Nat × Action)} (h : ∀ p ∈ body, Takes p.1 p.2) (k : Nat) :
    Takes (body.map Prod.fst).sum (runFrom op k (body.map Prod.snd)) := by
  induction body generalizing k with
  | nil => exact fun m s hs => State.Answered.mono hs (by omega)
  | cons p rest ih =>
    intro m s hs
    have := ((h p (by simp)).both (ih (fun x hx => h x (by simp [hx])) (k + 1))) m (s.pointAt op k) hs
    exact this

/-- The loop of WRITE makes at most four calls a byte. -/
theorem sendBytes_answered (op : Byte) (bytes : List Byte) (k n m : Nat) (s : State)
    (hs : s.Answered (4 * bytes.length + m)) :
    (sendBytes op k n bytes s).2.Sat (fun t => t.Answered m) (fun _ t => t.Answered m) fun _ => False := by
  induction bytes generalizing k n s with
  | nil => exact State.Answered.mono hs (by simp)
  | cons d rest ih =>
    have h := takes_data d (4 * rest.length + m) (s.pointAt op k)
      (State.Answered.mono (s := s.pointAt op k) hs (by simp; omega))
    simp only [sendBytes]
    cases hr : data d (s.pointAt op k) with
    | done t => rw [hr] at h; exact ih _ _ t h
    | raised e t => rw [hr] at h; exact State.Answered.mono h (by omega)
    | hung t => rw [hr] at h; exact h

/-- The steps of STOP make no more calls than their sum. -/
theorem runStop_answered {steps : List (Nat × Nat × List Action)}
    (h : ∀ p ∈ steps, Takes p.1 (runFrom (Instr.opcode .stop) p.2.1 p.2.2)) (errs : List ErrorRecord) (m : Nat) (s : State)
    (hs : s.Answered ((steps.map Prod.fst).sum + m)) :
    (runStop errs (steps.map Prod.snd) s).2.Sat (fun t => t.Answered m) (fun _ t => t.Answered m) fun _ => False := by
  induction steps generalizing errs s with
  | nil => exact State.Answered.mono hs (by simp)
  | cons p rest ih =>
    have h1 := h p (by simp) ((rest.map Prod.fst).sum + m) s (State.Answered.mono hs (by simp; omega))
    have ih' := fun errs s hs => ih (fun x hx => h x (by simp [hx])) errs s hs
    simp only [List.map_cons, runStop]
    cases hr : runFrom (Instr.opcode .stop) p.2.1 p.2.2 s with
    | done t => rw [hr] at h1; exact ih' _ t h1
    | raised e t => rw [hr] at h1; exact ih' _ t h1
    | hung t => rw [hr] at h1; exact h1

/-- A request other than START whose calls are all answered ends, and `m` answers are ahead of the state it leaves. -/
theorem runOf_answered {i : Instr} (hi : i ≠ .start) {m : Nat} {s : State} (hs : s.Answered (callBound i + m)) :
    (runOf i s).seq = .idle ∧ (runOf i s).Answered m := by
  have upd : ∀ {f : State → State}, (∀ s i, (f s).answerAt i = s.answerAt i) → Takes 0 fun s => .done (f s) := takes_update
  have body : ∀ (op : Byte) (ok : Response) (l : List (Nat × Action)), (∀ p ∈ l, Takes p.1 p.2) →
      s.Answered ((l.map Prod.fst).sum + m) →
      (finish ok (runFrom op 0 (l.map Prod.snd) s)).seq = .idle ∧
        (finish ok (runFrom op 0 (l.map Prod.snd) s)).Answered m := by
    intro op ok l hl hs
    have h := takes_runFrom op hl 0 m s hs
    cases hr : runFrom op 0 (l.map Prod.snd) s with
    | done t => rw [hr] at h; exact ⟨rfl, h⟩
    | raised e t => rw [hr] at h; exact ⟨rfl, h⟩
    | hung t => rw [hr] at h; exact h.elim
  have one : ∀ (op : Byte) (a : Action), Takes 4 a → s.Answered (4 + m) →
      (finish okResponse (runFrom op 0 [a] s)).seq = .idle ∧ (finish okResponse (runFrom op 0 [a] s)).Answered m :=
    fun op a ha hs => body op _ [(4, a)] (by simpa using ha) hs
  have two : ∀ (op : Byte) (a b : Action) (n k : Nat), Takes n a → Takes k b → s.Answered (n + k + m) →
      (finish okResponse (runFrom op 0 [a, b] s)).seq = .idle ∧
        (finish okResponse (runFrom op 0 [a, b] s)).Answered m :=
    fun op a b n k ha hb hs => body op _ [(n, a), (k, b)] (by simpa using ⟨ha, hb⟩) (by simpa using hs)
  have hD : ∀ f : State → Byte, Takes 0 fun s => .done (s.setDctrl (f s)) := fun f => upd fun _ _ => rfl
  have hE : ∀ f : State → Byte, Takes 0 fun s => .done (s.setEmode (f s)) := fun f => upd fun _ _ => rfl
  have hB : ∀ b, Takes 0 (assignBl b) := fun b => upd fun _ _ => rfl
  have cD : Takes 4 commandDctrl := fun m s hs => takes_command _ m s hs
  have cE : Takes 4 commandEmode := fun m s hs => takes_command _ m s hs
  cases i with
  | start => exact absurd rfl hi
  | stop =>
    have h := runStop_answered
      (steps := [(4, 1, clearBody), (1, 3, backlightOffBody), (4, 5, underlineOffBody), (4, 7, displayOffBody)])
      (by
        simp only [List.forall_mem_cons, List.not_mem_nil, false_implies, implies_true, and_true]
        exact ⟨takes_runFrom _ (body := [(4, command clearByte), (0, wait .clearHome)])
              (by simpa using ⟨takes_command _, takes_wait _⟩) 1,
          takes_runFrom _ (body := [(0, assignBl false), (1, blOnlyIfWrites)])
              (by simpa using ⟨hB _, takes_blOnlyIfWrites⟩) 3,
          takes_runFrom _ (body := [(0, clearDctrlBit maskC), (4, commandDctrl)]) (by simpa using ⟨hD _, cD⟩) 5,
          takes_runFrom _ (body := [(0, clearDctrlBit maskD), (4, commandDctrl)]) (by simpa using ⟨hD _, cD⟩) 7⟩)
      [] m s hs
    simp only [runOf]
    have e : runStop [] stopSteps s = runStop [] ([(4, 1, clearBody), (1, 3, backlightOffBody), (4, 5, underlineOffBody),
      (4, 7, displayOffBody)].map Prod.snd) s := rfl
    rw [e]
    generalize runStop [] _ s = x at h
    obtain ⟨es, r⟩ := x
    cases r with
    | done t => cases es <;> exact ⟨rfl, h⟩
    | raised e t => cases es <;> exact ⟨rfl, h⟩
    | hung t => exact h.elim
  | write bytes =>
    have h := sendBytes_answered (Instr.opcode (.write bytes)) bytes 1 0 m s hs
    simp only [runOf]
    generalize sendBytes (Instr.opcode (.write bytes)) 1 0 bytes s = x at h
    obtain ⟨n, r⟩ := x
    cases r with
    | done t => exact ⟨rfl, h⟩
    | raised e t => exact ⟨rfl, h⟩
    | hung t => exact h.elim
  | clear => exact two _ _ _ 4 0 (takes_command _) (takes_wait _) hs
  | home => exact two _ _ _ 4 0 (takes_command _) (takes_wait _) hs
  | displayOn => exact two _ _ _ 0 4 (hD _) cD hs
  | displayOff => exact two _ _ _ 0 4 (hD _) cD hs
  | underlineOn => exact two _ _ _ 0 4 (hD _) cD hs
  | underlineOff => exact two _ _ _ 0 4 (hD _) cD hs
  | blinkOn => exact two _ _ _ 0 4 (hD _) cD hs
  | blinkOff => exact two _ _ _ 0 4 (hD _) cD hs
  | leftToRight => exact two _ _ _ 0 4 (hE _) cE hs
  | rightToLeft => exact two _ _ _ 0 4 (hE _) cE hs
  | autoscrollOn => exact two _ _ _ 0 4 (hE _) cE hs
  | autoscrollOff => exact two _ _ _ 0 4 (hE _) cE hs
  | backlightOn => exact two _ _ _ 0 1 (hB _) takes_blOnlyIfWrites hs
  | backlightOff => exact two _ _ _ 0 1 (hB _) takes_blOnlyIfWrites hs
  | shiftLeft => exact one _ _ (takes_command _) hs
  | shiftRight => exact one _ _ (takes_command _) hs
  | setCursor col row =>
    refine body _ _ [(0, localAssign), (0, localAssign), (0, localAssign), (4, commandSetDdram col row)] ?_ hs
    have l : Takes 0 localAssign := upd fun _ _ => rfl
    simpa using ⟨l, fun m s hs => takes_command _ m s hs⟩
  | registerChar slot bm =>
    have l : Takes 0 localAssign := upd fun _ _ => rfl
    refine body _ _ [(0, localAssign), (4, command (setCgramByte (slotOf slot))), (4, data bm.b0), (4, data bm.b1),
      (4, data bm.b2), (4, data bm.b3), (4, data bm.b4), (4, data bm.b5), (4, data bm.b6), (4, data bm.b7)] ?_ hs
    simpa using ⟨l, takes_command _, takes_data _, takes_data _, takes_data _, takes_data _, takes_data _, takes_data _,
      takes_data _, takes_data _⟩

/-! ## Where a request can hang -/

/-- The action makes no byte-sink call it could hang in. -/
def CallFree (a : Action) : Prop := ∀ s t, a s ≠ .hung t

theorem callFree_update (f : State → State) : CallFree fun s => .done (f s) := fun _ _ h => by cases h

theorem callFree_wait (d : Delay) : CallFree (wait d) := callFree_update _
theorem callFree_localAssign : CallFree localAssign := callFree_update _

/-- A hang in a sequence of statements leaves `seq` at a statement that calls the byte-sink (R118, R19). -/
theorem runFrom_hung {op : Byte} {body : List Action} (hq : ∀ a ∈ body, SeqFixed a) {k : Nat} {s t : State}
    (h : runFrom op k body s = .hung t) :
    ∃ j a, body[j]? = some a ∧ ¬ CallFree a ∧ t.seq = .running op (k + j) := by
  induction body generalizing k s with
  | nil => cases h
  | cons a rest ih =>
    rw [runFrom_cons] at h
    cases hr : a (s.pointAt op k) with
    | done u =>
      rw [hr] at h
      obtain ⟨j, b, h1, h2, h3⟩ := ih (fun x hx => hq x (by simp [hx])) h
      exact ⟨j + 1, b, h1, h2, by rw [h3, Nat.add_right_comm, Nat.add_assoc]⟩
    | raised e u => rw [hr] at h; cases h
    | hung u =>
      have hf := hq a (by simp) (.running op k) (s.pointAt op k) rfl
      rw [hr] at h hf
      cases h
      exact ⟨0, a, rfl, fun hc => hc _ _ hr, hf⟩

/-- A hang in the loop of WRITE leaves `seq` at the transmit of one of its bytes. -/
theorem sendBytes_hung {op : Byte} {bytes : List Byte} {k n : Nat} {s t : State}
    (h : (sendBytes op k n bytes s).2 = .hung t) : ∃ j < bytes.length, t.seq = .running op (k + 2 * j) := by
  induction bytes generalizing k n s with
  | nil => cases h
  | cons d rest ih =>
    simp only [sendBytes] at h
    cases hr : data d (s.pointAt op k) with
    | done u =>
      rw [hr] at h
      obtain ⟨j, h1, h2⟩ := ih h
      exact ⟨j + 1, by simp; omega, by rw [h2]; congr 1; omega⟩
    | raised e u => rw [hr] at h; cases h
    | hung u =>
      have hf := ((stable_seq (.running op k)).data d) (s.pointAt op k) rfl
      rw [hr] at h hf
      cases h
      exact ⟨0, by simp, hf⟩

/-- A hang in STOP is a hang in one of its steps (R86). -/
theorem runStop_hung {steps : List (Nat × List Action)} {errs : List ErrorRecord} {s t : State}
    (h : (runStop errs steps s).2 = .hung t) :
    ∃ p ∈ steps, ∃ u, runFrom (Instr.opcode .stop) p.1 p.2 u = .hung t := by
  induction steps generalizing errs s with
  | nil => cases h
  | cons p rest ih =>
    simp only [runStop] at h
    cases hr : runFrom (Instr.opcode .stop) p.1 p.2 s with
    | done u => rw [hr] at h; exact (ih h).imp fun q hq => ⟨by simp [hq.1], hq.2⟩
    | raised e u => rw [hr] at h; exact (ih h).imp fun q hq => ⟨by simp [hq.1], hq.2⟩
    | hung u => rw [hr] at h; cases h; exact ⟨p, by simp, s, hr⟩

end Sys2Proof.Machine
end

