-- ==== Sys2Proof/Laws/Lines.lean ====
section
/-! SUPPORT. The lines of the expander byte (rules R6, R58, R59): in a configuration whose masks are valid the four lines
and the data nibble do not overlap, so each line of a control byte is read off it. -/

namespace Sys2Proof.Machine

/-- The masks of a valid configuration and the data nibble are pairwise disjoint, and none is zero. -/
structure LinesDisjoint (c : Configuration) : Prop where
  rs_en : c.rsMask &&& c.enMask = 0
  rs_rw : c.rsMask &&& c.rwMask = 0
  rs_bl : c.rsMask &&& c.blMask = 0
  bl_en : c.blMask &&& c.enMask = 0
  bl_rw : c.blMask &&& c.rwMask = 0
  bl_rs : c.blMask &&& c.rsMask = 0
  en_rw : c.enMask &&& c.rwMask = 0
  en_bl : c.enMask &&& c.blMask = 0
  en_rs : c.enMask &&& c.rsMask = 0
  data_en : (0xF0 : Byte) &&& c.enMask = 0
  data_rw : (0xF0 : Byte) &&& c.rwMask = 0
  data_bl : (0xF0 : Byte) &&& c.blMask = 0
  data_rs : (0xF0 : Byte) &&& c.rsMask = 0
  rs_high : c.rsMask.extractLsb' 4 4 = 0
  bl_high : c.blMask.extractLsb' 4 4 = 0
  en_high : c.enMask.extractLsb' 4 4 = 0
  en_ne : c.enMask ≠ 0
  rs_ne : c.rsMask ≠ 0

/-- R6 for the masks: four distinct single bits of [3:0]. -/
theorem linesDisjoint_of_masksValid {c : Configuration} (h : c.masksValid = true) : LinesDisjoint c := by
  have line : ∀ m : Byte, isLineMask m = true → m = 0x01 ∨ m = 0x02 ∨ m = 0x04 ∨ m = 0x08 := by decide
  have data : ∀ m : Byte, isLineMask m = true → (0xF0 : Byte) &&& m = 0 ∧ m.extractLsb' 4 4 = 0 ∧ m ≠ 0 := by decide
  have pair : ∀ m k : Byte, isLineMask m = true → isLineMask k = true → m ≠ k → m &&& k = 0 := by
    intro m k hm hk hne
    rcases line m hm with rfl | rfl | rfl | rfl <;> rcases line k hk with rfl | rfl | rfl | rfl <;>
      first | exact absurd rfl hne | decide
  simp only [Configuration.masksValid, Bool.and_eq_true, bne_iff_ne] at h
  obtain ⟨⟨⟨⟨⟨⟨⟨⟨⟨rs, rw'⟩, en⟩, bl⟩, h1⟩, h2⟩, h3⟩, h4⟩, h5⟩, h6⟩ := h
  exact
    { rs_en := pair _ _ rs en h2, rs_rw := pair _ _ rs rw' h1, rs_bl := pair _ _ rs bl h3,
      bl_en := pair _ _ bl en (Ne.symm h6), bl_rw := pair _ _ bl rw' (Ne.symm h5), bl_rs := pair _ _ bl rs (Ne.symm h3),
      en_rw := pair _ _ en rw' (Ne.symm h4), en_bl := pair _ _ en bl h6, en_rs := pair _ _ en rs (Ne.symm h2),
      data_en := (data _ en).1, data_rw := (data _ rw').1, data_bl := (data _ bl).1, data_rs := (data _ rs).1,
      rs_high := (data _ rs).2.1, bl_high := (data _ bl).2.1, en_high := (data _ en).2.1,
      en_ne := (data _ en).2.2, rs_ne := (data _ rs).2.2 }

/-- A valid configuration has valid masks (R10). -/
theorem linesDisjoint_of_valid {c : Configuration} (h : c.valid = true) : LinesDisjoint c :=
  linesDisjoint_of_masksValid (by simp only [Configuration.valid, Bool.and_eq_true] at h; exact h.1.2)

theorem or_and_byte (a b m : Byte) : (a ||| b) &&& m = (a &&& m) ||| (b &&& m) := by
  ext i hi
  simp only [BitVec.getElem_and, BitVec.getElem_or]
  exact Bool.and_or_distrib_right _ _ _

/-- The two mode flags of R60. -/
def IsMode (c : Configuration) (mode : Byte) : Prop := mode = 0x00 ∨ mode = c.rsMask

variable {c : Configuration} {n mode : Byte}

theorem blBit_and (hl : LinesDisjoint c) (bl : Bool) :
    blBit c bl &&& c.enMask = 0 ∧ blBit c bl &&& c.rwMask = 0 ∧ blBit c bl &&& c.rsMask = 0 ∧
    blBit c bl &&& c.blMask = blBit c bl ∧ (blBit c bl).extractLsb' 4 4 = 0 := by
  cases bl <;> simp [blBit, hl.bl_en, hl.bl_rw, hl.bl_rs, hl.bl_high]

theorem data_and {m : Byte} (h : (0xF0 : Byte) &&& m = 0) (n : Byte) : (n &&& 0xF0) &&& m = 0 := by
  rw [BitVec.and_assoc, h]; simp

/-- EN is low in a control byte (R59: "`b` never has EN set"). -/
theorem controlByte_en (hl : LinesDisjoint c) (bl : Bool) (n : Byte) (hm : IsMode c mode) :
    controlByte c bl n mode &&& c.enMask = 0 := by
  have hmode : mode &&& c.enMask = 0 := by rcases hm with rfl | rfl <;> simp [hl.rs_en]
  simp only [controlByte, or_and_byte]
  rw [data_and hl.data_en, hmode, (blBit_and hl bl).1]; rfl

/-- RW is low in a control byte (R58, R79 item 3). -/
theorem controlByte_rw (hl : LinesDisjoint c) (bl : Bool) (n : Byte) (hm : IsMode c mode) :
    controlByte c bl n mode &&& c.rwMask = 0 := by
  have hmode : mode &&& c.rwMask = 0 := by rcases hm with rfl | rfl <;> simp [hl.rs_rw]
  simp only [controlByte, or_and_byte]
  rw [data_and hl.data_rw, hmode, (blBit_and hl bl).2.1]; rfl

/-- The backlight line of a control byte is BL (R79 item 2). -/
theorem controlByte_bl (hl : LinesDisjoint c) (bl : Bool) (n : Byte) (hm : IsMode c mode) :
    controlByte c bl n mode &&& c.blMask = blBit c bl := by
  have hmode : mode &&& c.blMask = 0 := by rcases hm with rfl | rfl <;> simp [hl.rs_bl]
  simp only [controlByte, or_and_byte]
  rw [data_and hl.data_bl, hmode, (blBit_and hl bl).2.2.2.1]; simp

/-- The register-select line of a control byte is the mode (R60). -/
theorem controlByte_rs (hl : LinesDisjoint c) (bl : Bool) (n : Byte) (hm : IsMode c mode) :
    controlByte c bl n mode &&& c.rsMask = mode := by
  have hmode : mode &&& c.rsMask = mode := by rcases hm with rfl | rfl <;> simp
  simp only [controlByte, or_and_byte]
  rw [data_and hl.data_rs, hmode, (blBit_and hl bl).2.2.1]; simp

/-- The data nibble of a control byte is that of `n` (R58). -/
theorem controlByte_nibble (hl : LinesDisjoint c) (bl : Bool) (n : Byte) (hm : IsMode c mode) :
    (controlByte c bl n mode).extractLsb' 4 4 = n.extractLsb' 4 4 := by
  have hmode : mode.extractLsb' 4 4 = 0 := by rcases hm with rfl | rfl <;> simp [hl.rs_high]
  have hf : (0xF0 : Byte).extractLsb' 4 4 = BitVec.allOnes 4 := by decide
  simp only [controlByte, BitVec.extractLsb'_or, BitVec.extractLsb'_and, hmode, (blBit_and hl bl).2.2.2.2, hf, BitVec.and_allOnes]
  simp

/-- Raising EN on a byte that has it low, and reading every other line. -/
theorem strobe_and {b m : Byte} (hm : c.enMask &&& m = 0) : (b ||| c.enMask) &&& m = b &&& m := by
  rw [or_and_byte, hm]; simp

/-- The enable-low byte is the enable-high byte with EN cleared (R59). -/
theorem strobe_low {b : Byte} (h : b &&& c.enMask = 0) : (b ||| c.enMask) &&& ~~~c.enMask = b := by
  ext i hi
  have := congrArg (fun x => x[i]) h
  simp at this ⊢
  grind

/-- The enable-high byte has EN set. -/
theorem strobe_high (hl : LinesDisjoint c) (b : Byte) : (b ||| c.enMask) &&& c.enMask ≠ 0 := by
  intro h
  apply hl.en_ne
  ext i hi
  have := congrArg (fun x => x[i]) h
  simp at this ⊢
  grind

end Sys2Proof.Machine
end

