-- ==== Sys2Proof/Laws/PerInstr.lean ====
section
/-! SUPPORT. One statement per request, about the request as syntax: the record that encodes it carries its opcode, and the
opcode map gives that opcode the format its rule says (R50 to R55). -/

namespace Sys2Proof.Laws.OpcodeFormat

/-- The record of the request has its opcode, and the map gives the opcode the request's format. -/
def Statement (i : Instr) : Prop := (encode i).op = i.opcode ∧ formatOf i.opcode = some i.format

theorem start : Statement .start := ⟨rfl, by decide⟩
theorem stop : Statement .stop := ⟨rfl, by decide⟩
theorem clear : Statement .clear := ⟨rfl, by decide⟩
theorem home : Statement .home := ⟨rfl, by decide⟩
theorem displayOn : Statement .displayOn := ⟨rfl, by decide⟩
theorem displayOff : Statement .displayOff := ⟨rfl, by decide⟩
theorem backlightOn : Statement .backlightOn := ⟨rfl, by decide⟩
theorem backlightOff : Statement .backlightOff := ⟨rfl, by decide⟩
theorem underlineOn : Statement .underlineOn := ⟨rfl, by decide⟩
theorem underlineOff : Statement .underlineOff := ⟨rfl, by decide⟩
theorem blinkOn : Statement .blinkOn := ⟨rfl, by decide⟩
theorem blinkOff : Statement .blinkOff := ⟨rfl, by decide⟩
theorem shiftLeft : Statement .shiftLeft := ⟨rfl, by decide⟩
theorem shiftRight : Statement .shiftRight := ⟨rfl, by decide⟩
theorem leftToRight : Statement .leftToRight := ⟨rfl, by decide⟩
theorem rightToLeft : Statement .rightToLeft := ⟨rfl, by decide⟩
theorem autoscrollOn : Statement .autoscrollOn := ⟨rfl, by decide⟩
theorem autoscrollOff : Statement .autoscrollOff := ⟨rfl, by decide⟩
theorem setCursor (col row : Int) : Statement (.setCursor col row) := ⟨rfl, by rfl⟩
theorem registerChar (slot : Int) (bm : Bitmap) : Statement (.registerChar slot bm) := ⟨rfl, by rfl⟩
theorem write (data : List Byte) : Statement (.write data) := ⟨rfl, by rfl⟩

end Sys2Proof.Laws.OpcodeFormat
end

