-- ==== Sys2Proof/Laws/Rows.lean ====
section
/-! SUPPORT. A run of statements as one event list. A `Row` is a statement as the registers it assigns and the events it
then performs; START from S2 on, and the data bytes of REGISTER_CHAR, are lists of rows, and what a list of rows leaves is
said once for each way the byte-sink answers. -/

namespace Sys2Proof.Machine

/-! ## States that differ in `seq` only -/

/-- `s` with `seq` at `q`. -/
def State.withSeq (s : State) (q : Seq) : State := { s with seq := q }

theorem pointAt_eq_withSeq (s : State) (op : Byte) (k : Nat) : s.pointAt op k = s.withSeq (.running op k) := rfl
@[simp] theorem withSeq_withSeq (s : State) (p q : Seq) : (s.withSeq p).withSeq q = s.withSeq q := rfl
@[simp] theorem withSeq_pointAt (s : State) (q : Seq) (op : Byte) (k : Nat) :
    (s.withSeq q).pointAt op k = s.pointAt op k := rfl
@[simp] theorem withSeq_respond (s : State) (q : Seq) (r : Response) : (s.withSeq q).respond r = s.respond r := rfl
@[simp] theorem withSeq_takeException (s : State) (q : Seq) (e : ErrorRecord) (n : Nat) :
    (s.withSeq q).takeException e n = s.takeException e n := rfl
theorem withSeq_played (s : State) (q : Seq) (es : List Event) : (s.withSeq q).played es = (s.played es).withSeq q := rfl
theorem withSeq_setDctrl (s : State) (q : Seq) (v : Byte) : (s.withSeq q).setDctrl v = (s.setDctrl v).withSeq q := rfl
theorem withSeq_setEmode (s : State) (q : Seq) (v : Byte) : (s.withSeq q).setEmode v = (s.setEmode v).withSeq q := rfl
theorem withSeq_setBl (s : State) (q : Seq) (b : Bool) : (s.withSeq q).setBl b = (s.setBl b).withSeq q := rfl
theorem withSeq_playedToFailedWrite (s : State) (q : Seq) (es : List Event) (k : Nat) (v : Byte) :
    (s.withSeq q).playedToFailedWrite es k v = (s.playedToFailedWrite es k v).withSeq q := rfl
@[simp] theorem withSeq_answerAt (s : State) (q : Seq) (i : Nat) : (s.withSeq q).answerAt i = s.answerAt i := rfl

theorem setBl_played (s : State) (b : Bool) (es : List Event) : (s.setBl b).played es = (s.played es).setBl b := rfl
theorem setDctrl_played (s : State) (v : Byte) (es : List Event) :
    (s.setDctrl v).played es = (s.played es).setDctrl v := rfl
theorem setEmode_played (s : State) (v : Byte) (es : List Event) :
    (s.setEmode v).played es = (s.played es).setEmode v := rfl

/-- A result with `seq` at `q` in the state it carries. -/
def Res.withSeq (q : Seq) : Res → Res
  | .done s => .done (s.withSeq q)
  | .raised e s => .raised e (s.withSeq q)
  | .hung s => .hung (s.withSeq q)

/-- An event list plays alike wherever `seq` points. -/
theorem play_withSeq (es : List Event) (s : State) (q : Seq) : play es (s.withSeq q) = (play es s).withSeq q := by
  induction es generalizing s with
  | nil => rfl
  | cons e es ih =>
    cases e with
    | delay d => exact ih (s.emit (.delay d))
    | write v =>
      simp only [play, both, expWrite, withSeq_answerAt]
      cases s.answerAt 0
      · exact ih ((s.answered.emit (.write v)).latch v)
      · rfl
      · rfl
    | writeFailed v => exact ih s
    | acquired a b => exact ih s
    | acquireFailed a b => exact ih s

/-- The trace of the clear body is that of its event list, in CLEAR and in STOP alike (R86, R92). -/
theorem runFrom_clearBody_trace (op : Byte) (k : Nat) (s : State) :
    (runFrom op k clearBody s).state.trace = (play (clearEvents s.cfg s.bl) s).state.trace := by
  have h : play (cmdEvents s.cfg s.bl 0x01) (s.pointAt op k) =
      (play (cmdEvents s.cfg s.bl 0x01) s).withSeq (.running op k) := play_withSeq _ s _
  simp only [clearBody, runFrom_cons, clearEvents, play_append, both]
  rw [command_eq_play]
  simp only [clearByte]
  rw [show (s.pointAt op k).cfg = s.cfg from rfl, show (s.pointAt op k).bl = s.bl from rfl, h]
  cases play (cmdEvents s.cfg s.bl 0x01) s <;> rfl

/-! ## Rows -/

/-- The registers a statement of START assigns before it sends its events (R82). -/
structure Assigned where
  func : Option Byte := none
  dctrl : Option Byte := none
  emode : Option Byte := none
deriving DecidableEq, Repr

/-- The later assignment wins. -/
def Assigned.andThen (a b : Assigned) : Assigned :=
  { func := b.func.or a.func, dctrl := b.dctrl.or a.dctrl, emode := b.emode.or a.emode }

/-- `s` with the assignments made. -/
def State.assign (s : State) (w : Assigned) : State :=
  { s with func := w.func.getD s.func, dctrl := w.dctrl.getD s.dctrl, emode := w.emode.getD s.emode }

/-- One statement as the registers it assigns and the events it then performs. -/
structure Row where
  act : Action
  writes : Assigned
  evs : List Event

/-- The row says what the statement does in every state with this configuration and backlight bit. -/
def Row.Plays (c : Configuration) (bl : Bool) (r : Row) : Prop :=
  plain r.evs = true ∧ ∀ t : State, t.cfg = c → t.bl = bl → r.act t = play r.evs (t.assign r.writes)

/-- The events of a list of rows. -/
def rowsEvents (rows : List Row) : List Event := rows.flatMap Row.evs

/-- The registers assigned by a list of rows. -/
def rowsWrites (rows : List Row) : Assigned := rows.foldl (fun w r => w.andThen r.writes) {}

theorem assign_andThen (s : State) (a b : Assigned) : s.assign (a.andThen b) = (s.assign a).assign b := by
  obtain ⟨a1, a2, a3⟩ := a; obtain ⟨b1, b2, b3⟩ := b
  cases b1 <;> cases b2 <;> cases b3 <;> simp [State.assign, Assigned.andThen]

/-- The rows before call number `j`'s row, that row included. -/
def rowsTo : List Row → Nat → List Row
  | [], _ => []
  | r :: rest, j => if j < callCount r.evs then [r] else r :: rowsTo rest (j - callCount r.evs)

/-- Assignments made before a list of rows come first. -/
theorem foldl_andThen (w : Assigned) (rows : List Row) :
    rows.foldl (fun w r => w.andThen r.writes) w = w.andThen (rowsWrites rows) := by
  induction rows generalizing w with
  | nil => obtain ⟨a, b, c⟩ := w; simp [rowsWrites, Assigned.andThen]
  | cons r rest ih =>
    simp only [rowsWrites, List.foldl_cons]
    rw [ih, ih]
    obtain ⟨a, b, c⟩ := w; obtain ⟨a', b', c'⟩ := r.writes
    simp [Assigned.andThen]
    constructor
    · cases (rowsWrites rest).func <;> cases a' <;> rfl
    · constructor
      · cases (rowsWrites rest).dctrl <;> cases b' <;> rfl
      · cases (rowsWrites rest).emode <;> cases c' <;> rfl

theorem assign_rows_cons (s : State) (r : Row) (rest : List Row) :
    s.assign (rowsWrites (r :: rest)) = (s.assign r.writes).assign (rowsWrites rest) := by
  have : rowsWrites (r :: rest) = r.writes.andThen (rowsWrites rest) := by
    have := foldl_andThen (({} : Assigned).andThen r.writes) rest
    simp only [rowsWrites, List.foldl_cons] at this ⊢
    rw [this]
    obtain ⟨a', b', c'⟩ := r.writes
    simp [Assigned.andThen]
  rw [this, assign_andThen]

variable {c : Configuration} {bl : Bool} {op : Byte}

/-- Rows with every call answered OK: all the assignments, all the events. -/
theorem rows_ok {rows : List Row} (h : ∀ r ∈ rows, r.Plays c bl) (k : Nat) (t : State) (hc : t.cfg = c) (hb : t.bl = bl)
    (ha : t.AnswersOk (callCount (rowsEvents rows))) :
    ∃ q, runFrom op k (rows.map Row.act) t = .done (((t.assign (rowsWrites rows)).played (rowsEvents rows)).withSeq q) := by
  induction rows generalizing k t with
  | nil => exact ⟨t.seq, by simp [rowsEvents, rowsWrites]; rfl⟩
  | cons r rest ih =>
    obtain ⟨hp, hr⟩ := h r (by simp)
    rw [rowsEvents, List.flatMap_cons, callCount_append] at ha
    have ho : ((t.pointAt op k).assign r.writes).AnswersOk (callCount r.evs) := fun i hi => ha i (by omega)
    rw [List.map_cons, runFrom_cons, hr (t.pointAt op k) hc hb, play_of_answersOk hp ho, andThen_done]
    obtain ⟨q, hq⟩ := ih (fun x hx => h x (by simp [hx])) (k + 1) (((t.pointAt op k).assign r.writes).played r.evs) hc hb
      (fun i hi => by
        have := ha (callCount r.evs + i) (by simp only [rowsEvents] at hi; omega)
        rw [State.answerAt_played]; exact this)
    refine ⟨q, hq.trans ?_⟩
    rw [assign_rows_cons]
    simp only [rowsEvents, List.flatMap_cons, played_append]
    rfl

/-- Rows whose write number `j` fails: the assignments up to that write's row, and no event after it (R117). -/
theorem rows_fail {rows : List Row} (h : ∀ r ∈ rows, r.Plays c bl) (k : Nat) (t : State) (hc : t.cfg = c)
    (hb : t.bl = bl) {j : Nat} {v : Byte} (hf : t.FailsAt j) (hv : callAt j (rowsEvents rows) = some (.write v)) :
    ∃ q, runFrom op k (rows.map Row.act) t = .raised (.ioError v)
      (((t.assign (rowsWrites (rowsTo rows j))).playedToFailedWrite (rowsEvents rows) j v).withSeq q) := by
  induction rows generalizing k t j with
  | nil => simp [rowsEvents, callAt] at hv
  | cons r rest ih =>
    obtain ⟨hp, hr⟩ := h r (by simp)
    rw [rowsEvents, List.flatMap_cons] at hv
    rw [List.map_cons, runFrom_cons, hr (t.pointAt op k) hc hb]
    by_cases hj : j < callCount r.evs
    · rw [callAt_append_left hj] at hv
      rw [play_of_failsAt hp hv (show ((t.pointAt op k).assign r.writes).FailsAt j from ⟨fun i hi => hf.1 i hi, hf.2⟩),
        andThen_raised]
      refine ⟨.running op k, ?_⟩
      simp only [rowsTo, if_pos hj, rowsEvents, List.flatMap_cons, State.playedToFailedWrite]
      rw [beforeCall_append_left hj, assign_rows_cons]
      rfl
    · obtain ⟨m, rfl⟩ := Nat.exists_eq_add_of_le (Nat.le_of_not_lt hj)
      rw [callAt_append_right] at hv
      have ho : ((t.pointAt op k).assign r.writes).AnswersOk (callCount r.evs) := fun i hi => hf.1 i (by omega)
      have hm : (((t.pointAt op k).assign r.writes).played r.evs).FailsAt m :=
        ⟨fun i hi => by rw [State.answerAt_played]; exact hf.1 (callCount r.evs + i) (by omega),
          by rw [State.answerAt_played]; exact hf.2⟩
      rw [play_of_answersOk hp ho, andThen_done]
      obtain ⟨q, hq⟩ := ih (fun x hx => h x (by simp [hx])) (k + 1)
        (((t.pointAt op k).assign r.writes).played r.evs) hc hb hm hv
      refine ⟨q, hq.trans ?_⟩
      simp only [rowsTo, if_neg hj, Nat.add_sub_cancel_left]
      rw [assign_rows_cons]
      simp only [rowsEvents, List.flatMap_cons, State.playedToFailedWrite]
      rw [beforeCall_append_right, played_append]
      rfl

/-- Rows whose call number `j` is never answered: `seq` points at that call's row (R118, R19). -/
theorem rows_hang {rows : List Row} (h : ∀ r ∈ rows, r.Plays c bl) (k : Nat) (t : State) (hc : t.cfg = c)
    (hb : t.bl = bl) {j : Nat} (hf : t.HangsAt j) (hv : j < callCount (rowsEvents rows)) :
    runFrom op k (rows.map Row.act) t =
      .hung (((t.assign (rowsWrites (rowsTo rows j))).played (beforeCall j (rowsEvents rows))).pointAt op
        (k + (rowsTo rows j).length - 1)) := by
  induction rows generalizing k t j with
  | nil => simp [rowsEvents, callCount] at hv
  | cons r rest ih =>
    obtain ⟨hp, hr⟩ := h r (by simp)
    rw [rowsEvents, List.flatMap_cons, callCount_append] at hv
    rw [List.map_cons, runFrom_cons, hr (t.pointAt op k) hc hb]
    by_cases hj : j < callCount r.evs
    · rw [play_of_hangsAt hp hj (show ((t.pointAt op k).assign r.writes).HangsAt j from ⟨fun i hi => hf.1 i hi, hf.2⟩),
        andThen_hung]
      simp only [rowsTo, if_pos hj, rowsEvents, List.flatMap_cons]
      rw [beforeCall_append_left hj, assign_rows_cons]
      rfl
    · obtain ⟨m, rfl⟩ := Nat.exists_eq_add_of_le (Nat.le_of_not_lt hj)
      have ho : ((t.pointAt op k).assign r.writes).AnswersOk (callCount r.evs) := fun i hi => hf.1 i (by omega)
      have hm : m < callCount (rowsEvents rest) := by simp only [rowsEvents]; omega
      have hh : (((t.pointAt op k).assign r.writes).played r.evs).HangsAt m :=
        ⟨fun i hi => by rw [State.answerAt_played]; exact hf.1 (callCount r.evs + i) (by omega),
          by rw [State.answerAt_played]; exact hf.2⟩
      rw [play_of_answersOk hp ho, andThen_done, ih (fun x hx => h x (by simp [hx])) (k + 1)
        (((t.pointAt op k).assign r.writes).played r.evs) hc hb hh hm]
      have hlen : 1 ≤ (rowsTo rest m).length := by
        cases rest with
        | nil => simp [rowsEvents, callCount] at hm
        | cons x xs => simp only [rowsTo]; split <;> simp
      simp only [rowsTo, if_neg hj, Nat.add_sub_cancel_left, List.length_cons]
      rw [assign_rows_cons]
      simp only [rowsEvents, List.flatMap_cons]
      rw [beforeCall_append_right, played_append]
      have : k + 1 + (rowsTo rest m).length - 1 = k + ((rowsTo rest m).length + 1) - 1 := by omega
      rw [this]
      rfl

/-- S2 to S13 of START as rows (R81). -/
def startRows (c : Configuration) (bl : Bool) : List Row :=
  [⟨InitState.s2PowerOn.action, {}, [.delay .powerOn]⟩,
   ⟨InitState.s3Prime.action, {}, [.write (blBit c bl)]⟩,
   ⟨InitState.s4PrimeWait.action, {}, [.delay .prime]⟩,
   ⟨InitState.s5Sync1.action, {}, nibbleEvents c bl 0x30 0x00 ++ [.delay .sync1]⟩,
   ⟨InitState.s6Sync2.action, {}, nibbleEvents c bl 0x30 0x00 ++ [.delay .sync2]⟩,
   ⟨InitState.s7Sync3.action, {}, nibbleEvents c bl 0x30 0x00 ++ [.delay .sync3]⟩,
   ⟨InitState.s8Commit4.action, {}, nibbleEvents c bl 0x20 0x00⟩,
   ⟨InitState.s9FuncSet.action, { func := some (funcValue c) }, cmdEvents c bl (0x20 ||| funcValue c)⟩,
   ⟨InitState.s10DispCtrl.action, { dctrl := some 0x04 }, cmdEvents c bl 0x0C⟩,
   ⟨InitState.s11Clear.action, {}, clearEvents c bl⟩,
   ⟨InitState.s12Entry.action, { emode := some 0x02 }, cmdEvents c bl 0x06⟩,
   ⟨InitState.s13Home.action, {}, homeEvents c bl⟩]

theorem assign_none (t : State) : t.assign {} = t := rfl

theorem play_then_wait (es : List Event) (d : Delay) (a : Action) (t : State) (ha : a t = play es t) :
    both a (wait d) t = play (es ++ [.delay d]) t := by
  rw [play_append]
  simp only [both, ha]
  cases play es t <;> rfl

theorem startRows_play (c : Configuration) (bl : Bool) : ∀ r ∈ startRows c bl, r.Plays c bl := by
  have hn : ∀ n (t : State), t.cfg = c → t.bl = bl → sendNibble n commandMode t = play (nibbleEvents c bl n 0x00) t := by
    intro n t hc hb; rw [sendNibble_eq_play, hc, hb]; rfl
  have hcmd : ∀ v (t : State), t.cfg = c → t.bl = bl → command v t = play (cmdEvents c bl v) t := by
    intro n t hc hb; rw [command_eq_play, hc, hb]
  simp only [startRows, List.forall_mem_cons, List.not_mem_nil, false_implies, implies_true, and_true]
  refine ⟨⟨rfl, fun t _ _ => rfl⟩, ⟨rfl, fun t hc hb => ?_⟩, ⟨rfl, fun t _ _ => rfl⟩,
    ⟨rfl, fun t hc hb => play_then_wait _ _ _ _ (hn _ t hc hb)⟩,
    ⟨rfl, fun t hc hb => play_then_wait _ _ _ _ (hn _ t hc hb)⟩,
    ⟨rfl, fun t hc hb => play_then_wait _ _ _ _ (hn _ t hc hb)⟩,
    ⟨rfl, fun t hc hb => hn _ t hc hb⟩, ⟨rfl, fun t hc hb => ?_⟩, ⟨rfl, fun t hc hb => ?_⟩,
    ⟨rfl, fun t hc hb => play_then_wait _ _ _ _ (hcmd _ t hc hb)⟩,
    ⟨rfl, fun t hc hb => ?_⟩, ⟨rfl, fun t hc hb => play_then_wait _ _ _ _ (hcmd _ t hc hb)⟩⟩
  · show blOnly t = _
    rw [blOnly_eq_play, hc, hb]; rfl
  · subst hc; exact hcmd _ (t.setFunc (funcValue t.cfg)) rfl hb
  · show command (displayControlByte 0x04) (t.setDctrl 0x04) = play (cmdEvents c bl 0x0C) (t.setDctrl 0x04)
    exact hcmd (displayControlByte 0x04) (t.setDctrl 0x04) hc hb
  · show command (entryModeByte 0x02) (t.setEmode 0x02) = play (cmdEvents c bl 0x06) (t.setEmode 0x02)
    exact hcmd (entryModeByte 0x02) (t.setEmode 0x02) hc hb

theorem startRows_events (c : Configuration) (bl : Bool) :
    startEvents c bl = .acquired c.i2cAddr c.busIndex :: rowsEvents (startRows c bl) := by
  simp [startEvents, handshakeEvents, modeEvents, rowsEvents, startRows]

/-- START is the acquisition and then the rows of S2 to S13. -/
theorem runOf_start (s : State) :
    runOf .start s = finishStart ((acquire (s.pointAt (Instr.opcode .start) 1)).andThen
      (runFrom (Instr.opcode .start) 2 ((startRows s.cfg s.bl).map Row.act))) := rfl

/-! ## Data bytes -/

/-- The data bytes of REGISTER_CHAR as rows (R112). -/
def dataRows (c : Configuration) (bl : Bool) (bytes : List Byte) : List Row :=
  bytes.map fun d => ⟨data d, {}, datEvents c bl d⟩

theorem dataRows_play (c : Configuration) (bl : Bool) (bytes : List Byte) : ∀ r ∈ dataRows c bl bytes, r.Plays c bl := by
  intro r hr
  obtain ⟨d, -, rfl⟩ := List.mem_map.mp hr
  exact ⟨rfl, fun t hc hb => by subst hc hb; exact data_eq_play d t⟩

theorem dataRows_act (c : Configuration) (bl : Bool) (bytes : List Byte) :
    (dataRows c bl bytes).map Row.act = bytes.map data := by
  simp [dataRows]

theorem dataRows_events (c : Configuration) (bl : Bool) (bytes : List Byte) :
    rowsEvents (dataRows c bl bytes) = bytes.flatMap (datEvents c bl) := by
  simp [dataRows, rowsEvents, List.flatMap_map]

theorem rowsWrites_none {rows : List Row} (h : ∀ r ∈ rows, r.writes = {}) : rowsWrites rows = {} := by
  induction rows with
  | nil => rfl
  | cons r rest ih =>
    have h1 := h r (by simp)
    have h2 := ih fun x hx => h x (by simp [hx])
    simp only [rowsWrites, List.foldl_cons, h1] at h2 ⊢
    exact h2

/-- The loop of WRITE with every call answered OK (R113). -/
theorem sendBytes_of_answersOk (op : Byte) (bytes : List Byte) (k n : Nat) (s : State)
    (h : s.AnswersOk (4 * bytes.length)) : ∃ q, sendBytes op k n bytes s =
      (n + bytes.length, .done ((s.played (bytes.flatMap (datEvents s.cfg s.bl))).withSeq q)) := by
  induction bytes generalizing k n s with
  | nil => exact ⟨s.seq, by simp [sendBytes]; rfl⟩
  | cons d rest ih =>
    simp only [sendBytes]
    rw [data_of_answersOk (t := s.pointAt op k) (c := s.cfg) (bl := s.bl) d rfl rfl (fun i hi => h i (by simp; omega))]
    obtain ⟨q, hq⟩ := ih (k + 2) (n + 1) ((s.pointAt op k).played (datEvents s.cfg s.bl d)) (fun i hi => by
      simpa using h (4 + i) (by simp; omega))
    refine ⟨q, hq.trans ?_⟩
    simp only [List.flatMap_cons, played_append, List.length_cons]
    rw [Nat.add_right_comm, Nat.add_assoc]
    rfl

/-- The loop of WRITE when write number `j` fails (R114). -/
theorem sendBytes_of_failsAt (op : Byte) (bytes : List Byte) (k n : Nat) (s : State) (j : Nat) (v : Byte)
    (h : s.FailsAt j) (hv : callAt j (bytes.flatMap (datEvents s.cfg s.bl)) = some (.write v)) :
    ∃ q, sendBytes op k n bytes s = (n + j / 4, .raised (.ioError v)
      ((s.playedToFailedWrite (bytes.flatMap (datEvents s.cfg s.bl)) j v).withSeq q)) := by
  induction bytes generalizing k n s j with
  | nil => simp [callAt] at hv
  | cons d rest ih =>
    simp only [sendBytes]
    rw [List.flatMap_cons] at hv ⊢
    by_cases hj : j < 4
    · rw [callAt_append_left (by exact hj)] at hv
      rw [data_eq_play, play_of_failsAt (k := j) (v := v) rfl (by exact hv)
        ⟨fun i hi => by simpa using h.1 i hi, by simpa using h.2⟩]
      refine ⟨.running op k, ?_⟩
      simp only [State.playedToFailedWrite]
      rw [beforeCall_append_left (by exact hj), Nat.div_eq_of_lt hj]
      rfl
    · obtain ⟨m, rfl⟩ := Nat.exists_eq_add_of_le (Nat.le_of_not_lt hj)
      have hc : callCount (datEvents s.cfg s.bl d) = 4 := rfl
      rw [← hc, callAt_append_right] at hv
      rw [data_of_answersOk (t := s.pointAt op k) (c := s.cfg) (bl := s.bl) d rfl rfl (fun i hi => h.1 i (by omega))]
      obtain ⟨q, hq⟩ := ih (k + 2) (n + 1) ((s.pointAt op k).played (datEvents s.cfg s.bl d)) m ⟨fun i hi => by
        simpa using h.1 (4 + i) (by omega), by simpa using h.2⟩ hv
      refine ⟨q, hq.trans ?_⟩
      simp only [State.playedToFailedWrite]
      rw [show (n + 1 + m / 4) = n + (4 + m) / 4 by omega]
      rw [show 4 + m = callCount (datEvents s.cfg s.bl d) + m from rfl, beforeCall_append_right, played_append]
      rfl

end Sys2Proof.Machine
end

