-- ==== Sys2Proof/Laws/Trace.lean ====
section
/-! SUPPORT. The observations of a trace (rules R80, R134, R135, R145) over appended event lists and over the events of
one nibble. -/

namespace Sys2Proof.Machine

theorem writeCount_append (a b : List Event) : writeCount (a ++ b) = writeCount a + writeCount b := by
  simp [writeCount, writtenBytes_append]

theorem waitCount_append (a b : List Event) : waitCount (a ++ b) = waitCount a + waitCount b := by
  induction a with
  | nil => simp [waitCount]
  | cons e a ih => cases e <;> (simp [waitCount, ih]; try omega)

theorem durationBound_append (t : Timing) (a b : List Event) :
    durationBound t (a ++ b) = durationBound t a + durationBound t b := by
  induction a with
  | nil => simp [durationBound]
  | cons e a ih => cases e <;> (simp [durationBound, ih]; try omega)

theorem durationBound_nibbleEvents (t : Timing) (c : Configuration) (bl : Bool) (n mode : Byte) :
    durationBound t (nibbleEvents c bl n mode) = t.enPw + t.settle := rfl

theorem strobe_append (c : Configuration) (a b : List Event) :
    strobe c (a ++ b) = b.foldl (strobeStep c) (strobe c a) := by simp [strobe]

variable {c : Configuration} {mode : Byte}

/-- One complete nibble is one closed strobe (R134, R135). -/
theorem nibbleEvents_strobe (hl : LinesDisjoint c) (bl : Bool) (n : Byte) (hm : IsMode c mode) :
    (nibbleEvents c bl n mode).foldl (strobeStep c) .rest = .rest := by
  simp only [nibbleEvents, List.foldl_cons, List.foldl_nil, strobeStep, if_neg (strobe_high hl _),
    if_pos (strobe_low (controlByte_en hl bl n hm)).symm]

/-- One complete nibble is latched once, with the register-select line of its mode (R80). -/
theorem latchedFrom_nibbleEvents (hl : LinesDisjoint c) (bl : Bool) (n : Byte) (hm : IsMode c mode) (rest : List Event) :
    latchedFrom c none (nibbleEvents c bl n mode ++ rest) =
      (mode != 0, n.extractLsb' 4 4) :: latchedFrom c none rest := by
  have hen := controlByte_en hl bl n hm
  have hrs : (controlByte c bl n mode ||| c.enMask) &&& c.rsMask = mode := by
    rw [strobe_and hl.en_rs, controlByte_rs hl bl n hm]
  have hnib : (controlByte c bl n mode ||| c.enMask).extractLsb' 4 4 = n.extractLsb' 4 4 := by
    rw [BitVec.extractLsb'_or, controlByte_nibble hl bl n hm, hl.en_high]; simp
  simp only [nibbleEvents, List.cons_append, List.nil_append, latchedFrom, if_neg (strobe_high hl _),
    if_pos (strobe_low hen).symm, if_pos hen, hrs, hnib]

/-- The nibbles of the two halves of a byte (R61). -/
theorem nibbles_of_halves (v : Byte) :
    (v &&& 0xF0).extractLsb' 4 4 = v.extractLsb' 4 4 ∧ ((v <<< 4) &&& 0xF0).extractLsb' 4 4 = v.extractLsb' 0 4 := by
  revert v; decide

/-- A complete byte is latched as its two nibbles, high first (R80, R36). -/
theorem latchedFrom_transmitEvents (hl : LinesDisjoint c) (bl : Bool) (v : Byte) (hm : IsMode c mode) (rest : List Event) :
    latchedFrom c none (transmitEvents c bl v mode ++ rest) =
      (mode != 0, v.extractLsb' 4 4) :: (mode != 0, v.extractLsb' 0 4) :: latchedFrom c none rest := by
  rw [transmitEvents, List.append_assoc, latchedFrom_nibbleEvents hl bl _ hm, latchedFrom_nibbleEvents hl bl _ hm,
    (nibbles_of_halves v).1, (nibbles_of_halves v).2]

end Sys2Proof.Machine
end

