-- ==== Sys2Proof/Machine/Assembler.lean ====
section
/-! DEFINITION. The assembler syntax of rule R57: from a line of text to the request it writes. No step of the machine
reads text; the programs of the spec's test vectors are written in this syntax. -/

namespace Sys2Proof.Machine

/-- A token of a line. -/
inductive Token where
  | word (cs : List Char)
  | text (cs : List Char)
  | comma
  | opening
  | closing
deriving DecidableEq, Repr

/-- Where the lexer stands: between tokens, inside a word, or inside a quoted text. -/
inductive Lexer where
  | gap
  | inWord (cs : List Char)
  | inText (cs : List Char)
deriving DecidableEq, Repr

/-- The word that ends here, if the lexer is inside one. -/
def Lexer.flush : Lexer → List Token
  | .gap => []
  | .inWord cs => [.word cs]
  | .inText cs => [.text cs]

/-- One character outside a text: the tokens it ends and where the lexer stands then; `none` when it starts a comment. -/
def Lexer.outside (l : Lexer) (c : Char) : List Token × Option Lexer :=
  if c = ';' then (l.flush, none)
  else if c = ' ' ∨ c = '\t' then (l.flush, some .gap)
  else if c = ',' then (l.flush ++ [.comma], some .gap)
  else if c = '[' then (l.flush ++ [.opening], some .gap)
  else if c = ']' then (l.flush ++ [.closing], some .gap)
  else if c = '"' then (l.flush, some (.inText []))
  else match l with
    | .inWord cs => ([], some (.inWord (cs ++ [c])))
    | _ => ([], some (.inWord [c]))

/-- One character. A `;` outside a text starts a comment (R57); inside a text it is a character of the text (log entry
17). -/
def Lexer.next (l : Lexer) (c : Char) : List Token × Option Lexer :=
  match l with
  | .inText cs => if c = '"' then ([.text cs], some .gap) else ([], some (.inText (cs ++ [c])))
  | .gap => Lexer.outside .gap c
  | .inWord cs => Lexer.outside (.inWord cs) c

/-- The tokens of a line; `none` for a text that does not end. -/
def lex : List Char → Lexer → Option (List Token)
  | [], .inText _ => none
  | [], .gap => some []
  | [], .inWord cs => some [.word cs]
  | c :: rest, l =>
    match l.next c with
    | (ts, none) => some ts
    | (ts, some l') => (lex rest l').map (ts ++ ·)

/-- The value of a digit in base 10 or 16. -/
def digit (base : Nat) (c : Char) : Option Nat :=
  let n := c.toNat
  if 0x30 ≤ n ∧ n ≤ 0x39 then some (n - 0x30)
  else if base = 16 ∧ 0x41 ≤ n ∧ n ≤ 0x46 then some (n - 0x41 + 10)
  else if base = 16 ∧ 0x61 ≤ n ∧ n ≤ 0x66 then some (n - 0x61 + 10)
  else none

/-- A sequence of digits, most significant first, after `acc`. -/
def digits (base acc : Nat) : List Char → Option Nat
  | [] => some acc
  | c :: rest =>
    match digit base c with
    | some d => digits base (base * acc + d) rest
    | none => none

/-- "Integers are decimal (optionally negative) or `0x`-hex" (R57). -/
def integer : List Char → Option Int
  | '0' :: 'x' :: d :: rest => (digits 16 0 (d :: rest)).map Int.ofNat
  | '-' :: d :: rest => (digits 10 0 (d :: rest)).map fun n => -(Int.ofNat n)
  | d :: rest => (digits 10 0 (d :: rest)).map Int.ofNat
  | [] => none

/-- An `int32` operand (R51, R52). -/
def int32Operand (cs : List Char) : Option Int :=
  match integer cs with
  | some x => if isInt32 x then some x else none
  | none => none

/-- A byte operand. -/
def byteOperand (cs : List Char) : Option Byte :=
  match integer cs with
  | some x => if 0 ≤ x ∧ x < 256 then some (BitVec.ofInt 8 x) else none
  | none => none

/-- "each character of `<text>` stands for its ASCII byte" (R57). -/
def asciiBytes : List Char → Option (List Byte)
  | [] => some []
  | c :: rest => if c.toNat < 128 then (asciiBytes rest).map (BitVec.ofNat 8 c.toNat :: ·) else none

/-- The rest of a bracketed byte list after its first byte: `, <b> … ]`, and nothing after it. -/
def bytesTail : List Token → Option (List Byte)
  | [.closing] => some []
  | .comma :: .word w :: rest =>
    match byteOperand w, bytesTail rest with
    | some b, some bs => some (b :: bs)
    | _, _ => none
  | _ => none

/-- A bracketed byte list. -/
def byteList : List Token → Option (List Byte)
  | [.opening, .closing] => some []
  | .opening :: .word w :: rest =>
    match byteOperand w, bytesTail rest with
    | some b, some bs => some (b :: bs)
    | _, _ => none
  | _ => none

/-- A format-N request by its mnemonic (R55). -/
def mnemonicN (m : List Char) : Option Instr :=
  match opMap.find? fun row => row.format == .N && row.mnemonic.toList == m with
  | some row => decodeN row.op
  | none => none

/-- The request a line's tokens write (R57); a line with no token writes none. -/
def assembleTokens : List Token → Option (Option Instr)
  | [] => some none
  | [.word m] => (mnemonicN m).map some
  | .word m :: .word a :: .comma :: rest =>
    if m = "SET_CURSOR".toList then
      match rest with
      | [.word b] =>
        match int32Operand a, int32Operand b with
        | some col, some row => some (some (.setCursor col row))
        | _, _ => none
      | _ => none
    else if m = "REGISTER_CHAR".toList then
      match int32Operand a, byteList rest with
      | some slot, some [b0, b1, b2, b3, b4, b5, b6, b7] =>
        some (some (.registerChar slot ⟨b0, b1, b2, b3, b4, b5, b6, b7⟩))
      | _, _ => none
    else none
  | [.word m, .text cs] => if m = "WRITE".toList then (asciiBytes cs).map fun bs => some (.write bs) else none
  | .word m :: .opening :: rest =>
    if m = "WRITE".toList then (byteList (.opening :: rest)).map fun bs => some (.write bs) else none
  | _ => none

/-- One line of a program: `some none` for a blank line or a comment, `none` for a line that writes no request. -/
def assembleLine (line : String) : Option (Option Instr) :=
  match lex line.toList .gap with
  | some ts => assembleTokens ts
  | none => none

/-- A program, one request per line (R57). -/
def assemble : List String → Option (List Instr)
  | [] => some []
  | line :: rest =>
    match assembleLine line, assemble rest with
    | some (some i), some is => some (i :: is)
    | some none, some is => some is
    | _, _ => none

end Sys2Proof.Machine
end

