-- ==== Sys2Proof/Tests/Slice0.lean ====
section
/-! SUPPORT. The model's own tests: ill-formed requests refused, words of the opcode map decoded, single steps against the
vectors of spec/95_test_vectors.md, and for every statement with hypotheses a state that meets them. -/

namespace Sys2Proof.Tests.Slice0

open Sys2Proof Sys2Proof.Machine

/-! ## WellFormed (R12, R51, R52): one ill-formed term for each check -/

theorem test_wf_column_above_int32 : (Instr.setCursor 2147483648 0).wellFormed = false := by decide
theorem test_wf_column_below_int32 : (Instr.setCursor (-2147483649) 0).wellFormed = false := by decide
theorem test_wf_row_above_int32 : (Instr.setCursor 0 2147483648).wellFormed = false := by decide
theorem test_wf_row_below_int32 : (Instr.setCursor 0 (-2147483649)).wellFormed = false := by decide
theorem test_wf_slot_above_int32 : (Instr.registerChar 2147483648 ⟨0, 0, 0, 0, 0, 0, 0, 0⟩).wellFormed = false := by decide
theorem test_wf_slot_below_int32 : (Instr.registerChar (-2147483649) ⟨0, 0, 0, 0, 0, 0, 0, 0⟩).wellFormed = false := by
  decide
theorem test_wf_boundaries : (Instr.setCursor 2147483647 (-2147483648)).wellFormed = true := by decide

/-! ## Decoding: the word of every row of R55's map, written out -/

theorem test_decode_lifecycle :
    decodeTableWord 8 0b00000001 = some .start ∧
    decodeTableWord 8 0b00000010 = some .stop := by decide
theorem test_decode_display_low :
    decodeTableWord 8 0b00010000 = some .clear ∧
    decodeTableWord 8 0b00010001 = some .home ∧
    decodeTableWord 8 0b00010010 = some .displayOn ∧
    decodeTableWord 8 0b00010011 = some .displayOff ∧
    decodeTableWord 8 0b00010100 = some .backlightOn ∧
    decodeTableWord 8 0b00010101 = some .backlightOff ∧
    decodeTableWord 8 0b00010110 = some .underlineOn ∧
    decodeTableWord 8 0b00010111 = some .underlineOff := by decide
theorem test_decode_display_high :
    decodeTableWord 8 0b00011000 = some .blinkOn ∧
    decodeTableWord 8 0b00011001 = some .blinkOff ∧
    decodeTableWord 8 0b00011010 = some .shiftLeft ∧
    decodeTableWord 8 0b00011011 = some .shiftRight ∧
    decodeTableWord 8 0b00011100 = some .leftToRight ∧
    decodeTableWord 8 0b00011101 = some .rightToLeft ∧
    decodeTableWord 8 0b00011110 = some .autoscrollOn ∧
    decodeTableWord 8 0b00011111 = some .autoscrollOff := by decide
theorem test_decode_operand_formats :
    decodeTableWord 8 0b00100000 = some (.setCursor 0 0) ∧
    decodeTableWord 8 0b00110000 = some (.registerChar 0 ⟨0, 0, 0, 0, 0, 0, 0, 0⟩) ∧
    decodeTableWord 8 0b01000000 = some (.write []) := by decide

/-- R51, R52: operands are two's-complement 32-bit words. -/
theorem test_decode_operands :
    decode { op := 0x20, a := 0x80000000, b := 0x7FFFFFFF } = .ok (.setCursor (-2147483648) 2147483647) ∧
    decode { op := 0x30, a := 0xFFFFFFFF, bm := ⟨1, 2, 3, 4, 5, 6, 7, 8⟩ } =
      .ok (.registerChar (-1) ⟨1, 2, 3, 4, 5, 6, 7, 8⟩) := by decide

/-- R49, R50: a format-N request ignores every operand field. -/
theorem test_decode_ignores_other_fields :
    decode { op := 0x10, a := 5, b := 6, bm := ⟨1, 1, 1, 1, 1, 1, 1, 1⟩, data := [7] } = .ok .clear := by decide

/-- R56: both ends of every reserved range. -/
theorem test_decode_reserved :
    [0x00, 0x03, 0x0F, 0x21, 0x2F, 0x31, 0x3F, 0x41, 0xFF].all (fun w => decodeTableWord 8 w == none) = true := by decide

/-! ## R57: the programs PRG-1 and PRG-2 of the spec as text -/

theorem test_assemble_text :
    assemble ["START", "CLEAR", "SET_CURSOR 0, 0", "WRITE \"Hello\"",
      "SET_CURSOR 3, 1          ; row 1 base 0x40, addr 0x43", "WRITE \"ok\""] =
    some [.start, .clear, .setCursor 0 0, .write [0x48, 0x65, 0x6C, 0x6C, 0x6F], .setCursor 3 1, .write [0x6F, 0x6B]] := by
  decide

theorem test_assemble_glyph :
    assemble ["REGISTER_CHAR 9, [0x00, 0x0A, 0x1F, 0x1F, 0x0E, 0x04, 0x00, 0x00]   ; slot wraps to 1",
      "SET_CURSOR -1, -7", "WRITE [1]", "WRITE []"] =
    some [.registerChar 9 ⟨0x00, 0x0A, 0x1F, 0x1F, 0x0E, 0x04, 0x00, 0x00⟩, .setCursor (-1) (-7), .write [0x01],
      .write []] := by decide

theorem test_assemble_refuses :
    assembleLine "CLEAR 1" = none ∧ assembleLine "SET_CURSOR 3" = none ∧ assembleLine "WRITE [256]" = none ∧
    assembleLine "REGISTER_CHAR 1, [1, 2]" = none ∧ assembleLine "NOP" = none := by decide

/-! ## Single steps against the spec's vectors -/

/-- A configuration with the default masks and the standard delays. -/
def config (cols rows : Nat) (dots : DotSize) : Configuration :=
  { cols := cols, rows := rows, dotSize := dots, timing := standardConfiguration.timing }

/-- The reset state of a configuration, with the byte-sink's answers listed. -/
def fresh (c : Configuration) (answers : List SinkAnswer) : State := { State.reset with cfg := c, answers := answers }

/-- The post-START state of spec/95 for 16×2, with `DCTRL`, `EMODE` and `BL` as given and the answers listed. -/
def ready (d e : Byte) (bl : Bool) (answers : List SinkAnswer) : State :=
  { State.reset with
    phase := .ready, func := 0x08, dctrl := d, emode := e, bl := bl, conn := true, exp := 0x28, answers := answers }

/-- `n` calls answered OK. -/
def oks (n : Nat) : List SinkAnswer := List.replicate n .ok

/-- `n` calls answered OK, the next failed, then `m` more answered OK. -/
def failAfter (n m : Nat) : List SinkAnswer := oks n ++ [.fail] ++ oks m

/-- What a vector of spec/95 states of an outcome: the bytes written, the number of waits, the responses, and the end
values of the registers. -/
structure Seen where
  writes : List Byte
  waits : Nat
  responses : List Response
  phase : Phase
  func : Byte
  dctrl : Byte
  emode : Byte
  bl : Bool
  conn : Bool
deriving DecidableEq, Repr

/-- What is seen of an outcome with a next state. -/
def seen (o : Outcome) : Option Seen :=
  match o with
  | .next t => some ⟨writtenBytes t.trace, waitCount t.trace, t.responses, t.phase, t.func, t.dctrl, t.emode, t.bl, t.conn⟩
  | .fault _ => none
  | .refused _ => none

/-- V-START-1, through the port: the step runs the record of word 0x01. -/
theorem test_start : seen (step ((fresh standardConfiguration (oks 30)).withFetchWord 8 0x01)) =
    some ⟨[0x08, 0x3C, 0x38, 0x3C, 0x38, 0x3C, 0x38, 0x2C, 0x28, 0x2C, 0x28, 0x8C, 0x88, 0x0C, 0x08, 0xCC, 0xC8, 0x0C, 0x08, 0x1C, 0x18, 0x0C, 0x08, 0x6C, 0x68, 0x0C, 0x08, 0x2C, 0x28],
      35, [{ status := .ok }], .ready, 0x08, 0x04, 0x02, true, true⟩ := by decide +kernel

/-- V-START-7, failing write 10. -/
theorem test_start_write_ten_fails : seen (exec .start (fresh standardConfiguration (failAfter 10 0))) =
    some ⟨[0x08, 0x3C, 0x38, 0x3C, 0x38, 0x3C, 0x38, 0x2C, 0x28, 0x2C],
      13, [{ status := .err, errs := [.ioError 0x2C] }], .failed, 0x08, 0x00, 0x00, true, true⟩ := by decide +kernel

/-- PRG-3, request 9: STOP from DCTRL = 0x07, EMODE = 0x01 keeps blink. -/
theorem test_stop : seen (exec .stop (ready 0x07 0x01 true (oks 13))) =
    some ⟨[0x0C, 0x08, 0x1C, 0x18, 0x00, 0x04, 0x00, 0xD4, 0xD0, 0x04, 0x00, 0x94, 0x90],
      13, [{ status := .ok }], .ready, 0x08, 0x01, 0x01, false, true⟩ := by decide +kernel

/-- PRG-5, request 4: writes 1 and 9 of STOP fail. -/
theorem test_stop_two_steps_fail : seen (exec .stop (ready 0x04 0x02 true ([.fail] ++ failAfter 7 0))) =
    some ⟨[0x0C, 0x00, 0x04, 0x00, 0xC4, 0xC0, 0x04, 0x00, 0x84],
      6, [{ status := .err, errs := [.ioError 0x0C, .ioError 0x84] }], .ready, 0x08, 0x00, 0x02, false, true⟩ := by decide +kernel

/-- R92's example. -/
theorem test_clear : seen (exec .clear (ready 0x04 0x02 true (oks 4))) =
    some ⟨[0x0C, 0x08, 0x1C, 0x18],
      5, [{ status := .ok }], .ready, 0x08, 0x04, 0x02, true, true⟩ := by decide +kernel

/-- V-DC-21: no T_CLEAR_HOME wait. -/
theorem test_clear_write_four_fails : seen (exec .clear (ready 0x04 0x02 true (failAfter 3 0))) =
    some ⟨[0x0C, 0x08, 0x1C, 0x18],
      3, [{ status := .err, errs := [.ioError 0x18] }], .ready, 0x08, 0x04, 0x02, true, true⟩ := by decide +kernel

/-- R93's example. -/
theorem test_home : seen (exec .home (ready 0x04 0x02 true (oks 4))) =
    some ⟨[0x0C, 0x08, 0x2C, 0x28],
      5, [{ status := .ok }], .ready, 0x08, 0x04, 0x02, true, true⟩ := by decide +kernel

/-- V-DC-17: the bit is already set. -/
theorem test_displayOn : seen (exec .displayOn (ready 0x07 0x02 true (oks 4))) =
    some ⟨[0x0C, 0x08, 0xFC, 0xF8],
      4, [{ status := .ok }], .ready, 0x08, 0x07, 0x02, true, true⟩ := by decide +kernel

/-- R95's example. -/
theorem test_displayOff : seen (exec .displayOff (ready 0x04 0x02 true (oks 4))) =
    some ⟨[0x0C, 0x08, 0x8C, 0x88],
      4, [{ status := .ok }], .ready, 0x08, 0x00, 0x02, true, true⟩ := by decide +kernel

/-- R96's example. -/
theorem test_backlightOn : seen (exec .backlightOn (ready 0x04 0x02 false (oks 1))) =
    some ⟨[0x08],
      0, [{ status := .ok }], .ready, 0x08, 0x04, 0x02, true, true⟩ := by decide +kernel

/-- V-DC-22. -/
theorem test_backlightOn_fails : seen (exec .backlightOn (ready 0x04 0x02 true (failAfter 0 0))) =
    some ⟨[0x08],
      0, [{ status := .err, errs := [.ioError 0x08] }], .ready, 0x08, 0x04, 0x02, true, true⟩ := by decide +kernel

/-- R97's example. -/
theorem test_backlightOff : seen (exec .backlightOff (ready 0x04 0x02 true (oks 1))) =
    some ⟨[0x00],
      0, [{ status := .ok }], .ready, 0x08, 0x04, 0x02, false, true⟩ := by decide +kernel

/-- V-DC-7. -/
theorem test_underlineOn : seen (exec .underlineOn (ready 0x04 0x02 true (oks 4))) =
    some ⟨[0x0C, 0x08, 0xEC, 0xE8],
      4, [{ status := .ok }], .ready, 0x08, 0x06, 0x02, true, true⟩ := by decide +kernel

/-- V-DC-20. -/
theorem test_underlineOn_write_three_fails : seen (exec .underlineOn (ready 0x04 0x02 true (failAfter 2 0))) =
    some ⟨[0x0C, 0x08, 0xEC],
      2, [{ status := .err, errs := [.ioError 0xEC] }], .ready, 0x08, 0x06, 0x02, true, true⟩ := by decide +kernel

/-- V-SRC-8, from DCTRL = 0x07. -/
theorem test_underlineOff : seen (exec .underlineOff (ready 0x07 0x02 true (oks 4))) =
    some ⟨[0x0C, 0x08, 0xDC, 0xD8],
      4, [{ status := .ok }], .ready, 0x08, 0x05, 0x02, true, true⟩ := by decide +kernel

/-- V-DC-18: with the backlight off. -/
theorem test_blinkOn : seen (exec .blinkOn (ready 0x04 0x02 false (oks 4))) =
    some ⟨[0x04, 0x00, 0xD4, 0xD0],
      4, [{ status := .ok }], .ready, 0x08, 0x05, 0x02, false, true⟩ := by decide +kernel

/-- R101's example. -/
theorem test_blinkOff : seen (exec .blinkOff (ready 0x05 0x02 true (oks 4))) =
    some ⟨[0x0C, 0x08, 0xCC, 0xC8],
      4, [{ status := .ok }], .ready, 0x08, 0x04, 0x02, true, true⟩ := by decide +kernel

/-- V-DC-11. -/
theorem test_shiftLeft : seen (exec .shiftLeft (ready 0x04 0x02 true (oks 4))) =
    some ⟨[0x1C, 0x18, 0x8C, 0x88],
      4, [{ status := .ok }], .ready, 0x08, 0x04, 0x02, true, true⟩ := by decide +kernel

/-- V-DC-12. -/
theorem test_shiftRight : seen (exec .shiftRight (ready 0x04 0x02 true (oks 4))) =
    some ⟨[0x1C, 0x18, 0xCC, 0xC8],
      4, [{ status := .ok }], .ready, 0x08, 0x04, 0x02, true, true⟩ := by decide +kernel

/-- V-DC-23, from EMODE = 0x01. -/
theorem test_leftToRight : seen (exec .leftToRight (ready 0x04 0x01 true (oks 4))) =
    some ⟨[0x0C, 0x08, 0x7C, 0x78],
      4, [{ status := .ok }], .ready, 0x08, 0x04, 0x03, true, true⟩ := by decide +kernel

/-- V-DC-14. -/
theorem test_rightToLeft : seen (exec .rightToLeft (ready 0x04 0x02 true (oks 4))) =
    some ⟨[0x0C, 0x08, 0x4C, 0x48],
      4, [{ status := .ok }], .ready, 0x08, 0x04, 0x00, true, true⟩ := by decide +kernel

/-- PRG-3, request 5, from EMODE = 0x00. -/
theorem test_autoscrollOn : seen (exec .autoscrollOn (ready 0x04 0x00 true (oks 4))) =
    some ⟨[0x0C, 0x08, 0x5C, 0x58],
      4, [{ status := .ok }], .ready, 0x08, 0x04, 0x01, true, true⟩ := by decide +kernel

/-- R107's example. -/
theorem test_autoscrollOff : seen (exec .autoscrollOff (ready 0x04 0x03 true (oks 4))) =
    some ⟨[0x0C, 0x08, 0x6C, 0x68],
      4, [{ status := .ok }], .ready, 0x08, 0x04, 0x02, true, true⟩ := by decide +kernel

/-- V-CUR-8: both operands one past the last cell. -/
theorem test_setCursor : seen (exec (.setCursor 16 2) (ready 0x04 0x02 true (oks 4))) =
    some ⟨[0xCC, 0xC8, 0xFC, 0xF8],
      4, [{ status := .ok }], .ready, 0x08, 0x04, 0x02, true, true⟩ := by decide +kernel

/-- V-CUR-7. -/
theorem test_setCursor_most_negative : seen (exec (.setCursor (-2147483648) (-2147483648)) (ready 0x04 0x02 true (oks 4))) =
    some ⟨[0x8C, 0x88, 0x0C, 0x08],
      4, [{ status := .ok }], .ready, 0x08, 0x04, 0x02, true, true⟩ := by decide +kernel

/-- V-GLY-9: slot 9 wraps to 1. -/
theorem test_registerChar : seen (exec (.registerChar 9 ⟨0x00, 0x0A, 0x1F, 0x1F, 0x0E, 0x04, 0x00, 0x00⟩) (ready 0x04 0x02 true (oks 36))) =
    some ⟨[0x4C, 0x48, 0x8C, 0x88, 0x0D, 0x09, 0x0D, 0x09, 0x0D, 0x09, 0xAD, 0xA9, 0x1D, 0x19, 0xFD, 0xF9, 0x1D, 0x19, 0xFD, 0xF9, 0x0D, 0x09, 0xED, 0xE9, 0x0D, 0x09, 0x4D, 0x49, 0x0D, 0x09, 0x0D, 0x09, 0x0D, 0x09, 0x0D, 0x09],
      36, [{ status := .ok, code := 1 }], .ready, 0x08, 0x04, 0x02, true, true⟩ := by decide +kernel

/-- V-GLY-11. -/
theorem test_registerChar_write_fifteen_fails : seen (exec (.registerChar 9 ⟨0x00, 0x0A, 0x1F, 0x1F, 0x0E, 0x04, 0x00, 0x00⟩) (ready 0x04 0x02 true (failAfter 14 0))) =
    some ⟨[0x4C, 0x48, 0x8C, 0x88, 0x0D, 0x09, 0x0D, 0x09, 0x0D, 0x09, 0xAD, 0xA9, 0x1D, 0x19, 0xFD],
      14, [{ status := .err, errs := [.ioError 0xFD] }], .ready, 0x08, 0x04, 0x02, true, true⟩ := by decide +kernel

/-- V-WR-10: "Hi" with the backlight off. -/
theorem test_write : seen (exec (.write [0x48, 0x69]) (ready 0x04 0x02 false (oks 8))) =
    some ⟨[0x45, 0x41, 0x85, 0x81, 0x65, 0x61, 0x95, 0x91],
      8, [{ status := .ok, count := 2 }], .ready, 0x08, 0x04, 0x02, false, true⟩ := by decide +kernel

/-- V-WR-8. -/
theorem test_write_write_six_fails : seen (exec (.write [0x48, 0x49]) (ready 0x04 0x02 true (failAfter 5 0))) =
    some ⟨[0x4D, 0x49, 0x8D, 0x89, 0x4D, 0x49],
      5, [{ status := .err, count := 1, errs := [.ioError 0x49] }], .ready, 0x08, 0x04, 0x02, true, true⟩ := by decide +kernel

/-- R118, R19: the byte-sink never answers START's first write; the block is stuck in init state S3, and the next step
has no next state. -/
theorem test_hang :
    (match exec .start (fresh standardConfiguration [.ok, .never]) with
      | .next t => t.seq = .running 0x01 3 ∧ t.responses = [] ∧ step t = .fault (.hung 0x01 3)
      | _ => False) := by
  exact ⟨by decide +kernel, by decide +kernel, rfl⟩

/-- R119: CLEAR before START, and START after START, are refused. -/
theorem test_refusals :
    exec .clear (fresh standardConfiguration []) = .refused (.notAdmitted 0x10 .unstarted) ∧
    exec .start (ready 0x04 0x02 true []) = .refused (.notAdmitted 0x01 .ready) := ⟨rfl, rfl⟩

/-! ## Witnesses: for each statement with hypotheses, states and operands that meet them -/

theorem answersOk_of_script {s : State} {n : Nat} (h : s.answers = oks n) : s.AnswersOk n := by
  intro i hi
  simp [State.answerAt, h, oks, hi]

theorem failsAt_of_script {s : State} {n : Nat} (h : s.answers = failAfter n 0) : s.FailsAt n := by
  refine ⟨fun i hi => ?_, ?_⟩
  · simp [State.answerAt, h, failAfter, oks, List.getElem?_append, hi]
  · simp [State.answerAt, h, failAfter, oks]

theorem hangsAt_of_script {s : State} {n : Nat} (h : s.answers = oks n ++ [.never]) : s.HangsAt n := by
  refine ⟨fun i hi => ?_, ?_⟩
  · simp [State.answerAt, h, oks, List.getElem?_append, hi]
  · simp [State.answerAt, h, oks]

/-- The post-START state with `n` calls answered OK. -/
abbrev readyOk (n : Nat) : State := ready 0x04 0x02 true (oks n)

theorem witness_ReservedOpcodesAreRefused :
    ({ State.reset with port := [{ op := 0x41 }] } : State).port = { op := 0x41 } :: [] ∧ formatOf 0x41 = none ∧
    formatOf 0x00 = none ∧ formatOf 0x03 = none ∧ formatOf 0x0F = none ∧ formatOf 0x21 = none ∧ formatOf 0x2F = none ∧
    formatOf 0x31 = none ∧ formatOf 0x3F = none ∧ formatOf 0xFF = none := by
  exact ⟨rfl, by decide, by decide, by decide, by decide, by decide, by decide, by decide, by decide, by decide⟩

theorem witness_DecodeReadsOnlyTheFieldsOfItsFormat :
    formatOf 0x20 = some .C ∧ formatOf 0x30 = some .G ∧ formatOf 0x40 = some .S ∧ formatOf 0x10 = some .N ∧
    (⟨0x20, 1, 2, ⟨0, 0, 0, 0, 0, 0, 0, 0⟩, []⟩ : Request) ≠ ⟨0x20, 1, 2, ⟨9, 0, 0, 0, 0, 0, 0, 0⟩, [3]⟩ := by decide

theorem witness_DecodeOfEncodeIsTheRequest :
    (Instr.setCursor (-2147483648) 2147483647).wellFormed = true ∧
    (Instr.registerChar (-1) ⟨1, 2, 3, 4, 5, 6, 7, 8⟩).wellFormed = true ∧ (Instr.write [0xFF]).wellFormed = true := by
  decide

theorem witness_DecodedRequestsAreWellFormed :
    decode { op := 0x20, a := 0xFFFFFFFF, b := 5 } = .ok (.setCursor (-1) 5) ∧
    decode { op := 0x30, a := 9, bm := ⟨1, 2, 3, 4, 5, 6, 7, 8⟩ } = .ok (.registerChar 9 ⟨1, 2, 3, 4, 5, 6, 7, 8⟩) ∧
    decode { op := 0x40, data := [1] } = .ok (.write [1]) ∧ decode { op := 0x01 } = .ok .start := by decide

theorem witness_StepRunsTheDecodedRequest :
    ({ State.reset with port := [{ op := 0x01 }] } : State).port = { op := 0x01 } :: [] ∧
    decode { op := 0x01 } = .ok .start := ⟨rfl, by decide⟩

theorem witness_WithoutARequestNothingRuns :
    (State.reset.port = [] ∧ State.reset.seq = .idle) ∧
    ((State.reset.pointAt 0x01 3).port = [] ∧ (State.reset.pointAt 0x01 3).seq = .running 0x01 3) :=
  ⟨⟨rfl, rfl⟩, rfl, rfl⟩

theorem witness_AdmissionFollowsTheTable :
    State.reset.Serves .unstarted ∧ (readyOk 0).Serves .ready ∧
    (State.reset.seq = .idle ∧ State.reset.phase ≠ .ready) ∧
    (State.reset.pointAt 0x01 3).seq = .running 0x01 3 := ⟨⟨rfl, rfl⟩, ⟨rfl, rfl⟩, ⟨rfl, by decide⟩, rfl⟩

/-- R10: the largest column count of each row count, and one more; no row, five rows, no column. -/
theorem witness_ConstructionGivesTheResetValues :
    (config 128 1 .dots5x8).valid = true ∧ (config 129 1 .dots5x8).valid = false ∧
    (config 64 2 .dots5x8).valid = true ∧ (config 65 2 .dots5x8).valid = false ∧
    (config 64 3 .dots5x8).valid = true ∧ (config 65 3 .dots5x8).valid = false ∧
    (config 44 4 .dots5x10).valid = true ∧ (config 45 4 .dots5x10).valid = false ∧
    (config 16 0 .dots5x8).valid = false ∧ (config 16 5 .dots5x8).valid = false ∧
    (config 0 2 .dots5x8).valid = false := by decide

theorem witness_ExpWriteFollowsTheByteSink :
    (ready 0 0 true [.ok]).answerAt 0 = .ok ∧ (ready 0 0 true [.fail]).answerAt 0 = .fail ∧
    (ready 0 0 true [.never]).answerAt 0 = .never := ⟨rfl, rfl, rfl⟩

theorem witness_AcquireFollowsTheByteSink :
    (fresh standardConfiguration [.ok]).answerAt 0 = .ok ∧ (fresh standardConfiguration [.fail]).answerAt 0 = .fail ∧
    (fresh standardConfiguration [.never]).answerAt 0 = .never := ⟨rfl, rfl, rfl⟩

theorem witness_SendNibbleStrobesOnce :
    (readyOk 2).AnswersOk 2 ∧ (ready 0 0 true (failAfter 0 0)).FailsAt 0 ∧ (ready 0 0 true (failAfter 1 0)).FailsAt 1 :=
  ⟨answersOk_of_script rfl, failsAt_of_script rfl, failsAt_of_script rfl⟩

theorem witness_TransmitWritesHighNibbleFirst : (readyOk 4).AnswersOk 4 := answersOk_of_script rfl

/-- The valid configurations that CursorAddressIsClampedAndFits speaks of. -/
theorem witness_validConfiguration : standardConfiguration.valid = true ∧ (config 20 4 .dots5x8).valid = true := by decide

theorem witness_TransmitLatchesTheTwoNibbles : (readyOk 4).cfg.valid = true ∧ (readyOk 4).AnswersOk 4 :=
  ⟨by decide, answersOk_of_script rfl⟩

theorem witness_StartHandshakeOrder :
    (fresh (config 8 1 .dots5x10) (oks 30)).Serves .unstarted ∧
    (fresh (config 8 1 .dots5x10) (oks 30)).cfg.valid = true ∧
    (fresh (config 8 1 .dots5x10) (oks 30)).AnswersOk 30 := ⟨⟨rfl, rfl⟩, by decide, answersOk_of_script rfl⟩

theorem witness_StartInitialisesTheController :
    (fresh standardConfiguration (oks 30)).Serves .unstarted ∧ (fresh standardConfiguration (oks 30)).AnswersOk 30 :=
  ⟨⟨rfl, rfl⟩, answersOk_of_script rfl⟩

theorem witness_FunctionSetFollowsTheGeometry :
    1 < (config 16 2 .dots5x10).rows ∧ ((config 8 1 .dots5x10).rows = 1 ∧ (config 8 1 .dots5x10).dotSize = .dots5x10) ∧
    ((config 8 1 .dots5x8).rows = 1 ∧ (config 8 1 .dots5x8).dotSize = .dots5x8) := by decide

theorem witness_StartAcquisitionFailure :
    (fresh standardConfiguration (failAfter 0 0)).Serves .unstarted ∧
    (fresh standardConfiguration (failAfter 0 0)).FailsAt 0 := ⟨⟨rfl, rfl⟩, failsAt_of_script rfl⟩

/-- The first write, the writes where a register becomes assigned (9, 13, 21) and the write before each, and the last. -/
theorem witness_StartWriteFailure :
    (∀ k, (fresh standardConfiguration (failAfter (k + 1) 0)).Serves .unstarted ∧
      (fresh standardConfiguration (failAfter (k + 1) 0)).FailsAt (k + 1)) ∧
    callAt 1 (startEvents standardConfiguration true) = some (.write 0x08) ∧
    callAt 9 (startEvents standardConfiguration true) = some (.write 0x28) ∧
    callAt 10 (startEvents standardConfiguration true) = some (.write 0x2C) ∧
    callAt 13 (startEvents standardConfiguration true) = some (.write 0x88) ∧
    callAt 14 (startEvents standardConfiguration true) = some (.write 0x0C) ∧
    callAt 21 (startEvents standardConfiguration true) = some (.write 0x18) ∧
    callAt 22 (startEvents standardConfiguration true) = some (.write 0x0C) ∧
    callAt 29 (startEvents standardConfiguration true) = some (.write 0x28) :=
  ⟨fun _ => ⟨⟨rfl, rfl⟩, failsAt_of_script rfl⟩, by decide, by decide, by decide, by decide, by decide, by decide,
    by decide, by decide⟩

theorem witness_StartHangsInItsInitState :
    ∀ k ∈ [0, 1, 2, 9, 10, 29], (fresh standardConfiguration (oks k ++ [.never])).Serves .unstarted ∧
      (fresh standardConfiguration (oks k ++ [.never])).HangsAt k ∧ k < 30 := by
  intro k hk
  exact ⟨⟨rfl, rfl⟩, hangsAt_of_script rfl, by simp at hk; omega⟩

theorem witness_StopQuiescesTheDisplay :
    (readyOk 13).Serves .ready ∧ (readyOk 13).AnswersOk (callCount (stopEvents (readyOk 13).cfg true 0x04)) :=
  ⟨⟨rfl, rfl⟩, answersOk_of_script rfl⟩

theorem witness_StopLeavesTheQuiescedRegisters :
    (ready 0x07 0x02 true ([.fail] ++ failAfter 7 0)).dctrl &&& 0xF8 = 0 ∧
    ∃ t, exec .stop (ready 0x07 0x02 true ([.fail] ++ failAfter 7 0)) = .next t ∧ t.seq = .idle :=
  ⟨by decide, _, exec_of_ready (by decide) ⟨rfl, rfl⟩, by decide +kernel⟩

/-- PRG-5's STOP: the clear step fails at its first write and the display-off step at its third; both ends of both ranges,
and a success. -/
theorem witness_StopAggregatesTheErrorsOfItsSteps :
    (StepEnd.failsAt 0).possible (clearEvents standardConfiguration true) ∧
    (StepEnd.failsAt 0).possible (backlightEvents standardConfiguration false) ∧
    StepEnd.success.possible (cmdEvents standardConfiguration false 0x0C) ∧
    (StepEnd.failsAt 3).possible (cmdEvents standardConfiguration false 0x08) ∧
    (ready 0x04 0x02 true ([.fail] ++ [.fail] ++ oks 4 ++ failAfter 3 0)).AnswersWith
      ((StepEnd.failsAt 0).answers (clearEvents standardConfiguration true) ++
       (StepEnd.failsAt 0).answers (backlightEvents standardConfiguration false) ++
       StepEnd.success.answers (cmdEvents standardConfiguration false 0x0C) ++
       (StepEnd.failsAt 3).answers (cmdEvents standardConfiguration false 0x08)) := by
  refine ⟨show 0 < 4 by decide, show 0 < 1 by decide, trivial, show 3 < 4 by decide, fun i a h => ?_⟩
  have h' : (ready 0x04 0x02 true ([.fail] ++ [.fail] ++ oks 4 ++ failAfter 3 0)).answers[i]? = some a := h
  simp only [State.answerAt, h', Option.getD_some]

/-- ClearAndHomeSendTheirCommandAndWait, DisplayControlRequestsSetAndClearTheirBit,
EntryModeRequestsSetAndClearTheirBit, ShiftRequestsSendTheirCommand and SetCursorSendsTheClampedAddress. -/
theorem witness_readyWithFourAnswers : (readyOk 4).Serves .ready ∧ (readyOk 4).AnswersOk 4 :=
  ⟨⟨rfl, rfl⟩, answersOk_of_script rfl⟩

/-- With BL_WRITES one answer is needed, without it none. -/
theorem witness_BacklightRequestsWriteTheBacklightByte :
    ((readyOk 1).Serves .ready ∧ (readyOk 1).cfg.blWrites = true ∧ (readyOk 1).AnswersOk 1) ∧
    (({ readyOk 0 with cfg := { standardConfiguration with blWrites := false } } : State).Serves .ready ∧
      ({ readyOk 0 with cfg := { standardConfiguration with blWrites := false } } : State).cfg.blWrites = false) :=
  ⟨⟨⟨rfl, rfl⟩, rfl, answersOk_of_script rfl⟩, ⟨rfl, rfl⟩, rfl⟩

theorem witness_SingleCommandFailure :
    ((ready 0x04 0x02 true (failAfter 0 0)).Serves .ready ∧ (ready 0x04 0x02 true (failAfter 0 0)).FailsAt 0 ∧
      singleCommand .clear (ready 0x04 0x02 true (failAfter 0 0)) =
        some (ready 0x04 0x02 true (failAfter 0 0), 0x01, 0) ∧
      callAt 0 (cmdEvents standardConfiguration true 0x01) = some (.write 0x0C)) ∧
    ((ready 0x04 0x02 true (failAfter 3 0)).FailsAt 3 ∧
      singleCommand .underlineOn (ready 0x04 0x02 true (failAfter 3 0)) =
        some (ready 0x06 0x02 true (failAfter 3 0), 0x0E, 1) ∧
      callAt 3 (cmdEvents standardConfiguration true 0x0E) = some (.write 0xE8)) :=
  ⟨⟨⟨rfl, rfl⟩, failsAt_of_script rfl, rfl, by decide⟩, failsAt_of_script rfl, rfl, by decide⟩

theorem witness_BacklightWriteFailure :
    (ready 0x04 0x02 true (failAfter 0 0)).Serves .ready ∧ (ready 0x04 0x02 true (failAfter 0 0)).cfg.blWrites = true ∧
    (ready 0x04 0x02 true (failAfter 0 0)).FailsAt 0 := ⟨⟨rfl, rfl⟩, rfl, failsAt_of_script rfl⟩

theorem witness_SingleCommandHang :
    (ready 0x04 0x02 true (oks 3 ++ [.never])).Serves .ready ∧ (ready 0x04 0x02 true (oks 3 ++ [.never])).HangsAt 3 ∧
    (ready 0x04 0x02 true (oks 3 ++ [.never])).port = [] ∧
    singleCommand .shiftLeft (ready 0x04 0x02 true (oks 3 ++ [.never])) =
      some (ready 0x04 0x02 true (oks 3 ++ [.never]), 0x18, 0) := ⟨⟨rfl, rfl⟩, hangsAt_of_script rfl, rfl, rfl⟩

theorem witness_ToggleRoundTrip :
    ((readyOk 8).Serves .ready ∧ (readyOk 8).AnswersOk 8 ∧ (readyOk 8).dctrl &&& 0x02 = 0) ∧
    ((ready 0x04 0x02 false (oks 2)).Serves .ready ∧ (ready 0x04 0x02 false (oks 2)).AnswersOk 2 ∧
      (ready 0x04 0x02 false (oks 2)).bl = false) :=
  ⟨⟨⟨rfl, rfl⟩, answersOk_of_script rfl, by decide⟩, ⟨rfl, rfl⟩, answersOk_of_script rfl, rfl⟩

theorem witness_RegisterCharProgramsTheSlot : (readyOk 36).Serves .ready ∧ (readyOk 36).AnswersOk 36 :=
  ⟨⟨rfl, rfl⟩, answersOk_of_script rfl⟩

/-- The first write, the first of the bitmap, and the last. -/
theorem witness_RegisterCharFailure :
    (∀ k, (ready 0x04 0x02 true (failAfter k 0)).Serves .ready ∧ (ready 0x04 0x02 true (failAfter k 0)).FailsAt k) ∧
    callAt 0 (registerCharEvents standardConfiguration true 7 ⟨1, 2, 3, 4, 5, 6, 7, 8⟩) = some (.write 0x7C) ∧
    callAt 4 (registerCharEvents standardConfiguration true 7 ⟨1, 2, 3, 4, 5, 6, 7, 8⟩) = some (.write 0x0D) ∧
    callAt 35 (registerCharEvents standardConfiguration true 7 ⟨1, 2, 3, 4, 5, 6, 7, 8⟩) = some (.write 0x89) :=
  ⟨fun _ => ⟨⟨rfl, rfl⟩, failsAt_of_script rfl⟩, by decide, by decide, by decide⟩

theorem witness_WriteSendsEveryByte :
    ((readyOk 8).Serves .ready ∧ (readyOk 8).AnswersOk (4 * [(0x48 : Byte), 0x69].length)) ∧
    ((readyOk 0).Serves .ready ∧ (readyOk 0).AnswersOk (4 * ([] : List Byte).length)) :=
  ⟨⟨⟨rfl, rfl⟩, answersOk_of_script rfl⟩, ⟨rfl, rfl⟩, answersOk_of_script rfl⟩

/-- V-SRC-9: the last write of one byte and the first of the next. -/
theorem witness_WriteReportsThePartialCount :
    (∀ k, (ready 0x04 0x02 true (failAfter k 0)).Serves .ready ∧ (ready 0x04 0x02 true (failAfter k 0)).FailsAt k) ∧
    callAt 3 ([0x41, 0x42, 0x43].flatMap (datEvents standardConfiguration true)) = some (.write 0x19) ∧
    callAt 4 ([0x41, 0x42, 0x43].flatMap (datEvents standardConfiguration true)) = some (.write 0x4D) ∧
    callAt 11 ([0x41, 0x42, 0x43].flatMap (datEvents standardConfiguration true)) = some (.write 0x39) ∧
    ∃ t, exec .stop (ready 0x04 0x02 true ([.fail] ++ failAfter 7 0)) = .next t ∧
      t.responses = [] ++ [{ status := .err, errs := [.ioError 0x0C, .ioError 0x84] }] :=
  ⟨fun _ => ⟨⟨rfl, rfl⟩, failsAt_of_script rfl⟩, by decide, by decide, by decide, _,
    exec_of_ready (by decide) ⟨rfl, rfl⟩, by decide +kernel⟩

theorem witness_ReadyRequestFrame :
    (∃ t, exec .clear (readyOk 4) = .next t) ∧ writesDctrl .clear = false ∧ writesEmode .clear = false ∧
    writesBl .clear = false := ⟨⟨_, rfl⟩, rfl, rfl, rfl⟩

/-- A START that ends, and one that hangs. -/
theorem witness_StartFrame :
    (∃ t, exec .start (fresh standardConfiguration (oks 30)) = .next t ∧ t.seq = .idle) ∧
    ∃ t, exec .start (fresh standardConfiguration [.ok, .never]) = .next t ∧ t.seq ≠ .idle :=
  ⟨⟨_, exec_start_of_unstarted ⟨rfl, rfl⟩, by decide +kernel⟩, _, exec_start_of_unstarted ⟨rfl, rfl⟩, by decide +kernel⟩

theorem witness_RegisterIsWrittenBeforeTheCommand :
    (∃ t, exec .displayOn (readyOk 4) = .next t) ∧ (∃ t, exec .displayOff (readyOk 4) = .next t) ∧
    (∃ t, exec .underlineOn (ready 0 0 true (failAfter 0 0)) = .next t) ∧
    (∃ t, exec .underlineOff (readyOk 4) = .next t) ∧ (∃ t, exec .blinkOn (readyOk 4) = .next t) ∧
    (∃ t, exec .blinkOff (ready 0 0 true [.never]) = .next t) ∧ (∃ t, exec .leftToRight (readyOk 4) = .next t) ∧
    (∃ t, exec .rightToLeft (readyOk 4) = .next t) ∧ (∃ t, exec .autoscrollOn (readyOk 4) = .next t) ∧
    (∃ t, exec .autoscrollOff (readyOk 4) = .next t) ∧ (∃ t, exec .backlightOn (readyOk 1) = .next t) ∧
    ∃ t, exec .backlightOff (readyOk 1) = .next t :=
  ⟨⟨_, rfl⟩, ⟨_, rfl⟩, ⟨_, rfl⟩, ⟨_, rfl⟩, ⟨_, rfl⟩, ⟨_, rfl⟩, ⟨_, rfl⟩, ⟨_, rfl⟩, ⟨_, rfl⟩, ⟨_, rfl⟩, ⟨_, rfl⟩,
    ⟨_, rfl⟩⟩

/-- STOP that ends, and hangs at the first and the last of its calls; START at its last; WRITE in its second byte. -/
theorem witness_OneResponsePerAdmittedRequest :
    (∃ t, exec .stop (readyOk 13) = .next t ∧ t.seq = .idle) ∧
    (∃ t, exec .stop (ready 0x04 0x02 true [.never]) = .next t ∧ t.seq = .running 0x02 1) ∧
    (∃ t, exec .stop (ready 0x04 0x02 true (oks 12 ++ [.never])) = .next t ∧ t.seq = .running 0x02 8) ∧
    (∃ t, exec .start (fresh standardConfiguration (oks 29 ++ [.never])) = .next t ∧ t.seq = .running 0x01 13) ∧
    ∃ t, exec (.write [0x48, 0x69]) (ready 0x04 0x02 true (oks 7 ++ [.never])) = .next t ∧ t.seq = .running 0x40 3 :=
  ⟨⟨_, exec_of_ready (by decide) ⟨rfl, rfl⟩, by decide +kernel⟩, ⟨_, exec_of_ready (by decide) ⟨rfl, rfl⟩,
    by decide +kernel⟩, ⟨_, exec_of_ready (by decide) ⟨rfl, rfl⟩, by decide +kernel⟩,
    ⟨_, exec_start_of_unstarted ⟨rfl, rfl⟩, by decide +kernel⟩, _, exec_of_ready (by decide) ⟨rfl, rfl⟩,
    by decide +kernel⟩

/-- PRG-5's STOP, with two errors; a REGISTER_CHAR that returns its code point. -/
theorem witness_ResponseFieldsPerRequest :
    (∃ t, exec .stop (ready 0x04 0x02 true ([.fail] ++ failAfter 7 0)) = .next t ∧
      t.responses = [] ++ [{ status := .err, errs := [.ioError 0x0C, .ioError 0x84] }]) ∧
    ∃ t, exec (.registerChar 9 ⟨0, 0, 0, 0, 0, 0, 0, 0⟩) (readyOk 36) = .next t ∧
      t.responses = [] ++ [{ status := .ok, code := 1 }] :=
  ⟨⟨_, exec_of_ready (by decide) ⟨rfl, rfl⟩, by decide +kernel⟩, _, exec_of_ready (by decide) ⟨rfl, rfl⟩,
    by decide +kernel⟩

theorem witness_ErrorIsTheLastEvent :
    (∃ t, exec .start (fresh standardConfiguration [.fail]) = .next t ∧
      t.responses = [] ++ [{ status := .err, errs := [.connectionError 0x27 1] }]) ∧
    ∃ t, exec .clear (ready 0x04 0x02 true (failAfter 3 0)) = .next t ∧
      t.responses = [] ++ [{ status := .err, errs := [.ioError 0x18] }] :=
  ⟨⟨_, exec_start_of_unstarted ⟨rfl, rfl⟩, by decide +kernel⟩, _, exec_of_ready (by decide) ⟨rfl, rfl⟩,
    by decide +kernel⟩

/-- The reset state with START on the port, every call answered OK. -/
abbrev powered : State := { fresh standardConfiguration (oks 30) with port := [{ op := 0x01 }] }

theorem witness_StepsOnlyAppend : ∃ t, step powered = .next t := ⟨_, rfl⟩

/-- A STOP that ends, one whose clear step fails, one that hangs in it, and a HOME. -/
theorem witness_BacklightBitIsInEveryWrite :
    standardConfiguration.valid = true ∧ (∃ t, exec .stop (readyOk 13) = .next t) ∧
    (∃ t, exec .stop (ready 0x04 0x02 true ([.fail] ++ oks 9)) = .next t) ∧
    (∃ t, exec .stop (ready 0x04 0x02 true [.never]) = .next t) ∧ ∃ t, exec .home (readyOk 4) = .next t :=
  ⟨by decide, ⟨_, rfl⟩, ⟨_, rfl⟩, ⟨_, rfl⟩, _, rfl⟩

/-- START's 30 calls; in READY the most calls of each request with and without BL_WRITES, and the empty WRITE. -/
theorem witness_CountsAndDurationsPerRequest :
    ((fresh standardConfiguration (oks 30)).Serves .unstarted ∧ (fresh standardConfiguration (oks 30)).AnswersOk 30) ∧
    ((readyOk 36).Serves .ready ∧ (readyOk 36).cfg.blWrites = true ∧ (readyOk 36).AnswersOk 36 ∧
      (readyOk 36).AnswersOk 13 ∧ (readyOk 36).AnswersOk 4 ∧ (readyOk 36).AnswersOk 1 ∧
      (readyOk 36).AnswersOk (4 * ([] : List Byte).length)) ∧
    (({ readyOk 12 with cfg := { standardConfiguration with blWrites := false } } : State).Serves .ready ∧
      ({ readyOk 12 with cfg := { standardConfiguration with blWrites := false } } : State).AnswersOk 12) :=
  have h : (readyOk 36).AnswersOk 36 := answersOk_of_script rfl
  ⟨⟨⟨rfl, rfl⟩, answersOk_of_script rfl⟩,
    ⟨⟨rfl, rfl⟩, rfl, h, h.mono (by decide), h.mono (by decide), h.mono (by decide), h.mono (by decide)⟩, ⟨rfl, rfl⟩,
    answersOk_of_script rfl⟩

/-- PRG-5's last two requests: a WRITE that fails and a STOP; every call they can make is answered. -/
theorem witness_RunsOfReadyRequestsEndNormally :
    ∃ s : State, s.Serves .ready ∧ s.Answered (portCalls s.port) ∧ s.answerAt 9 = .fail ∧
      s.port = [{ op := 0x40, data := [0x61, 0x62, 0x63] }, { op := 0x02 }] ∧ portCalls s.port = 25 ∧
      ∀ r ∈ s.port, ∃ i, decode r = .ok i ∧ i ≠ .start :=
  ⟨{ ready 0x04 0x02 true (failAfter 9 15) with port := [{ op := 0x40, data := [0x61, 0x62, 0x63] }, { op := 0x02 }] },
    ⟨rfl, rfl⟩, show ∀ i, i < 25 → _ by decide, rfl, rfl, by decide,
    List.forall_mem_cons.mpr ⟨⟨.write [0x61, 0x62, 0x63], by decide, by decide⟩,
      List.forall_mem_cons.mpr ⟨⟨.stop, by decide, by decide⟩, by simp⟩⟩⟩

theorem witness_ConstructionSatisfiesTheInvariant : State.construct standardConfiguration = some State.reset := rfl

theorem witness_EveryStepKeepsTheInvariant : powered.Inv ∧ ∃ t, step powered = .next t := by
  refine ⟨?_, _, rfl⟩
  exact {
    cfgValid := by decide
    funcLegal := .inl rfl
    funcReady := by intro h; cases h
    dctrlLegal := by decide
    emodeLegal := by decide
    connReady := by intro h; cases h
    connUnstarted := fun _ _ => rfl
    seqLegal := trivial
    rwLow := by simp [fresh, State.reset, writtenBytes]
    strobeSound := by decide
    strobeClosed := fun _ => by decide }

end Sys2Proof.Tests.Slice0
end

section
/-! SUPPORT. Which configurations are valid (rules R6, R7 and R10): each part of `Configuration.valid` as the rule's own
condition. -/

namespace Sys2Proof

/-- R10: the largest address fits every row exactly within the column bound of the row count. -/
theorem Configuration.geometry_iff (c : Configuration) :
    (1 ≤ c.rows ∧ c.rows ≤ 4 ∧ c.addressesFit = true) ↔
      (c.rows = 1 ∧ c.cols ≤ 128) ∨ (c.rows = 2 ∧ c.cols ≤ 64) ∨ (c.rows = 3 ∧ c.cols ≤ 64) ∨
      (c.rows = 4 ∧ c.cols ≤ 44) := by
  have fits : c.addressesFit = true ↔ ∀ r, r < c.rows → rowBase r + c.cols ≤ 0x80 := by
    simp [Configuration.addressesFit]
  rw [fits]
  constructor
  · rintro ⟨h1, h4, h⟩
    have row : ∀ r base, rowBase r = base → r < c.rows → base + c.cols ≤ 0x80 := by
      rintro r _ rfl hr
      exact h r hr
    have row0 := row 0 0x00 rfl
    have row1 := row 1 0x40 rfl
    have row3 := row 3 0x54 rfl
    omega
  · intro h
    refine ⟨by omega, by omega, fun r hr => ?_⟩
    obtain rfl | rfl | rfl | rfl : r = 0 ∨ r = 1 ∨ r = 2 ∨ r = 3 := by omega
    all_goals simp only [rowBase]; omega

/-- R6: a line mask is one of the bits [3:0]. -/
theorem isLineMask_iff (m : Byte) : isLineMask m = true ↔ ∃ n, n < 4 ∧ m = .twoPow 8 n := by
  revert m; decide

/-- Distinct bits of [3:0] are distinct masks. -/
theorem twoPow_ne_iff {a b : Nat} (ha : a < 4) (hb : b < 4) : BitVec.twoPow 8 a ≠ BitVec.twoPow 8 b ↔ a ≠ b :=
  (by decide : ∀ a, a < 4 → ∀ b, b < 4 → (BitVec.twoPow 8 a ≠ BitVec.twoPow 8 b ↔ a ≠ b)) a ha b hb

/-- R6: the four masks are valid exactly when they are four distinct bits of [3:0]. -/
theorem Configuration.masksValid_iff (c : Configuration) :
    c.masksValid = true ↔ ∃ rs rw en bl : Nat, rs < 4 ∧ rw < 4 ∧ en < 4 ∧ bl < 4 ∧ [rs, rw, en, bl].Nodup ∧
      c.rsMask = .twoPow 8 rs ∧ c.rwMask = .twoPow 8 rw ∧ c.enMask = .twoPow 8 en ∧ c.blMask = .twoPow 8 bl := by
  simp only [Configuration.masksValid, Bool.and_eq_true, bne_iff_ne, isLineMask_iff]
  constructor
  · rintro ⟨⟨⟨⟨⟨⟨⟨⟨⟨⟨rs, hrs, ers⟩, rw, hrw, erw⟩, en, hen, een⟩, bl, hbl, ebl⟩, h1⟩, h2⟩, h3⟩, h4⟩, h5⟩, h6⟩
    rw [ers, erw, twoPow_ne_iff hrs hrw] at h1
    rw [ers, een, twoPow_ne_iff hrs hen] at h2
    rw [ers, ebl, twoPow_ne_iff hrs hbl] at h3
    rw [erw, een, twoPow_ne_iff hrw hen] at h4
    rw [erw, ebl, twoPow_ne_iff hrw hbl] at h5
    rw [een, ebl, twoPow_ne_iff hen hbl] at h6
    exact ⟨rs, rw, en, bl, hrs, hrw, hen, hbl, by simp [h1, h2, h3, h4, h5, h6], ers, erw, een, ebl⟩
  · rintro ⟨rs, rw, en, bl, hrs, hrw, hen, hbl, hd, ers, erw, een, ebl⟩
    rw [ers, erw, een, ebl, twoPow_ne_iff hrs hrw, twoPow_ne_iff hrs hen, twoPow_ne_iff hrs hbl, twoPow_ne_iff hrw hen,
      twoPow_ne_iff hrw hbl, twoPow_ne_iff hen hbl]
    simp only [List.nodup_cons, List.mem_cons, List.not_mem_nil, or_false, not_or, not_false_eq_true, List.nodup_nil,
      and_true] at hd
    obtain ⟨⟨h1, h2, h3⟩, ⟨h4, h5⟩, h6⟩ := hd
    exact ⟨⟨⟨⟨⟨⟨⟨⟨⟨⟨rs, hrs, rfl⟩, rw, hrw, rfl⟩, en, hen, rfl⟩, bl, hbl, rfl⟩, h1⟩, h2⟩, h3⟩, h4⟩, h5⟩, h6⟩

/-- R7: the constraints on the delays. -/
theorem Timing.valid_iff (t : Timing) :
    t.valid = true ↔ 450 ≤ t.enPw ∧ 37000 ≤ t.settle ∧ 40000000 ≤ t.powerOn ∧ 1520000 ≤ t.clearHome ∧
      t.sync2 ≤ t.sync1 ∧ t.sync3 ≤ t.sync2 ∧ 0 < t.sync3 ∧ 0 < t.prime := by
  simp only [Timing.valid, Bool.and_eq_true, decide_eq_true_eq, and_assoc]

/-- Settles O10: validity is the geometry of R10, the masks of R6 and the delays of R7, each by its own equivalence. -/
theorem validConfigurationsAreThoseOfTheRule : Obligations.ValidConfigurationsAreThoseOfTheRule := by
  intro c
  rw [← c.geometry_iff, ← c.masksValid_iff, ← c.timing.valid_iff]
  simp only [Configuration.valid, Bool.and_eq_true, decide_eq_true_eq]
  tauto

end Sys2Proof
end

section
/-! SUPPORT. What every request keeps of the invariant (rules R18 to R28, R58, R79, R134, R135), in three parts, because
each part moves differently along a request: the registers are legal after every assignment; what the block has put on the
bus is sound after every call and closed after every statement; and in READY the values of START stand. -/

namespace Sys2Proof.Machine

variable {i : Instr} {c : Configuration} {p : Phase} {s t : State} {ok : Strobe → Prop}

/-! ## The registers -/

/-- The configuration and the mode registers hold legal values (R10, R20 to R22, R24). -/
structure RegistersLegal (s : State) : Prop where
  cfgValid : s.cfg.valid = true
  funcLegal : s.func = 0x00 ∨ s.func = funcValue s.cfg
  dctrlLegal : s.dctrl &&& 0xF8 = 0
  emodeLegal : s.emode &&& 0xFC = 0

/-- The registers are legal in another state that holds the same ones. -/
theorem RegistersLegal.congr (h : RegistersLegal s) (hc : t.cfg = s.cfg) (hf : t.func = s.func)
    (hd : t.dctrl = s.dctrl) (he : t.emode = s.emode) : RegistersLegal t :=
  ⟨by rw [hc]; exact h.cfgValid, by rw [hc, hf]; exact h.funcLegal, by rw [hd]; exact h.dctrlLegal,
    by rw [he]; exact h.emodeLegal⟩

/-- Setting a bit outside the unused ones keeps those clear. -/
theorem setBit_unused {r m u : Byte} (hr : r &&& u = 0) (hm : m &&& u = 0) : setBit r m &&& u = 0 := by
  simp [setBit, or_and_byte, hr, hm]

/-- Clearing a bit keeps the unused ones clear. -/
theorem clearBit_unused {r u : Byte} (hr : r &&& u = 0) (m : Byte) : clearBit r m &&& u = 0 := by
  rw [clearBit, BitVec.and_assoc, BitVec.and_comm (~~~m), ← BitVec.and_assoc, hr]
  exact BitVec.zero_and

/-- No request sets one of bits 7:3 of DCTRL (R21). -/
theorem dctrlWrites_unused (i : Instr) {d : Byte} (hd : d &&& 0xF8 = 0) : ∀ v ∈ dctrlWrites i d, v &&& 0xF8 = 0 := by
  have hD : setBit d maskD &&& 0xF8 = 0 := setBit_unused hd (by decide)
  have hC : setBit d maskC &&& 0xF8 = 0 := setBit_unused hd (by decide)
  have hB : setBit d maskB &&& 0xF8 = 0 := setBit_unused hd (by decide)
  have hStart : (0x04 : Byte) &&& 0xF8 = 0 := by decide
  cases i <;> simp only [dctrlWrites, List.forall_mem_cons, List.not_mem_nil, false_implies, implies_true, and_true,
    clearBit_unused hd, hD, hC, hB, hStart]

/-- No request sets one of bits 7:2 of EMODE (R22). -/
theorem emodeWrites_unused (i : Instr) {e : Byte} (he : e &&& 0xFC = 0) : ∀ v ∈ emodeWrites i e, v &&& 0xFC = 0 := by
  have hID : setBit e maskID &&& 0xFC = 0 := setBit_unused he (by decide)
  have hS : setBit e maskS &&& 0xFC = 0 := setBit_unused he (by decide)
  have hStart : (0x02 : Byte) &&& 0xFC = 0 := by decide
  cases i <;> simp only [emodeWrites, List.forall_mem_cons, List.not_mem_nil, false_implies, implies_true, and_true,
    clearBit_unused he, hID, hS, hStart]

theorem registersLegal_kept (i : Instr) : KeptBy i RegistersLegal where
  emit _ _ h := h.congr rfl rfl rfl rfl
  latch _ _ h := h.congr rfl rfl rfl rfl
  answered _ h := h.congr rfl rfl rfl rfl
  pointAt _ _ h := h.congr rfl rfl rfl rfl
  setDctrl _ v hv h := { h with dctrlLegal := dctrlWrites_unused i h.dctrlLegal v hv }
  setEmode _ v hv h := { h with emodeLegal := emodeWrites_unused i h.emodeLegal v hv }
  setBl _ _ _ h := h.congr rfl rfl rfl rfl
  connect _ _ h := h.congr rfl rfl rfl rfl
  setFunc _ _ h := { h with funcLegal := .inr rfl }

theorem registersLegal_runOf (h : RegistersLegal s) : RegistersLegal (runOf i s) :=
  (registersLegal_kept i).run (fun _ _ h => h.congr rfl rfl rfl rfl) (fun _ _ _ h => h.congr rfl rfl rfl rfl) h

/-! ## The bus -/

/-- Everything on the bus has RW low, and the trace stands in the strobe protocol where `ok` says; the configuration and
the phase are those the request began with. -/
structure OnBus (ok : Strobe → Prop) (c : Configuration) (p : Phase) (t : State) : Prop where
  cfg : t.cfg = c
  phase : t.phase = p
  rwLow : ∀ v ∈ writtenBytes t.trace, v &&& c.rwMask = 0
  strobe : ok (strobe c t.trace)

/-- No strobe is open. -/
abbrev Quiet : Configuration → Phase → State → Prop := OnBus (· = .rest)

/-- The strobe protocol has not been violated. -/
abbrev Sound : Configuration → Phase → State → Prop := OnBus (· ≠ .broken)

theorem OnBus.congr (h : OnBus ok c p s) (hc : t.cfg = s.cfg) (hp : t.phase = s.phase) (ht : t.trace = s.trace) :
    OnBus ok c p t :=
  ⟨hc.trans h.cfg, hp.trans h.phase, by rw [ht]; exact h.rwLow, by rw [ht]; exact h.strobe⟩

theorem Quiet.sound (h : Quiet c p s) : Sound c p s := ⟨h.cfg, h.phase, h.rwLow, by rw [h.strobe]; decide⟩

/-- Events appended when no strobe is open: only they decide what the bus is now. -/
theorem Quiet.append (h : Quiet c p s) (evs : List Event) (hc : t.cfg = s.cfg) (hp : t.phase = s.phase)
    (ht : t.trace = s.trace ++ evs) (hrw : ∀ v ∈ writtenBytes evs, v &&& c.rwMask = 0)
    (hs : ok (evs.foldl (strobeStep c) .rest)) : OnBus ok c p t where
  cfg := hc.trans h.cfg
  phase := hp.trans h.phase
  rwLow v hv := by
    rw [ht, writtenBytes_append, List.mem_append] at hv
    exact hv.elim (h.rwLow v) (hrw v)
  strobe := by rw [ht, strobe_append, h.strobe]; exact hs

/-- A wait between strobes, or an acquisition, leaves the bus as it is. -/
theorem Quiet.append_silent (h : Quiet c p s) (e : Event) (hc : t.cfg = s.cfg) (hp : t.phase = s.phase)
    (ht : t.trace = s.trace ++ [e]) (he : writtenBytes [e] = []) : Quiet c p t := by
  refine h.append [e] hc hp ht (by simp [he]) ?_
  cases e with
  | delay d => rfl
  | acquired a b => rfl
  | acquireFailed a b => rfl
  | write v => simp [writtenBytes] at he
  | writeFailed v => simp [writtenBytes] at he

/-- From a quiet bus the action leaves it quiet if it completes or raises, and sound if it hangs. -/
abbrev KeepsBus (c : Configuration) (p : Phase) (a : Action) : Prop :=
  Holds (Quiet c p) (fun _ => Quiet c p) (Sound c p) a

theorem acquire_keepsBus : KeepsBus c p acquire := by
  intro s hs
  simp only [acquire]
  cases s.answerAt 0
  · exact hs.append_silent (.acquired _ _) rfl rfl rfl rfl
  · exact hs.append_silent (.acquireFailed _ _) rfl rfl rfl rfl
  · exact hs.sound

section Lines

variable (hl : LinesDisjoint c)
include hl

/-- A complete nibble is one closed strobe, a failed write ends its strobe, and a call without an answer leaves the strobe
open where the protocol allows it (R73, R134, R135). -/
theorem sendNibble_keepsBus (n : Byte) {mode : Byte} (hm : IsMode c mode) : KeepsBus c p (sendNibble n mode) := by
  intro s hs
  rw [sendNibble_eq_play, hs.cfg]
  have hlow : controlByte c s.bl n mode &&& c.rwMask = 0 := controlByte_rw hl s.bl n hm
  have hhigh : (controlByte c s.bl n mode ||| c.enMask) &&& c.rwMask = 0 := by rw [strobe_and hl.en_rw, hlow]
  have hmatch := (strobe_low (controlByte_en hl s.bl n hm)).symm
  obtain h | ⟨k, v, hv, h⟩ | ⟨k, hk, h⟩ := play_cases (plain_nibbleEvents c s.bl n mode) s <;> rw [h]
  · exact hs.append (nibbleEvents c s.bl n mode) rfl rfl rfl (by simp [nibbleEvents, writtenBytes, hlow, hhigh])
      (nibbleEvents_strobe hl _ n hm)
  · obtain rfl | rfl : k = 0 ∨ k = 1 := by have hk : k < 2 := callAt_lt hv; omega
    · obtain rfl : controlByte c s.bl n mode ||| c.enMask = v := by simpa [nibbleEvents, callAt] using hv
      exact hs.append [.writeFailed (controlByte c s.bl n mode ||| c.enMask)] rfl rfl
        (by simp [State.playedToFailedWrite, nibbleEvents, beforeCall]) (by simp [writtenBytes, hhigh]) rfl
    · obtain rfl : controlByte c s.bl n mode = v := by simpa [nibbleEvents, callAt] using hv
      exact hs.append [.write (controlByte c s.bl n mode ||| c.enMask), .delay .enPw,
          .writeFailed (controlByte c s.bl n mode)] rfl rfl
        (by simp [State.playedToFailedWrite, nibbleEvents, beforeCall]) (by simp [writtenBytes, hlow, hhigh])
        (by simp only [List.foldl_cons, List.foldl_nil, strobeStep, if_neg (strobe_high hl _), if_pos hmatch])
  · obtain rfl | rfl : k = 0 ∨ k = 1 := by have hk : k < 2 := hk; omega
    · exact hs.append [] rfl rfl rfl (by simp [writtenBytes]) (by simp)
    · exact hs.append [.write (controlByte c s.bl n mode ||| c.enMask), .delay .enPw] rfl rfl rfl
        (by simp [writtenBytes, hhigh])
        (by simp only [List.foldl_cons, List.foldl_nil, strobeStep, if_neg (strobe_high hl _)]; simp)

theorem transmit_keepsBus (v : Byte) {mode : Byte} (hm : IsMode c mode) : KeepsBus c p (transmit v mode) :=
  (sendNibble_keepsBus hl _ hm).both (sendNibble_keepsBus hl _ hm)

/-- The backlight byte has EN and RW low, so it opens no strobe (R62, R77). -/
theorem blOnly_keepsBus : KeepsBus c p blOnly := by
  intro s hs
  obtain ⟨hen, hrw, -⟩ := blBit_and hl s.bl
  simp only [blOnly, expWrite, hs.cfg]
  cases s.answerAt 0
  · exact hs.append [.write (blBit c s.bl)] rfl rfl rfl (by simp [writtenBytes, hrw])
      (by simp only [List.foldl_cons, List.foldl_nil, strobeStep, if_pos hen])
  · exact hs.append [.writeFailed (blBit c s.bl)] rfl rfl rfl (by simp [writtenBytes, hrw]) rfl
  · exact hs.sound

theorem statements_keepBus (i : Instr) (p : Phase) : Statements i (Quiet c p) (Sound c p) (fun _ => Quiet c p) where
  command v := transmit_keepsBus hl v (.inl rfl)
  data v s hs := transmit_keepsBus hl v (.inr (by rw [dataMode, hs.cfg])) s hs
  sendNibble n := sendNibble_keepsBus hl n (.inl rfl)
  blOnly := blOnly_keepsBus hl
  wait d _ hs := hs.append_silent (.delay d) rfl rfl rfl rfl
  acquire _ := acquire_keepsBus
  setDctrl _ _ _ h := h.congr rfl rfl rfl
  setEmode _ _ _ h := h.congr rfl rfl rfl
  setBl _ _ _ h := h.congr rfl rfl rfl
  setFunc _ _ h := h.congr rfl rfl rfl

/-- How a request leaves the bus: stuck with the protocol kept, or answered with no strobe open. -/
theorem runOf_keepsBus (hs : Quiet c p s) : RunEnds i (Quiet c p) (Sound c p) (fun _ => Quiet c p) (runOf i s) :=
  (statements_keepBus hl i p).run_cases (fun _ _ h => h.congr rfl rfl rfl) (fun _ _ h => h) hs

end Lines

/-! ## READY -/

/-- The value START gives FUNC stands (R83). -/
def FuncGiven (t : State) : Prop := t.func = funcValue t.cfg

/-- The expander is acquired (R28). -/
def Connected (t : State) : Prop := t.conn = true

theorem funcGiven_kept (i : Instr) : KeptBy i FuncGiven where
  emit _ _ h := h
  latch _ _ h := h
  answered _ h := h
  pointAt _ _ h := h
  setDctrl _ _ _ h := h
  setEmode _ _ _ h := h
  setBl _ _ _ h := h
  connect _ _ h := h
  setFunc _ _ _ := rfl

theorem connected_kept (i : Instr) : KeptBy i Connected where
  emit _ _ h := h
  latch _ _ h := h
  answered _ h := h
  pointAt _ _ h := h
  setDctrl _ _ _ h := h
  setEmode _ _ _ h := h
  setBl _ _ _ h := h
  connect _ _ _ := rfl
  setFunc _ _ h := h

/-- What one statement establishes and all keep holds once the statements have completed. -/
theorem runFrom_establishes {P H : State → Prop} {E : ErrorRecord → State → Prop} {op : Byte} {body : List Action}
    (hp : ∀ s k, P s → P (s.pointAt op k)) (hb : ∀ a ∈ body, Holds P E H a) (hq : ∀ a ∈ body, SeqFixed a)
    {a : Action} (ha : a ∈ body) (he : ∀ s t, a s = .done t → P t) {k : Nat} (h : runFrom op k body s = .done t) :
    P t := by
  induction body generalizing k s with
  | nil => cases ha
  | cons b rest ih =>
    have hb' : ∀ a ∈ rest, Holds P E H a := fun x hx => hb x (.tail _ hx)
    have hq' : ∀ a ∈ rest, SeqFixed a := fun x hx => hq x (.tail _ hx)
    rw [runFrom_cons] at h
    cases hr : b (s.pointAt op k) with
    | done u =>
      rw [hr, andThen_done] at h
      obtain rfl | ha := List.mem_cons.mp ha
      · have := runFrom_sat hp hb' hq' (k + 1) (he _ _ hr)
        rw [h] at this
        exact this
      · exact ih hb' hq' ha h
    | raised e u => rw [hr] at h; cases h
    | hung u => rw [hr] at h; cases h

/-- No init state moves `seq`. -/
theorem initStates_seqFixed : ∀ a ∈ initSequence.map InitState.action, SeqFixed a :=
  fun a ha q => (statements_seq .start q).initSequence a ha

/-- What one init state establishes and START keeps holds once START's init states have completed. -/
theorem initStates_establish {P : State → Prop} (hk : KeptBy .start P) {x : InitState} (hx : x ∈ initSequence)
    (he : ∀ s t, x.action s = .done t → P t)
    (h : runFrom (Instr.opcode .start) 1 (initSequence.map InitState.action) s = .done t) : P t :=
  runFrom_establishes hk.pointAt hk.statements.initSequence initStates_seqFixed (List.mem_map_of_mem hx) he h

/-- S9 gives FUNC its value (R81, R83). -/
theorem funcSet_establishes (h : InitState.s9FuncSet.action s = .done t) : FuncGiven t := by
  have := (funcGiven_kept .start).statements.commandFunc (s.setFunc (funcValue s.cfg)) rfl
  rw [show commandFunc (s.setFunc (funcValue s.cfg)) = .done t from h] at this
  exact this

/-- S1 acquires the expander (R78, R81). -/
theorem acquire_establishes (h : InitState.s1Acquire.action s = .done t) : Connected t := by
  simp only [InitState.action, acquire] at h
  cases ha : s.answerAt 0 <;> rw [ha] at h <;> cases h
  rfl

/-- A START that ends in READY has given FUNC its value and acquired the expander. -/
theorem runOf_start_ready (hl : LinesDisjoint c) (hs : Quiet c .unstarted s) (h : (runOf .start s).phase = .ready) :
    FuncGiven (runOf .start s) ∧ Connected (runOf .start s) := by
  have hsat := runFrom_sat (op := Instr.opcode .start) (fun _ _ h => h.congr rfl rfl rfl)
    (statements_keepBus hl .start .unstarted).initSequence initStates_seqFixed 1 hs
  simp only [runOf] at h ⊢
  cases hr : runFrom (Instr.opcode .start) 1 (initSequence.map InitState.action) s with
  | done t =>
    have func : FuncGiven t :=
      initStates_establish (funcGiven_kept .start) (by decide) (fun _ _ => funcSet_establishes) hr
    have conn : Connected t :=
      initStates_establish (connected_kept .start) (by decide) (fun _ _ => acquire_establishes) hr
    exact ⟨func, conn⟩
  | raised e t => rw [hr] at h; cases h
  | hung t =>
    rw [hr] at h hsat
    exact absurd (hsat.1.phase.symm.trans h) (by decide)

/-- In READY after a request, FUNC has START's value and the expander is acquired: every request but START found it so
and keeps it. -/
theorem runOf_ready (h : s.Inv) (hi : s.seq = .idle) (hp : s.phase = gateOf i) (hr : (runOf i s).phase = .ready) :
    FuncGiven (runOf i s) ∧ Connected (runOf i s) := by
  by_cases hstart : i = .start
  · subst hstart
    exact runOf_start_ready (linesDisjoint_of_valid h.cfgValid) ⟨rfl, hp, h.rwLow, h.strobeClosed hi⟩ hr
  · have hready : s.phase = .ready := hp.trans (gateOf_of_ne_start hstart)
    exact ⟨(funcGiven_kept i).run (fun _ _ h => h) (fun _ _ _ h => h) (h.funcReady hready),
      (connected_kept i).run (fun _ _ h => h) (fun _ _ _ h => h) (h.connReady hready)⟩

/-! ## The invariant -/

/-- The opcode map has a row for every request (R55). -/
theorem formatOf_opcode (i : Instr) : formatOf i.opcode = some i.format := by
  cases i <;> rfl

theorem opcode_ne_start (h : i ≠ .start) : i.opcode ≠ 0x01 := by
  cases i <;> simp [Instr.opcode] at h ⊢

/-- A request stuck at statement `k` in the phase that admitted it leaves `seq` legal (R19). -/
theorem seqLegal_of_running {k : Nat} (hp : t.phase = gateOf i) (hseq : t.seq = .running i.opcode k)
    (hk : i = .start → 1 ≤ k ∧ k ≤ 13) : t.SeqLegal := by
  rw [State.SeqLegal, hseq]
  by_cases hstart : i = .start
  · subst hstart
    exact .inl ⟨rfl, (hk rfl).1, (hk rfl).2, hp⟩
  · exact .inr ⟨opcode_ne_start hstart, by simp [formatOf_opcode], hp.trans (gateOf_of_ne_start hstart)⟩

@[simp] theorem closing_cfg (r : Response) (u : State) : (closing i r u).cfg = u.cfg := by
  rw [closing]; split <;> rfl

@[simp] theorem closing_trace (r : Response) (u : State) : (closing i r u).trace = u.trace := by
  rw [closing]; split <;> rfl

/-- No answered request ends in UNSTARTED: START moves on to READY or FAILED, every other one runs in READY. -/
theorem closing_phase_ne_unstarted (r : Response) {u : State} (hu : u.phase = gateOf i) :
    (closing i r u).phase ≠ .unstarted := by
  by_cases hstart : i = .start
  · rw [closing, if_pos hstart, State.setPhase_phase]
    split <;> decide
  · rw [closing, if_neg hstart, hu, gateOf_of_ne_start hstart]
    decide

/-- An admitted request keeps the invariant. -/
theorem runOf_inv (h : s.Inv) (hi : s.seq = .idle) (hp : s.phase = gateOf i) : (runOf i s).Inv := by
  have legal : RegistersLegal (runOf i s) :=
    registersLegal_runOf ⟨h.cfgValid, h.funcLegal, h.dctrlLegal, h.emodeLegal⟩
  have ready := runOf_ready h hi hp
  have quiet : Quiet s.cfg (gateOf i) s := ⟨rfl, hp, h.rwLow, h.strobeClosed hi⟩
  have ends := runOf_keepsBus (i := i) (linesDisjoint_of_valid h.cfgValid) quiet
  generalize runOf i s = t at legal ready ends ⊢
  suffices bus : Sound t.cfg t.phase t ∧ t.SeqLegal ∧ (t.phase = .unstarted → t.seq = .idle → t.conn = false) ∧
      (t.seq = .idle → strobe t.cfg t.trace = .rest) by
    obtain ⟨sound, seqLegal, unstarted, closed⟩ := bus
    exact
      { cfgValid := legal.cfgValid, funcLegal := legal.funcLegal, funcReady := fun hr => (ready hr).1,
        dctrlLegal := legal.dctrlLegal, emodeLegal := legal.emodeLegal, connReady := fun hr => (ready hr).2,
        connUnstarted := unstarted, seqLegal := seqLegal, rwLow := sound.rwLow, strobeSound := sound.strobe,
        strobeClosed := closed }
  obtain ⟨k, sound, hseq, hk⟩ | ⟨u, r, hu, rfl, -⟩ := ends
  · have stuck : t.seq ≠ .idle := by rw [hseq]; exact Seq.noConfusion
    exact ⟨by rw [sound.cfg, sound.phase]; exact sound, seqLegal_of_running sound.phase hseq hk,
      fun _ hidle => absurd hidle stuck, fun hidle => absurd hidle stuck⟩
  · have answered : Quiet s.cfg (closing i r u).phase ((closing i r u).respond r) :=
      ⟨by simp [hu.cfg], rfl, by simpa using hu.rwLow, by simpa using hu.strobe⟩
    exact ⟨by simpa [hu.cfg] using answered.sound, trivial,
      fun hun => absurd hun (closing_phase_ne_unstarted r hu.phase), fun _ => by simpa [hu.cfg] using hu.strobe⟩

/-- The invariant does not look at the requests still to come. -/
theorem inv_withPort (h : s.Inv) (port : List Request) : ({ s with port := port } : State).Inv := { h with }

/-- Everything a step with a next state does: an idle block with no request waits, or the request at the head of the port
is decoded and run (R47, R120, R131). -/
theorem step_next (h : step s = .next t) :
    (s.port = [] ∧ s.seq = .idle ∧ t = s) ∨
    ∃ r rest i, s.port = r :: rest ∧ decode r = .ok i ∧ exec i { s with port := rest } = .next t := by
  cases hport : s.port with
  | nil =>
    simp only [step, State.fetch, hport] at h
    cases hseq : s.seq <;> rw [hseq] at h <;> cases h
    exact .inl ⟨rfl, rfl, rfl⟩
  | cons r rest =>
    simp only [step, State.fetch, hport] at h
    cases hd : decode r <;> rw [hd] at h
    · cases h
    · exact .inr ⟨r, rest, _, rfl, hd, h⟩

/-- Settles O53: a step either changes nothing or runs an admitted request, and a request keeps each part of the
invariant, the bus along every call, the registers along every assignment, and START's values from its end on. -/
theorem everyStepKeepsTheInvariant : Obligations.EveryStepKeepsTheInvariant := by
  intro s t h hstep
  obtain ⟨-, -, rfl⟩ | ⟨-, rest, i, -, -, hexec⟩ := step_next hstep
  · exact h
  · obtain ⟨hi, hp, rfl⟩ := exec_next hexec
    exact runOf_inv (inv_withPort h rest) hi hp

end Sys2Proof.Machine
end

section
/-! SUPPORT. What requests leave unchanged (rules R24 to R28, R82, R89): each frame is kept by every update the request
may make, so it stands in every next state. -/

namespace Sys2Proof.Machine

variable {i : Instr} {s : State}

/-! ## The requests other than START -/

/-- `t` differs from `s` only where request `i`, not START, may write a register (R24 to R28, R89). -/
structure ReadyFramed (i : Instr) (s t : State) : Prop where
  cfg : t.cfg = s.cfg
  phase : t.phase = s.phase
  func : t.func = s.func
  conn : t.conn = s.conn
  port : t.port = s.port
  dctrl : writesDctrl i = false → t.dctrl = s.dctrl
  emode : writesEmode i = false → t.emode = s.emode
  bl : writesBl i = false → t.bl = s.bl

theorem ReadyFramed.refl (i : Instr) (s : State) : ReadyFramed i s s :=
  ⟨rfl, rfl, rfl, rfl, rfl, fun _ => rfl, fun _ => rfl, fun _ => rfl⟩

/-- A value to write means the request writes DCTRL. -/
theorem writesDctrl_of_mem {d v : Byte} (hv : v ∈ dctrlWrites i d) : writesDctrl i ≠ false :=
  fun h => List.ne_nil_of_mem hv (dctrlWrites_nil h d)

/-- A value to write means the request writes EMODE. -/
theorem writesEmode_of_mem {e v : Byte} (hv : v ∈ emodeWrites i e) : writesEmode i ≠ false :=
  fun h => List.ne_nil_of_mem hv (emodeWrites_nil h e)

/-- A value to write means the request writes BL. -/
theorem writesBl_of_mem {b : Bool} (hb : b ∈ blValues i) : writesBl i ≠ false :=
  fun h => List.ne_nil_of_mem hb (blValues_nil h)

/-- Only START connects and writes FUNC; each other register is written only by the requests that write it. -/
theorem readyFramed_kept (hi : i ≠ .start) (s : State) : KeptBy i (ReadyFramed i s) where
  emit _ _ h := { h with }
  latch _ _ h := { h with }
  answered _ h := { h with }
  pointAt _ _ h := { h with }
  setDctrl _ _ hv h := { h with dctrl := fun hw => absurd hw (writesDctrl_of_mem hv) }
  setEmode _ _ hv h := { h with emode := fun hw => absurd hw (writesEmode_of_mem hv) }
  setBl _ _ hb h := { h with bl := fun hw => absurd hw (writesBl_of_mem hb) }
  connect hstart := absurd hstart hi
  setFunc hstart := absurd hstart hi

theorem runOf_readyFramed (hi : i ≠ .start) (s : State) : ReadyFramed i s (runOf i s) :=
  (readyFramed_kept hi s).run (fun _ _ h => { h with }) (fun hstart => absurd hstart hi) (.refl i s)

/-- Settles O42: the frame stands before the request and every update the request may make keeps it. -/
theorem readyRequestFrame : Obligations.ReadyRequestFrame := by
  intro i s t hi hexec
  obtain ⟨-, -, rfl⟩ := exec_next hexec
  obtain ⟨cfg, phase, func, conn, port, dctrl, emode, bl⟩ := runOf_readyFramed hi s
  exact ⟨cfg, phase, func, conn, port, dctrl, emode, bl⟩

/-! ## START -/

/-- `t` differs from `s` only where START may write a register, and there it holds the old value or START's (R82). -/
structure StartFramed (s t : State) : Prop where
  cfg : t.cfg = s.cfg
  bl : t.bl = s.bl
  port : t.port = s.port
  func : t.func = s.func ∨ t.func = funcValue s.cfg
  dctrl : t.dctrl = s.dctrl ∨ t.dctrl = 0x04
  emode : t.emode = s.emode ∨ t.emode = 0x02
  conn : t.conn = s.conn ∨ t.conn = true

theorem StartFramed.refl (s : State) : StartFramed s s :=
  ⟨rfl, rfl, rfl, .inl rfl, .inl rfl, .inl rfl, .inl rfl⟩

theorem startFramed_kept (s : State) : KeptBy .start (StartFramed s) where
  emit _ _ h := { h with }
  latch _ _ h := { h with }
  answered _ h := { h with }
  pointAt _ _ h := { h with }
  setDctrl _ _ hv h := { h with dctrl := .inr (List.mem_singleton.mp hv) }
  setEmode _ _ hv h := { h with emode := .inr (List.mem_singleton.mp hv) }
  setBl _ _ hb := nomatch hb
  connect _ _ h := { h with conn := .inr rfl }
  setFunc _ _ h := { h with func := .inr (congrArg funcValue h.cfg) }

theorem runOf_startFramed (s : State) : StartFramed s (runOf .start s) :=
  (startFramed_kept s).run (fun _ _ h => { h with }) (fun _ _ _ h => { h with }) (.refl s)

/-- The last assignment of START is to `phase`, READY or FAILED (R81). -/
theorem closing_start_phase (r : Response) (u : State) :
    (closing .start r u).phase = .ready ∨ (closing .start r u).phase = .failed := by
  rw [closing, if_pos rfl, State.setPhase_phase]
  split
  · exact .inl rfl
  · exact .inr rfl

/-- A START that is not stuck has moved `phase` on. -/
theorem runOf_start_phase (h : (runOf .start s).seq = .idle) :
    (runOf .start s).phase = .ready ∨ (runOf .start s).phase = .failed := by
  obtain ⟨k, -, hseq, -⟩ | ⟨u, r, -, hrun, -⟩ := (startFramed_kept s).run_cases (.refl s)
  · exact Seq.noConfusion (h.symm.trans hseq)
  · rw [hrun, State.respond_phase]
    exact closing_start_phase r u

/-- Settles O43: the registers by the frame every update of START keeps, the phase by how START ends. -/
theorem startFrame : Obligations.StartFrame := by
  intro s t hexec
  obtain ⟨-, -, rfl⟩ := exec_next hexec
  obtain ⟨cfg, bl, port, func, dctrl, emode, conn⟩ := runOf_startFramed s
  exact ⟨cfg, bl, port, func, dctrl, emode, conn, runOf_start_phase⟩

end Sys2Proof.Machine
end

section
/-! SUPPORT. Construction (rules R10, R32, R131): it gives a state exactly for a valid configuration, with the values of
R32. -/

namespace Sys2Proof.Machine

variable {c : Configuration} {s : State}

/-- The values of R32 for configuration `c`; the expander's latch is not among them. -/
structure ResetValues (c : Configuration) (s : State) : Prop where
  cfg : s.cfg = c
  phase : s.phase = .unstarted
  seq : s.seq = .idle
  func : s.func = 0x00
  dctrl : s.dctrl = 0x00
  emode : s.emode = 0x00
  bl : s.bl = true
  conn : s.conn = false
  trace : s.trace = []
  responses : s.responses = []

theorem construct_of_valid (h : c.valid = true) : ∃ s, State.construct c = some s ∧ ResetValues c s :=
  ⟨_, if_pos h, rfl, rfl, rfl, rfl, rfl, rfl, rfl, rfl, rfl, rfl⟩

theorem construct_of_invalid (h : c.valid = false) : State.construct c = none :=
  if_neg (by simp [h])

/-- A constructed state comes from a valid configuration and has the values of R32. -/
theorem construct_some (h : State.construct c = some s) : c.valid = true ∧ ResetValues c s := by
  cases hv : c.valid with
  | false => rw [construct_of_invalid hv] at h; cases h
  | true =>
    obtain ⟨u, hu, values⟩ := construct_of_valid hv
    rw [hu] at h
    cases h
    exact ⟨rfl, values⟩

/-- The reset state is a constructed one. -/
theorem construct_standardConfiguration : State.construct standardConfiguration = some State.reset :=
  if_pos (by decide)

/-- Settles O9: the two branches of construction, and the standard configuration through the first. -/
theorem constructionGivesTheResetValues : Obligations.ConstructionGivesTheResetValues := by
  refine ⟨fun c hv => ?_, fun c => construct_of_invalid, construct_standardConfiguration⟩
  obtain ⟨s, hs, cfg, phase, seq, func, dctrl, emode, bl, conn, trace, responses⟩ := construct_of_valid hv
  exact ⟨s, hs, cfg, phase, seq, func, dctrl, emode, bl, conn, trace, responses⟩

/-- With the values of R32 the registers are clear and the bus is at rest: every clause of the invariant is about those,
or about a phase or a running request the state does not have. -/
theorem ResetValues.inv (h : ResetValues c s) (hv : c.valid = true) : s.Inv where
  cfgValid := by rw [h.cfg, hv]
  funcLegal := .inl h.func
  funcReady hr := by rw [h.phase] at hr; cases hr
  dctrlLegal := by rw [h.dctrl]; decide
  emodeLegal := by rw [h.emode]; decide
  connReady hr := by rw [h.phase] at hr; cases hr
  connUnstarted _ _ := h.conn
  seqLegal := by rw [State.SeqLegal, h.seq]; trivial
  rwLow := by rw [h.trace]; exact fun _ hv => nomatch hv
  strobeSound := by rw [h.trace]; exact Strobe.noConfusion
  strobeClosed _ := by rw [h.trace]; rfl

theorem construct_inv (h : State.construct c = some s) : s.Inv := by
  obtain ⟨hv, values⟩ := construct_some h
  exact values.inv hv

/-- Settles O52: a constructed state has the values of R32, and the reset state is a constructed one. -/
theorem constructionSatisfiesTheInvariant : Obligations.ConstructionSatisfiesTheInvariant :=
  ⟨fun _ _ => construct_inv, construct_inv construct_standardConfiguration⟩

end Sys2Proof.Machine
end

section
/-! SUPPORT. What one step appends (rules R36, R38, R41, R42, R47, R74, R113): every request only adds to the trace and
the responses, the request at the head of the port is the one that runs, and a Transmit or a WRITE whose calls are answered
OK appends its event list. -/

namespace Sys2Proof.Machine

variable {s t : State}

/-! ## What a state adds to an earlier one -/

/-- `t` has the configuration of `s`, and its trace and its responses continue those of `s` (R5, R41, R42). -/
structure Extends (s t : State) : Prop where
  trace : s.trace <+: t.trace
  responses : s.responses <+: t.responses
  cfg : t.cfg = s.cfg

theorem Extends.refl (s : State) : Extends s s := ⟨List.prefix_rfl, List.prefix_rfl, rfl⟩

theorem Extends.emit (h : Extends s t) (e : Event) : Extends s (t.emit e) :=
  { h with trace := h.trace.trans (List.prefix_append _ [e]) }

theorem Extends.respond (h : Extends s t) (r : Response) : Extends s (t.respond r) :=
  { h with responses := h.responses.trans (List.prefix_append _ [r]) }

/-- An event is appended by `emit` alone, and no other update of a request touches the trace, the responses or the
configuration. -/
theorem extends_kept (i : Instr) (s : State) : KeptBy i (Extends s) where
  emit _ e h := h.emit e
  latch _ _ h := { h with }
  answered _ h := { h with }
  pointAt _ _ h := { h with }
  setDctrl _ _ _ h := { h with }
  setEmode _ _ _ h := { h with }
  setBl _ _ _ h := { h with }
  connect _ _ h := { h with }
  setFunc _ _ h := { h with }

theorem runOf_extends (i : Instr) (s : State) : Extends s (runOf i s) :=
  (extends_kept i s).run (fun _ r h => h.respond r) (fun _ _ _ h => { h with }) (.refl s)

/-- Settles O48: a step waits, which changes nothing, or runs an admitted request, every update of which appends. -/
theorem stepsOnlyAppend : Obligations.StepsOnlyAppend := by
  intro s t hstep
  obtain ⟨-, -, rfl⟩ | ⟨-, rest, i, -, -, hexec⟩ := step_next hstep
  · exact ⟨List.prefix_rfl, List.prefix_rfl, rfl⟩
  · obtain ⟨-, -, rfl⟩ := exec_next hexec
    obtain ⟨trace, responses, cfg⟩ := runOf_extends i { s with port := rest }
    exact ⟨trace, responses, cfg⟩

/-! ## The request a step runs -/

/-- Settles O6: the port gives its head away, and the decoder gives the request that runs (R47, R49). -/
theorem stepRunsTheDecodedRequest : Obligations.StepRunsTheDecodedRequest := by
  intro s r rest i hport hdecode
  have hfetch : s.fetch = some (r, { s with port := rest }) := by simp only [State.fetch, hport]
  simp only [step, hfetch, hdecode]

/-! ## Transmit -/

/-- A nibble already in bits [7:4] goes into the control byte as it is (R59, R61). -/
theorem controlByte_masked (c : Configuration) (bl : Bool) (n mode : Byte) :
    controlByte c bl (n &&& 0xF0) mode = (n &&& 0xF0) ||| mode ||| blBit c bl := by
  rw [controlByte, BitVec.and_assoc, BitVec.and_self]

theorem transmit_of_answersOk (v mode : Byte) (h : s.AnswersOk 4) :
    transmit v mode s = .done (s.played (transmitEvents s.cfg s.bl v mode)) := by
  rw [transmit_eq_play]
  exact play_of_answersOk (plain_transmitEvents _ _ _ _) h

/-- Settles O14: a Transmit is the strobe of the high nibble and then that of the low one, and each control byte carries
its nibble unchanged. -/
theorem transmitWritesHighNibbleFirst : Obligations.TransmitWritesHighNibbleFirst := by
  intro s v mode h
  rw [transmit_of_answersOk v mode h]
  simp only [transmitEvents, nibbleEvents, controlByte_masked, blBit, List.cons_append, List.nil_append]

/-! ## WRITE -/

/-- Settles O40: an admitted WRITE is its loop, which sends every byte whole and in order (R38), and then the response
with the count. -/
theorem writeSendsEveryByte : Obligations.WriteSendsEveryByte := by
  intro s bytes hready hok
  obtain ⟨q, hloop⟩ := sendBytes_of_answersOk (Instr.opcode (.write bytes)) bytes 1 0 s hok
  rw [exec_of_ready Instr.noConfusion hready, runOf, hloop, finishWrite, withSeq_respond, Nat.zero_add]

end Sys2Proof.Machine
end

section
/-! SUPPORT. The decoder and the encoder (rules R49 to R56): what `decode` gives for each format, and that it inverts
`encode`. -/

namespace Sys2Proof.Machine

variable {r : Request} {i : Instr}

/-! ## The decoder by format -/

theorem decode_of_reserved (h : formatOf r.op = none) : decode r = .error (.reservedOp r.op) := by
  simp only [decode, h]

theorem decode_of_formatN (h : formatOf r.op = some .N) :
    decode r = (decodeN r.op).elim (.error (.reservedOp r.op)) .ok := by
  simp only [decode, h]
  cases decodeN r.op <;> rfl

theorem decode_of_formatC (h : formatOf r.op = some .C) : decode r = .ok (.setCursor r.a.toInt r.b.toInt) := by
  simp only [decode, h]

theorem decode_of_formatG (h : formatOf r.op = some .G) : decode r = .ok (.registerChar r.a.toInt r.bm) := by
  simp only [decode, h]

theorem decode_of_formatS (h : formatOf r.op = some .S) : decode r = .ok (.write r.data) := by
  simp only [decode, h]

/-! ## Format N -/

/-- The opcode of a format-N request selects it (R55). -/
theorem decodeN_opcode (h : i.format = .N) : decodeN i.opcode = some i := by
  cases i with
  | setCursor | registerChar | write => cases h
  | _ => rfl

/-- What a format-N opcode selects has that opcode and that format. -/
theorem decodeN_eq_some {op : Byte} (h : decodeN op = some i) : i.opcode = op ∧ i.format = .N := by
  simp only [decodeN] at h
  split at h <;> cases h
  all_goals next hop => exact ⟨BitVec.eq_of_toNat_eq hop.symm, rfl⟩

/-- A request without operands is well formed (R50). -/
theorem wellFormed_of_formatN (h : i.format = .N) : i.wellFormed = true := by
  cases i with
  | setCursor | registerChar | write => cases h
  | _ => rfl

/-! ## Operand lanes -/

/-- A lane carries every `int32` number (R12, R51, R52). -/
theorem toInt_ofInt_of_isInt32 {x : Int} (h : isInt32 x = true) : (BitVec.ofInt 32 x).toInt = x := by
  simp only [isInt32, Bool.and_eq_true, decide_eq_true_eq] at h
  exact BitVec.toInt_ofInt_eq_self (by decide) h.1 (by omega)

/-- A lane carries only `int32` numbers. -/
theorem isInt32_toInt (x : Lane) : isInt32 x.toInt = true := by
  have low := x.le_toInt
  have high := x.toInt_lt
  simp only [isInt32, Bool.and_eq_true, decide_eq_true_eq]
  omega

/-! ## Encode and decode -/

theorem encode_op (i : Instr) : (encode i).op = i.opcode := by
  cases i <;> rfl

/-- The map gives the record of a request the request's format. -/
theorem formatOf_encode (i : Instr) : formatOf (encode i).op = some i.format := by
  rw [encode_op, formatOf_opcode]

theorem decode_encode_of_formatN (h : i.format = .N) : decode (encode i) = .ok i := by
  rw [decode_of_formatN (h ▸ formatOf_encode i), encode_op, decodeN_opcode h, Option.elim_some]

theorem decode_encode (h : i.wellFormed = true) : decode (encode i) = .ok i := by
  cases i with
  | setCursor col row =>
    simp only [Instr.wellFormed, Bool.and_eq_true] at h
    rw [decode_of_formatC (formatOf_encode _), encode, toInt_ofInt_of_isInt32 h.1, toInt_ofInt_of_isInt32 h.2]
  | registerChar slot bm =>
    rw [decode_of_formatG (formatOf_encode _), encode, toInt_ofInt_of_isInt32 h]
  | write data => exact decode_of_formatS (formatOf_encode _)
  | _ => exact decode_encode_of_formatN rfl

/-- Settles O3: an opcode gives back the format, a lane the `int32` number, and a format-N opcode the request. -/
theorem decodeOfEncodeIsTheRequest : Obligations.DecodeOfEncodeIsTheRequest :=
  fun _ => decode_encode

/-- Everything a record can decode to (R49 to R56). -/
theorem decode_ok (h : decode r = .ok i) :
    (formatOf r.op = some .N ∧ decodeN r.op = some i) ∨
    (formatOf r.op = some .C ∧ i = .setCursor r.a.toInt r.b.toInt) ∨
    (formatOf r.op = some .G ∧ i = .registerChar r.a.toInt r.bm) ∨
    (formatOf r.op = some .S ∧ i = .write r.data) := by
  cases hf : formatOf r.op with
  | none => rw [decode_of_reserved hf] at h; cases h
  | some f =>
    cases f with
    | N =>
      rw [decode_of_formatN hf] at h
      cases hn : decodeN r.op <;> rw [hn] at h <;> cases h
      exact .inl ⟨rfl, rfl⟩
    | C => rw [decode_of_formatC hf] at h; cases h; exact .inr (.inl ⟨rfl, rfl⟩)
    | G => rw [decode_of_formatG hf] at h; cases h; exact .inr (.inr (.inl ⟨rfl, rfl⟩))
    | S => rw [decode_of_formatS hf] at h; cases h; exact .inr (.inr (.inr ⟨rfl, rfl⟩))

/-- Only one opcode of the map has format C, one format G and one format S (R55). -/
theorem eq_of_formatOf {op : Byte} :
    (formatOf op = some .C → op = 0x20) ∧ (formatOf op = some .G → op = 0x30) ∧ (formatOf op = some .S → op = 0x40) := by
  revert op; decide

theorem opcode_of_decode (h : decode r = .ok i) : i.opcode = r.op := by
  obtain ⟨-, hn⟩ | ⟨hf, rfl⟩ | ⟨hf, rfl⟩ | ⟨hf, rfl⟩ := decode_ok h
  · exact (decodeN_eq_some hn).1
  · exact (eq_of_formatOf.1 hf).symm
  · exact (eq_of_formatOf.2.1 hf).symm
  · exact (eq_of_formatOf.2.2 hf).symm

theorem wellFormed_of_decode (h : decode r = .ok i) : i.wellFormed = true := by
  obtain ⟨-, hn⟩ | ⟨-, rfl⟩ | ⟨-, rfl⟩ | ⟨-, rfl⟩ := decode_ok h
  · exact wellFormed_of_formatN (decodeN_eq_some hn).2
  · simp only [Instr.wellFormed, isInt32_toInt, Bool.and_self]
  · exact isInt32_toInt r.a
  · rfl

/-- Settles O4: the operands come from lanes, so they are `int32` and go back to the same lanes. -/
theorem decodedRequestsAreWellFormed : Obligations.DecodedRequestsAreWellFormed := by
  intro r i h
  have hop := opcode_of_decode h
  refine ⟨wellFormed_of_decode h, hop, by rw [← hop, formatOf_opcode], by rw [encode_op, hop], ?_⟩
  obtain ⟨-, hn⟩ | ⟨-, rfl⟩ | ⟨-, rfl⟩ | ⟨-, rfl⟩ := decode_ok h
  · simp [(decodeN_eq_some hn).2]
  · simp [encode, Instr.format]
  · simp [encode, Instr.format]
  · simp [encode, Instr.format]

/-! ## Reserved opcodes -/

/-- An opcode is reserved when it has no row in the map (R56). -/
theorem formatOf_eq_none_iff (op : Byte) : formatOf op = none ↔ ∀ row ∈ opMap, row.op ≠ op := by
  simp [formatOf]

/-- The gaps of the map are the ranges of R56. -/
theorem reserved_iff (op : Byte) :
    formatOf op = none ↔
      op.toNat = 0x00 ∨ (0x03 ≤ op.toNat ∧ op.toNat ≤ 0x0F) ∨ (0x21 ≤ op.toNat ∧ op.toNat ≤ 0x2F) ∨
        (0x31 ≤ op.toNat ∧ op.toNat ≤ 0x3F) ∨ 0x41 ≤ op.toNat := by
  rw [formatOf_eq_none_iff]
  simp only [opMap, opMapLow, opMapHigh, List.cons_append, List.nil_append, List.forall_mem_cons, List.not_mem_nil,
    false_implies, implies_true, and_true]
  bv_omega

/-- Settles O1: the gaps of the map, and the decoder's only error, which the step passes on as a refusal. -/
theorem reservedOpcodesAreRefused : Obligations.ReservedOpcodesAreRefused := by
  refine ⟨reserved_iff, fun s r rest hport hf => ?_⟩
  simp only [step, State.fetch, hport, decode_of_reserved hf]

/-! ## The fields a format names -/

/-- Settles O2: the opcode gives the format, and for each format the decoder's value is a term in the fields it names. -/
theorem decodeReadsOnlyTheFieldsOfItsFormat : Obligations.DecodeReadsOnlyTheFieldsOfItsFormat := by
  intro r q hop hC hG hS
  cases hf : formatOf r.op with
  | none => rw [decode_of_reserved hf, decode_of_reserved (hop ▸ hf), hop]
  | some f =>
    cases f with
    | N => rw [decode_of_formatN hf, decode_of_formatN (hop ▸ hf), hop]
    | C => rw [decode_of_formatC hf, decode_of_formatC (hop ▸ hf), (hC hf).1, (hC hf).2]
    | G => rw [decode_of_formatG hf, decode_of_formatG (hop ▸ hf), (hG hf).1, (hG hf).2]
    | S => rw [decode_of_formatS hf, decode_of_formatS (hop ▸ hf), hS hf]

/-- Settles O5: each record is the one that encodes its request. -/
theorem opcodesOfTheMapDecode : Obligations.OpcodesOfTheMapDecode :=
  have cursor : encode (.setCursor (-1) 1) = { op := 0x20, a := 0xFFFFFFFF, b := 0x00000001 } := by decide
  ⟨decode_encode (i := .start) rfl, decode_encode (i := .stop) rfl, decode_encode (i := .clear) rfl,
    decode_encode (i := .backlightOff) rfl, decode_encode (i := .autoscrollOff) rfl,
    cursor ▸ decode_encode (i := .setCursor (-1) 1) rfl,
    decode_encode (i := .registerChar 9 ⟨0x00, 0x0A, 0x1F, 0x1F, 0x0E, 0x04, 0x00, 0x00⟩) rfl,
    decode_encode (i := .write [0x48, 0x69]) rfl⟩

end Sys2Proof.Machine
end

section
/-! SUPPORT. The command bytes that carry a register or an operand (rules R63 to R66, R68). -/

namespace Sys2Proof.Machine

/-- A register that holds only bits below bit `k` adds its value to the command bit `k`. -/
theorem toNat_twoPow_or {k : Nat} (hk : k < 8) {v : Byte} (h : v &&& (BitVec.allOnes 8 <<< k) = 0) :
    (BitVec.twoPow 8 k ||| v).toNat = 2 ^ k + v.toNat ∧ v.toNat < 2 ^ k := by
  have lt : v.toNat < 2 ^ k := by
    refine Nat.lt_pow_two_of_testBit _ fun j hj => ?_
    rw [BitVec.testBit_toNat]
    by_cases h8 : j < 8
    · have bit := congrArg (BitVec.getLsbD · j) h
      simpa only [BitVec.getLsbD_and, BitVec.getLsbD_shiftLeft, BitVec.getLsbD_allOnes, h8, show ¬j < k by omega,
        show j - k < 8 by omega, decide_true, decide_false, Bool.not_false, Bool.and_true, BitVec.ofNat_eq_ofNat,
        BitVec.getLsbD_zero] using bit
    · exact BitVec.getLsbD_of_ge v j (by omega)
  refine ⟨?_, lt⟩
  rw [BitVec.toNat_or, BitVec.toNat_twoPow_of_lt hk]
  simpa using (Nat.two_pow_add_eq_or_of_lt lt 1).symm

theorem displayControlByte_toNat {d : Byte} (h : d &&& 0xF8 = 0) :
    (displayControlByte d).toNat = 0x08 + d.toNat ∧ d.toNat < 0x08 :=
  toNat_twoPow_or (k := 3) (by decide) h

theorem entryModeByte_toNat {e : Byte} (h : e &&& 0xFC = 0) :
    (entryModeByte e).toNat = 0x04 + e.toNat ∧ e.toNat < 0x04 :=
  toNat_twoPow_or (k := 2) (by decide) h

/-- R64, R83: one of two lines, 5×10 dots, or neither; never both. -/
theorem functionSetByte_funcValue (c : Configuration) :
    functionSetByte (funcValue c) = 0x20 ∨ functionSetByte (funcValue c) = 0x24 ∨ functionSetByte (funcValue c) = 0x28 := by
  by_cases two : 1 < c.rows
  · have notOne : c.rows ≠ 1 := by omega
    exact .inr (.inr (by simp [functionSetByte, funcValue, two, notOne, maskN]))
  · by_cases tall : c.rows = 1 ∧ c.dotSize = .dots5x10
    · exact .inr (.inl (by simp [functionSetByte, funcValue, tall, maskF]))
    · exact .inl (by simp only [functionSetByte, funcValue, if_neg two, if_neg tall]; rfl)

/-- Settles O16: FUNC has at most one of its bits, and the legal values of DCTRL and EMODE lie below their command's bit. -/
theorem modeCommandBytes : Obligations.ModeCommandBytes := by
  refine ⟨fun c _ => functionSetByte_funcValue c, fun d hd => ?_, fun e he => ?_, rfl, rfl⟩
  · obtain ⟨sum, lt⟩ := displayControlByte_toNat hd
    exact ⟨sum, by omega⟩
  · obtain ⟨sum, lt⟩ := entryModeByte_toNat he
    exact ⟨sum, by omega⟩

/-- The three low bits of the lane are the operand modulo 8, because 8 divides 2 ^ 32 (R52). -/
theorem slotOf_toNat (slot : Int) : ((slotOf slot).toNat : Int) = slot % 8 := by
  rw [slotOf, BitVec.extractLsb'_toNat, BitVec.toNat_ofInt, Nat.shiftRight_zero]
  omega

theorem setCgramByte_toNat (s : BitVec 3) : (setCgramByte s).toNat = 0x40 + 8 * s.toNat := by
  revert s; decide

/-- Settles O39: the slot is the operand modulo 8, and the byte is a sum over the eight slots. -/
theorem glyphSlotWrapsModuloEight : Obligations.GlyphSlotWrapsModuloEight :=
  fun slot => ⟨slotOf_toNat slot, setCgramByte_toNat (slotOf slot)⟩

end Sys2Proof.Machine
end

section
/-! SUPPORT. How a request ends (rules R19, R70, R87, R112, R118): stuck at one of its statements that call the byte-sink,
or answered with one response whose fields are said once for all requests. -/

namespace Sys2Proof.Machine

variable {i : Instr} {s t : State}

/-! ## The statements that call the byte-sink -/

/-- Every statement of `body`, the first at index `k`, is at an index of `ks` or makes no byte-sink call (R19). -/
def CallsAt (ks : List Nat) (k : Nat) (body : List Action) : Prop :=
  ∀ p ∈ body.zipIdx k, p.2 ∈ ks ∨ CallFree p.1

variable {ks : List Nat} {k : Nat}

theorem callsAt_nil : CallsAt ks k [] := fun _ h => nomatch h

theorem CallsAt.call {a : Action} {body : List Action} (hk : k ∈ ks) (h : CallsAt ks (k + 1) body) :
    CallsAt ks k (a :: body) :=
  List.forall_mem_cons.mpr ⟨.inl hk, h⟩

theorem CallsAt.free {a : Action} {body : List Action} (ha : CallFree a) (h : CallsAt ks (k + 1) body) :
    CallsAt ks k (a :: body) :=
  List.forall_mem_cons.mpr ⟨.inr ha, h⟩

/-- A body all of whose indices are in `ks`. -/
theorem callsAt_of_range {body : List Action} (h : ∀ j ∈ List.range' k body.length, j ∈ ks) : CallsAt ks k body := by
  intro p hp
  obtain ⟨low, high, -⟩ := List.mem_zipIdx hp
  exact .inl (h p.2 (List.mem_range'_1.mpr ⟨low, high⟩))

/-- A body of one call. -/
theorem callsAt_one (a : Action) (hk : k ∈ ks) : CallsAt ks k [a] := .call hk callsAt_nil

/-- A command and then a wait (R92, R93). -/
theorem callsAt_call_wait (a : Action) (d : Delay) (hk : k ∈ ks) : CallsAt ks k [a, wait d] :=
  .call hk (.free (callFree_wait d) callsAt_nil)

/-- A register update and then a call (R94 to R101, R104 to R107). -/
theorem callsAt_update_call (f : State → State) (a : Action) (hk : k + 1 ∈ ks) :
    CallsAt ks k [fun s => .done (f s), a] :=
  .free (callFree_update f) (.call hk callsAt_nil)

/-- The calls of a request with a body. -/
theorem callsAt_body (i : Instr) : CallsAt (callStatements i) 0 (bodyOf i).1 := by
  cases i with
  | start | stop | write => exact callsAt_nil
  | clear | home => exact callsAt_call_wait _ _ (.head _)
  | shiftLeft | shiftRight => exact callsAt_one _ (.head _)
  | displayOn | displayOff | underlineOn | underlineOff | blinkOn | blinkOff | leftToRight | rightToLeft
  | autoscrollOn | autoscrollOff | backlightOn | backlightOff => exact callsAt_update_call _ _ (.head _)
  | setCursor col row =>
    exact .free callFree_localAssign (.free callFree_localAssign (.free callFree_localAssign (callsAt_one _ (.head _))))
  | registerChar slot bm =>
    exact .free callFree_localAssign (callsAt_of_range fun _ hj => hj)

/-- The calls of START: every init state but the two plain waits (R81). -/
theorem callsAt_initSequence : CallsAt (callStatements .start) 1 (initSequence.map InitState.action) :=
  .call (by decide) (.free (callFree_wait .powerOn) (.call (by decide) (.free (callFree_wait .prime)
    (callsAt_of_range (by decide)))))

/-- The calls of STOP: one in each step (R86). -/
theorem callsAt_stopSteps : ∀ p ∈ stopSteps, CallsAt (callStatements .stop) p.1 p.2 :=
  List.forall_mem_cons.mpr ⟨callsAt_call_wait _ _ (by decide), List.forall_mem_cons.mpr ⟨callsAt_update_call _ _ (by decide),
    List.forall_mem_cons.mpr ⟨callsAt_update_call _ _ (by decide), List.forall_mem_cons.mpr
      ⟨callsAt_update_call _ _ (by decide), List.forall_mem_nil _⟩⟩⟩⟩

/-! ## Stuck -/

/-- The request `i` is stuck at one of its statements that call the byte-sink (R118). -/
def StuckIn (i : Instr) (t : State) : Prop := ∃ k ∈ callStatements i, t.seq = .running i.opcode k

/-- A body that hangs leaves its request stuck in a call. -/
theorem stuckIn_of_runFrom {body : List Action} (hq : ∀ a ∈ body, SeqFixed a) (hc : CallsAt (callStatements i) k body)
    (h : runFrom i.opcode k body s = .hung t) : StuckIn i t := by
  obtain ⟨j, a, hj, ha, hseq⟩ := runFrom_hung hq h
  have mem : (a, k + j) ∈ body.zipIdx k := List.mk_add_mem_zipIdx_iff_getElem?.mpr hj
  exact ⟨k + j, (hc _ mem).resolve_right ha, hseq⟩

/-! ## The response -/

/-- The fields of a response to request `i` (R70, R87, R112). -/
structure ResponseFields (i : Instr) (r : Response) : Prop where
  status : r.status = .ok ↔ r.errs = []
  single : i ≠ .stop → r.errs.length ≤ 1
  four : r.errs.length ≤ 4
  code : (∀ slot bm, i ≠ .registerChar slot bm) → r.code = 0
  errCode : r.status = .err → r.code = 0

theorem fields_of_ok {r : Response} (hs : r.status = .ok) (he : r.errs = [])
    (hc : (∀ slot bm, i ≠ .registerChar slot bm) → r.code = 0) : ResponseFields i r where
  status := by simp [hs, he]
  single _ := by simp [he]
  four := by simp [he]
  code := hc
  errCode h := by rw [hs] at h; cases h

/-- A success response with the default code point. -/
theorem fields_ok (i : Instr) (n : Nat) : ResponseFields i { status := .ok, count := n } :=
  fields_of_ok rfl rfl fun _ => rfl

theorem fields_errResponse {es : List ErrorRecord} {n : Nat} (hne : es ≠ []) (h1 : i ≠ .stop → es.length ≤ 1)
    (h4 : es.length ≤ 4) : ResponseFields i (errResponse es n) where
  status := by simp [errResponse, hne]
  single := h1
  four := h4
  code _ := rfl
  errCode _ := rfl

/-- The response of a request that one error ended (R122). -/
theorem fields_raised (i : Instr) (e : ErrorRecord) (n : Nat) : ResponseFields i (errResponse [e] n) :=
  fields_errResponse (List.cons_ne_nil e []) (fun _ => Nat.le_refl 1) (by simp)

theorem fields_bodyOf (i : Instr) : ResponseFields i (bodyOf i).2 := by
  cases i with
  | registerChar slot bm => exact fields_of_ok rfl rfl fun h => absurd rfl (h slot bm)
  | _ => exact fields_ok _ 0

/-- Each step of STOP adds at most one error (R87). -/
theorem runStop_errs_length (errs : List ErrorRecord) (steps : List (Nat × List Action)) (s : State) :
    (runStop errs steps s).1.length ≤ errs.length + steps.length := by
  induction steps generalizing errs s with
  | nil => exact Nat.le_refl _
  | cons p rest ih =>
    simp only [runStop, List.length_cons]
    cases runFrom (Instr.opcode .stop) p.1 p.2 s with
    | done t => have := ih errs t; simp only; omega
    | raised e t => have := ih (errs ++ [e]) t; simp only [List.length_append, List.length_singleton] at this ⊢; omega
    | hung t => simp only; omega

/-! ## How each request ends -/

/-- The request `i` is stuck in a call, or its last action is its response. -/
def Ends (i : Instr) (t : State) : Prop := StuckIn i t ∨ ∃ u r, t = State.respond u r ∧ ResponseFields i r

theorem ends_finish {res : Res} (h : ∀ t, res = .hung t → StuckIn i t) : Ends i (finish (bodyOf i).2 res) := by
  obtain ⟨u, -, hf⟩ | ⟨e, u, -, hf⟩ | ⟨u, hr, hf⟩ := finish_cases (bodyOf i).2 res <;> rw [hf]
  · exact .inr ⟨u, _, rfl, fields_bodyOf i⟩
  · exact .inr ⟨u, _, rfl, fields_raised i e 0⟩
  · exact .inl (h u hr)

theorem ends_finishStart {res : Res} (h : ∀ t, res = .hung t → StuckIn .start t) : Ends .start (finishStart res) := by
  cases res with
  | done t => exact .inr ⟨t.setPhase .ready, _, rfl, fields_ok .start 0⟩
  | raised e t => exact .inr ⟨t.setPhase .failed, _, rfl, fields_raised .start e 0⟩
  | hung t => exact .inl (h t rfl)

theorem ends_finishStop {x : List ErrorRecord × Res} (hlen : x.1.length ≤ 4)
    (h : ∀ t, x.2 = .hung t → StuckIn .stop t) : Ends .stop (finishStop x) := by
  obtain ⟨es, res⟩ := x
  have answered : Ends .stop (finishStop (es, .done res.state)) := by
    cases es with
    | nil => exact .inr ⟨_, _, rfl, fields_ok .stop 0⟩
    | cons e es => exact .inr ⟨_, _, rfl, fields_errResponse (List.cons_ne_nil e es) (absurd rfl) hlen⟩
  cases res with
  | done t => exact answered
  | raised e t => cases es <;> exact answered
  | hung t => cases es <;> exact .inl (h t rfl)

theorem ends_finishWrite {bytes : List Byte} {x : Nat × Res} (h : ∀ t, x.2 = .hung t → StuckIn (.write bytes) t) :
    Ends (.write bytes) (finishWrite x) := by
  obtain ⟨n, res⟩ := x
  cases res with
  | done t => exact .inr ⟨t, _, rfl, fields_ok _ n⟩
  | raised e t => exact .inr ⟨t, _, rfl, fields_raised _ e n⟩
  | hung t => exact .inl (h t rfl)

theorem runOf_ends (i : Instr) (s : State) : Ends i (runOf i s) := by
  have plainBody : Ends i (finish (bodyOf i).2 (runFrom i.opcode 0 (bodyOf i).1 s)) :=
    ends_finish fun _ => stuckIn_of_runFrom (fun a ha q => (statements_seq i q).body a ha) (callsAt_body i)
  cases i with
  | start => exact ends_finishStart fun _ => stuckIn_of_runFrom initStates_seqFixed callsAt_initSequence
  | stop =>
    refine ends_finishStop (runStop_errs_length [] stopSteps s) fun t ht => ?_
    obtain ⟨p, hp, u, hu⟩ := runStop_hung ht
    exact stuckIn_of_runFrom (fun a ha q => (statements_seq .stop q).stopSteps p hp a ha) (callsAt_stopSteps p hp) hu
  | write bytes =>
    refine ends_finishWrite fun t ht => ?_
    obtain ⟨j, hj, hseq⟩ := sendBytes_hung ht
    exact ⟨1 + 2 * j, List.mem_map_of_mem (List.mem_range.mpr hj), hseq⟩
  | _ => exact plainBody

/-! ## One response -/

/-- The responses are those of `s`. -/
def Unanswered (s t : State) : Prop := t.responses = s.responses

theorem unanswered_kept (i : Instr) (s : State) : KeptBy i (Unanswered s) where
  emit _ _ h := h
  latch _ _ h := h
  answered _ h := h
  pointAt _ _ h := h
  setDctrl _ _ _ h := h
  setEmode _ _ _ h := h
  setBl _ _ _ h := h
  connect _ _ h := h
  setFunc _ _ h := h

@[simp] theorem closing_responses (r : Response) (u : State) : (closing i r u).responses = u.responses := by
  rw [closing]; split <;> rfl

/-- A request is stuck in a call and has answered nothing, or is over and has answered once. -/
theorem runOf_answers (i : Instr) (s : State) :
    (StuckIn i (runOf i s) ∧ (runOf i s).responses = s.responses) ∨
    ((runOf i s).seq = .idle ∧ ∃ r, (runOf i s).responses = s.responses ++ [r] ∧ ResponseFields i r) := by
  have ends := runOf_ends i s
  have runs := (unanswered_kept i s).run_cases rfl
  generalize runOf i s = t at ends runs ⊢
  obtain ⟨k, unanswered, hseq, -⟩ | ⟨u, r, unanswered, rfl, -⟩ := runs
  · obtain stuck | ⟨v, r, rfl, -⟩ := ends
    · exact .inl ⟨stuck, unanswered⟩
    · exact Seq.noConfusion hseq
  · obtain ⟨k, -, hseq⟩ | ⟨v, r', heq, fields⟩ := ends
    · exact Seq.noConfusion hseq
    · have hresp : (closing i r u).responses ++ [r] = v.responses ++ [r'] := congrArg State.responses heq
      obtain rfl : r = r' := List.singleton_inj.mp (List.append_inj_right' hresp rfl)
      exact .inr ⟨rfl, r, by rw [State.respond_responses, closing_responses, unanswered], fields⟩

/-- Settles O45: an admitted request ends stuck or answered, and a response has one status for its list of errors. -/
theorem oneResponsePerAdmittedRequest : Obligations.OneResponsePerAdmittedRequest := by
  intro i s t hexec
  obtain ⟨-, -, rfl⟩ := exec_next hexec
  obtain stuck | ⟨idle, r, hr, fields⟩ := runOf_answers i s
  · exact .inr stuck
  · exact .inl ⟨idle, r, hr, fields.status⟩

/-- Settles O46: a request that has answered is not stuck, and the response it added is the one whose fields are known. -/
theorem responseFieldsPerRequest : Obligations.ResponseFieldsPerRequest := by
  intro i s t r hexec hr
  obtain ⟨-, -, rfl⟩ := exec_next hexec
  obtain ⟨-, silent⟩ | ⟨-, r', hr', fields⟩ := runOf_answers i s
  · exact absurd (hr.symm.trans silent) (by simp)
  · obtain rfl : r' = r := List.singleton_inj.mp (List.append_cancel_left (hr'.symm.trans hr))
    obtain ⟨status, single, four, code, errCode⟩ := fields
    exact ⟨status, single, four, code, errCode⟩

end Sys2Proof.Machine
end

section
/-! SUPPORT. The transport primitives (rules R58 to R62, R71 to R80): what each answer of the byte-sink makes of a write, an
acquisition and a nibble, what the controller latches of a Command or a Data, and the backlight bit of every byte a request
writes. -/

namespace Sys2Proof.Machine

variable {i : Instr} {c : Configuration} {bl : Bool} {s t u : State} {mode : Byte}

/-! ## ExpWrite and Acquire -/

/-- R30: a failed write of `v` leaves the latch at its old value or at `v`. -/
theorem latchAfterFailure_cases (s : State) (v : Byte) : s.latchAfterFailure v = s.exp ∨ s.latchAfterFailure v = v := by
  rw [State.latchAfterFailure]
  split
  · exact .inr rfl
  · exact .inl rfl

/-- Settles O11: each answer selects its branch of the primitive, and the latch after a failure is one of R30's two. -/
theorem expWriteFollowsTheByteSink : Obligations.ExpWriteFollowsTheByteSink := by
  intro s v
  refine ⟨fun h => ?_, fun h => ⟨s.latchAfterFailure v, latchAfterFailure_cases s v, ?_⟩, fun h => ?_⟩ <;>
    simp only [expWrite, h]

/-- Settles O12: each answer selects its branch of the primitive, and only that of OK connects. -/
theorem acquireFollowsTheByteSink : Obligations.AcquireFollowsTheByteSink := by
  intro s
  refine ⟨fun h => ?_, fun h => ?_, fun h => ?_⟩ <;> simp only [acquire, h]

/-! ## SendNibble -/

/-- Settles O13: a nibble is the playing of its four events, so it is complete, or it ends at the first or at the second
write; what the latch held before the second is the byte of the first. -/
theorem sendNibbleStrobesOnce : Obligations.SendNibbleStrobesOnce := by
  intro s n mode b
  have strobe : sendNibble n mode s =
      play [.write (b ||| s.cfg.enMask), .delay .enPw, .write b, .delay .settle] s := sendNibble_eq_play n mode s
  rw [strobe]
  refine ⟨fun h => play_of_answersOk rfl h, fun h => ?_, fun h => ?_⟩
  · refine ⟨_, latchAfterFailure_cases s _, ?_⟩
    rw [play_of_failsAt rfl rfl h]
    simp only [State.playedToFailedWrite, beforeCall, played_nil]
  · exact ⟨_, latchAfterFailure_cases (s.played [.write (b ||| s.cfg.enMask), .delay .enPw]) b, play_of_failsAt rfl rfl h⟩

/-! ## What the controller latches -/

/-- A Transmit whose writes succeed appends events of which the controller latches the two nibbles, high first (R80). -/
theorem transmit_latched (hl : LinesDisjoint s.cfg) (v : Byte) (hm : IsMode s.cfg mode) (h : s.AnswersOk 4) :
    ∃ t evs, transmit v mode s = .done t ∧ t.trace = s.trace ++ evs ∧
      latched s.cfg evs = [(mode != 0, v.extractLsb' 4 4), (mode != 0, v.extractLsb' 0 4)] := by
  refine ⟨_, transmitEvents s.cfg s.bl v mode, transmit_of_answersOk v mode h, rfl, ?_⟩
  simpa only [latched, List.append_nil, latchedFrom] using latchedFrom_transmitEvents hl s.bl v hm []

/-- Settles O15: Command and Data are Transmits in the two modes of R60, and only the mode of Data raises RS. -/
theorem transmitLatchesTheTwoNibbles : Obligations.TransmitLatchesTheTwoNibbles := by
  intro s v hvalid h
  have hl := linesDisjoint_of_valid hvalid
  have raised : (s.cfg.rsMask != 0) = true := bne_iff_ne.mpr hl.rs_ne
  refine ⟨transmit_latched hl v (.inl rfl) h, ?_⟩
  simpa only [data, dataMode, raised] using transmit_latched hl v (.inr rfl) h

/-! ## The backlight bit -/

/-- The backlight line of the byte `v` is BL = `bl` (R79 item 2). -/
def CarriesBl (c : Configuration) (bl : Bool) (v : Byte) : Prop := v &&& c.blMask = blBit c bl

/-- Both bytes of a nibble carry BL: raising EN leaves the backlight line alone (R59). -/
theorem nibbleEvents_carryBl (hl : LinesDisjoint c) (bl : Bool) (n : Byte) (hm : IsMode c mode) :
    ∀ v ∈ writtenBytes (nibbleEvents c bl n mode), CarriesBl c bl v := by
  have low : CarriesBl c bl (controlByte c bl n mode) := controlByte_bl hl bl n hm
  have high : CarriesBl c bl (controlByte c bl n mode ||| c.enMask) := (strobe_and hl.en_bl).trans low
  simp only [nibbleEvents, writtenBytes, List.forall_mem_cons]
  exact ⟨high, low, List.forall_mem_nil _⟩

theorem transmitEvents_carryBl (hl : LinesDisjoint c) (bl : Bool) (v : Byte) (hm : IsMode c mode) :
    ∀ w ∈ writtenBytes (transmitEvents c bl v mode), CarriesBl c bl w := by
  intro w hw
  rw [transmitEvents, writtenBytes_append, List.mem_append] at hw
  exact hw.elim (nibbleEvents_carryBl hl bl _ hm w) (nibbleEvents_carryBl hl bl _ hm w)

/-- `t` comes after `s`, in configuration `c` and with BL = `bl`, and every byte written in between carries that BL. -/
structure WroteLit (c : Configuration) (bl : Bool) (s t : State) : Prop where
  wrote : Wrote (CarriesBl c bl) s t
  cfg : t.cfg = c
  bl : t.bl = bl

theorem WroteLit.refl (s : State) : WroteLit s.cfg s.bl s s := ⟨.refl _ s, rfl, rfl⟩

/-- Writing BL writes no byte. -/
theorem wroteLit_setBl (s : State) (bl : Bool) : WroteLit s.cfg bl s (s.setBl bl) := ⟨.refl _ s, rfl, rfl⟩

theorem WroteLit.congr (h : WroteLit c bl s t) (hc : u.cfg = t.cfg) (hb : u.bl = t.bl) (ht : u.trace = t.trace) :
    WroteLit c bl s u :=
  ⟨by rw [Wrote, ht]; exact h.wrote, hc.trans h.cfg, hb.trans h.bl⟩

/-- However the action ends, the bytes it wrote carry BL, which it leaves as it is. -/
abbrev KeepsLit (c : Configuration) (bl : Bool) (s : State) (a : Action) : Prop :=
  Holds (WroteLit c bl s) (fun _ => WroteLit c bl s) (WroteLit c bl s) a

/-- Playing events whose bytes carry BL, whatever the byte-sink answers. -/
theorem WroteLit.play (h : WroteLit c bl s t) {es : List Event} (hp : plain es = true)
    (hes : ∀ v ∈ writtenBytes es, CarriesBl c bl v) :
    (play es t).Sat (WroteLit c bl s) (fun _ => WroteLit c bl s) (WroteLit c bl s) := by
  have wrote : Wrote (CarriesBl c bl) s (Machine.play es t).state := h.wrote.trans (play_wrote hes t)
  obtain hr | ⟨k, v, -, hr⟩ | ⟨k, -, hr⟩ := play_cases hp t <;> rw [hr] at wrote ⊢ <;> exact ⟨wrote, h.cfg, h.bl⟩

/-- A wait or an acquisition writes no byte. -/
theorem WroteLit.silent (h : WroteLit c bl s t) (e : Event) (he : writtenBytes [e] = []) (hc : u.cfg = t.cfg)
    (hb : u.bl = t.bl) (ht : u.trace = t.trace ++ [e]) : WroteLit c bl s u :=
  ⟨h.wrote.trans ⟨[e], ht, by simp [he]⟩, hc.trans h.cfg, hb.trans h.bl⟩

theorem acquire_keepsLit : KeepsLit c bl s acquire := by
  intro t h
  simp only [acquire]
  cases t.answerAt 0
  · exact h.silent (.acquired _ _) rfl rfl rfl rfl
  · exact h.silent (.acquireFailed _ _) rfl rfl rfl rfl
  · exact h

section Lines

variable (hl : LinesDisjoint c)
include hl

theorem transmit_keepsLit (v : Byte) (hm : IsMode c mode) : KeepsLit c bl s (transmit v mode) := by
  intro t h
  rw [transmit_eq_play, h.cfg, h.bl]
  exact h.play rfl (transmitEvents_carryBl hl bl v hm)

theorem sendNibble_keepsLit (n : Byte) (hm : IsMode c mode) : KeepsLit c bl s (sendNibble n mode) := by
  intro t h
  rw [sendNibble_eq_play, h.cfg, h.bl]
  exact h.play rfl (nibbleEvents_carryBl hl bl n hm)

/-- The backlight-only byte is the backlight bit itself (R62). -/
theorem blOnly_keepsLit : KeepsLit c bl s blOnly := by
  intro t h
  obtain ⟨-, -, -, self, -⟩ := blBit_and hl bl
  rw [blOnly_eq_play, h.cfg, h.bl]
  exact h.play rfl (List.forall_mem_singleton.mpr self)

/-- A request that writes no other value to BL than the one it has. -/
theorem statements_keepLit (hb : ∀ b ∈ blValues i, b = bl) (s : State) :
    Statements i (WroteLit c bl s) (WroteLit c bl s) (fun _ => WroteLit c bl s) where
  command v := transmit_keepsLit hl v (.inl rfl)
  data v t h := transmit_keepsLit hl v (.inr (by rw [dataMode, h.cfg])) t h
  sendNibble n := sendNibble_keepsLit hl n (.inl rfl)
  blOnly := blOnly_keepsLit hl
  wait d _ h := h.silent (.delay d) rfl rfl rfl rfl
  acquire _ := acquire_keepsLit
  setDctrl _ _ _ h := h.congr rfl rfl rfl
  setEmode _ _ _ h := h.congr rfl rfl rfl
  setBl _ b hmem h := { h with bl := hb b hmem }
  setFunc _ _ h := h.congr rfl rfl rfl

theorem runOf_wroteLit (hb : ∀ b ∈ blValues i, b = bl) (h : WroteLit c bl s t) : WroteLit c bl s (runOf i t) := by
  obtain ⟨k, stuck, -⟩ | ⟨u, r, lit, hrun, -⟩ :=
    (statements_keepLit hl hb s).run_cases (fun _ _ h => h.congr rfl rfl rfl) (fun _ _ h => h) h
  · exact stuck
  · rw [hrun]
    exact lit.congr (closing_cfg r u) (by rw [State.respond_bl, closing]; split <;> rfl) (closing_trace r u)

end Lines

/-- A request other than STOP writes BL before anything else or not at all (R96, R97): it runs as from a state that has
the value of BL it leaves. -/
theorem runOf_eq_runOf_setBl (hi : i ≠ .stop) (s : State) :
    ∃ b, runOf i s = runOf i (s.setBl b) ∧ ∀ b' ∈ blValues i, b' = b := by
  cases i with
  | stop => exact absurd rfl hi
  | backlightOn => exact ⟨true, rfl, List.forall_mem_singleton.mpr rfl⟩
  | backlightOff => exact ⟨false, rfl, List.forall_mem_singleton.mpr rfl⟩
  | _ => exact ⟨s.bl, rfl, List.forall_mem_nil _⟩

/-- Every byte of a request other than STOP carries the BL the request leaves. -/
theorem runOf_wrote (hl : LinesDisjoint s.cfg) (hi : i ≠ .stop) :
    Wrote (CarriesBl s.cfg (runOf i s).bl) s (runOf i s) := by
  obtain ⟨b, hrun, hb⟩ := runOf_eq_runOf_setBl hi s
  have lit : WroteLit s.cfg b s (runOf i (s.setBl b)) := runOf_wroteLit hl hb (wroteLit_setBl s b)
  rw [hrun, lit.bl]
  exact lit.wrote

/-! ## The backlight bit in STOP -/

/-- What holds of the state in each of the three endings holds of the state a result leaves. -/
theorem Res.Sat.state {I H P : State → Prop} {E : ErrorRecord → State → Prop} {r : Res} (h : r.Sat I E H)
    (hI : ∀ t, I t → P t) (hE : ∀ e t, E e t → P t) (hH : ∀ t, H t → P t) : P r.state := by
  cases r with
  | done t => exact hI t h
  | raised e t => exact hE e t h
  | hung t => exact hH t h

/-- The state the clear step of STOP leaves, however it ends. -/
def afterClearStep (s : State) : State := (runFrom (Instr.opcode .stop) 1 clearBody s).state

/-- CLEAR leaves the trace that STOP's clear step leaves (R86). -/
theorem runOf_clear_trace (s : State) : (runOf .clear s).trace = (afterClearStep s).trace := by
  have finished : ∀ r, (finish okResponse r).trace = r.state.trace := fun r => by cases r <;> rfl
  rw [afterClearStep, runFrom_clearBody_trace, ← runFrom_clearBody_trace (Instr.opcode .clear) 0]
  exact finished _

/-- STOP is stuck in its clear step, or goes on with the other steps (R86, R87). -/
theorem runOf_stop_cases (s : State) :
    runOf .stop s = afterClearStep s ∨
    ∃ errs, runOf .stop s = finishStop (runStop errs stopSteps.tail (afterClearStep s)) := by
  rw [afterClearStep, runOf, stopSteps, List.tail_cons, runStop]
  cases runFrom (Instr.opcode .stop) 1 clearBody s with
  | done u => exact .inr ⟨[], rfl⟩
  | raised e u => exact .inr ⟨[e], rfl⟩
  | hung u => exact .inl rfl

/-- The end of STOP writes nothing. -/
theorem WroteLit.finishStop {x : List ErrorRecord × Res} (h : WroteLit c bl s x.2.state) :
    WroteLit c bl s (finishStop x) := by
  obtain ⟨es, r⟩ := x
  cases r <;> cases es <;> exact h.congr rfl rfl rfl

/-- The clear step writes with the BL it finds. -/
theorem afterClearStep_wroteLit (hl : LinesDisjoint s.cfg) : WroteLit s.cfg s.bl s (afterClearStep s) := by
  have keeps := (statements_keepLit (i := .clear) (bl := s.bl) hl (List.forall_mem_nil _) s).body
  have sat := runFrom_sat (op := Instr.opcode .stop) (fun _ _ h => h.congr rfl rfl rfl) keeps
    (fun a ha q => (statements_seq .clear q).body a ha) 1 (.refl s)
  exact sat.state (fun _ h => h) (fun _ _ h => h) (fun _ h => h.1)

/-- The steps of STOP after the clear step begin with BL = 0, so all their bytes carry that (R86, R97). -/
theorem runStop_tail_wroteLit (hl : LinesDisjoint s.cfg) (errs : List ErrorRecord) :
    WroteLit s.cfg false s (runStop errs stopSteps.tail s).2.state := by
  have begins : runStop errs stopSteps.tail s = runStop errs stopSteps.tail (s.setBl false) := rfl
  have keeps := (statements_keepLit (i := .stop) hl (List.forall_mem_singleton.mpr rfl) s).stopSteps
  have sat := runStop_sat (fun _ _ h => h.congr rfl rfl rfl) (fun p hp => keeps p (List.mem_of_mem_tail hp))
    (fun p hp a ha q => (statements_seq .stop q).stopSteps p (List.mem_of_mem_tail hp) a ha)
    (fun _ _ h => h) errs (wroteLit_setBl s false)
  rw [begins]
  exact sat.state (fun _ h => h) (fun _ _ h => h.elim) (fun _ h => h.1)

/-- After its clear step every byte of STOP carries the BL that STOP leaves. -/
theorem runOf_stop_wrote (hl : LinesDisjoint s.cfg) :
    Wrote (CarriesBl s.cfg (runOf .stop s).bl) (afterClearStep s) (runOf .stop s) := by
  obtain stuck | ⟨errs, goesOn⟩ := runOf_stop_cases s
  · rw [stuck]
    exact .refl _ _
  · have cfg : (afterClearStep s).cfg = s.cfg := (afterClearStep_wroteLit hl).cfg
    have lit := (runStop_tail_wroteLit (cfg ▸ hl) errs).finishStop
    rw [goesOn, lit.bl, ← cfg]
    exact lit.wrote

/-- Settles O49: a request other than STOP writes all its bytes with the BL it leaves; STOP first writes those of CLEAR,
with the BL it finds, and then the rest with the BL it leaves. -/
theorem backlightBitIsInEveryWrite : Obligations.BacklightBitIsInEveryWrite := by
  intro i s t hvalid hexec
  have hl := linesDisjoint_of_valid hvalid
  obtain ⟨idle, phase, rfl⟩ := exec_next hexec
  by_cases hi : i = .stop
  · subst hi
    obtain ⟨first, hfirst, lit⟩ := (afterClearStep_wroteLit hl).wrote
    obtain ⟨later, hlater, lit'⟩ := runOf_stop_wrote hl
    exact ⟨first, later, by rw [hlater, hfirst], absurd rfl,
      fun _ => ⟨_, exec_of_admitted idle phase, (runOf_clear_trace s).trans hfirst⟩, lit, lit'⟩
  · obtain ⟨later, hlater, lit⟩ := runOf_wrote hl hi
    exact ⟨[], later, by rw [hlater, List.append_nil], fun _ => rfl, fun h => absurd h hi, List.forall_mem_nil _, lit⟩

end Sys2Proof.Machine
end

section
/-! SUPPORT. START (rules R81 to R85, R117): once the acquisition is answered OK it is the rows of S2 to S13, so a START
answered OK to the end, and one whose write fails, are those two endings of a list of rows. -/

namespace Sys2Proof.Machine

variable {s : State}

/-! ## The value of FUNC -/

theorem funcValue_of_rows_gt_one {c : Configuration} (h : 1 < c.rows) : funcValue c = 0x08 := by
  simp [funcValue, h, Nat.ne_of_gt h, maskN]

/-- With one row only the dot size counts. -/
theorem funcValue_of_one_row {c : Configuration} (h : c.rows = 1) :
    funcValue c = if c.dotSize = .dots5x10 then 0x04 else 0x00 := by
  simp [funcValue, h, maskF]

/-- Settles O18: the two geometries of R83, and FunctionSet of each value. -/
theorem functionSetFollowsTheGeometry : Obligations.FunctionSetFollowsTheGeometry := by
  intro c
  refine ⟨fun rows => ?_, fun row tall => ?_, fun row short => ?_⟩
  · rw [funcValue_of_rows_gt_one rows]; decide
  · rw [funcValue_of_one_row row, tall]; decide
  · rw [funcValue_of_one_row row, short]; decide

/-! ## After the acquisition -/

/-- `s` once the expander is acquired (R78). -/
def State.acquired (s : State) : State := s.connect.played [.acquired s.cfg.i2cAddr s.cfg.busIndex]

@[simp] theorem State.acquired_answerAt (i : Nat) : s.acquired.answerAt i = s.answerAt (i + 1) := by
  rw [State.acquired, State.answerAt_played, State.answerAt_connect, Nat.add_comm]; rfl

theorem acquire_of_ok (h : s.answerAt 0 = .ok) : acquire s = .done s.acquired := by
  simp [acquire, h, State.acquired, State.played, State.connect, State.answered, State.emit, callCount, lastWrite]

/-- The acquisition once answered OK, START goes on with S2. -/
theorem runOf_start_of_acquired (h : s.answerAt 0 = .ok) :
    runOf .start s =
      finishStart (runFrom (Instr.opcode .start) 2 ((startRows s.cfg s.bl).map Row.act) s.acquired) := by
  rw [runOf_start, acquire_of_ok (s := s.pointAt (Instr.opcode .start) 1) h]; rfl

/-! ## Every call answered OK -/

/-- `s` after a successful START (R82). -/
def State.started (s : State) : State :=
  { s with conn := true, func := funcValue s.cfg, dctrl := 0x04, emode := 0x02, phase := .ready }.played
    (startEvents s.cfg s.bl)

theorem runOf_start_of_answersOk (h : s.AnswersOk 30) : runOf .start s = s.started.respond okResponse := by
  obtain ⟨q, hrows⟩ := rows_ok (op := Instr.opcode .start) (startRows_play s.cfg s.bl) 2 s.acquired rfl rfl
    fun i hi => by rw [State.acquired_answerAt]; exact h (i + 1) (Nat.succ_lt_succ hi)
  rw [runOf_start_of_acquired (h 0 (by decide)), hrows, State.started, startRows_events, ← List.singleton_append,
    played_append]
  rfl

/-- Settles O17: an admitted START is the acquisition and then its rows, every call of which is answered OK. -/
theorem startInitialisesTheController : Obligations.StartInitialisesTheController := by
  intro s hs h
  rw [exec_start_of_unstarted hs, runOf_start_of_answersOk h]
  rfl

/-! ## A write that fails -/

/-- The assignments of START made before its write number `k` (R82): FUNC's comes with S9, DCTRL's with S10 and EMODE's
with S12, whose first writes are 9, 13 and 21. -/
theorem assign_startRows_to (c : Configuration) (bl : Bool) (t : State) {k : Nat} (hk : k < 29) :
    t.assign (rowsWrites (rowsTo (startRows c bl) k)) =
      { t with func := if 9 ≤ k then funcValue c else t.func, dctrl := if 13 ≤ k then 0x04 else t.dctrl,
               emode := if 21 ≤ k then 0x02 else t.emode } := by
  interval_cases k <;> rfl

theorem playedToFailedWrite_acquired_cons (s : State) (address : BitVec 7) (bus : Nat) (es : List Event) (k : Nat)
    (v : Byte) :
    s.playedToFailedWrite (.acquired address bus :: es) (k + 1) v =
      (s.played [.acquired address bus]).playedToFailedWrite es k v := by
  simp only [State.playedToFailedWrite, beforeCall, ← played_append, List.singleton_append]

theorem runOf_start_of_failsAt {k : Nat} {v : Byte} (h : s.FailsAt (k + 1))
    (hv : callAt (k + 1) (startEvents s.cfg s.bl) = some (.write v)) :
    runOf .start s =
      State.takeException
        (State.playedToFailedWrite
          { s with
            conn := true
            func := if 9 ≤ k then funcValue s.cfg else s.func
            dctrl := if 13 ≤ k then 0x04 else s.dctrl
            emode := if 21 ≤ k then 0x02 else s.emode
            phase := .failed }
          (startEvents s.cfg s.bl) (k + 1) v)
        (.ioError v) := by
  rw [startRows_events] at hv ⊢
  have hk : k < 29 := callAt_lt (es := rowsEvents (startRows s.cfg s.bl)) hv
  have hf : s.acquired.FailsAt k :=
    ⟨fun i hi => by rw [State.acquired_answerAt]; exact h.1 (i + 1) (Nat.succ_lt_succ hi),
      by rw [State.acquired_answerAt]; exact h.2⟩
  obtain ⟨q, hrows⟩ := rows_fail (op := Instr.opcode .start) (startRows_play s.cfg s.bl) 2 s.acquired rfl rfl hf hv
  rw [runOf_start_of_acquired (h.1 0 (Nat.succ_pos k)), hrows, assign_startRows_to _ _ _ hk]
  rw [playedToFailedWrite_acquired_cons]
  rfl

/-- Settles O21: a failed write ends the rows of START at its row, with that row's assignment made. -/
theorem startWriteFailure : Obligations.StartWriteFailure := by
  intro s k v hs h hv
  rw [exec_start_of_unstarted hs, runOf_start_of_failsAt h hv]
  rfl

/-! ## What the controller latches -/

/-- The FunctionSet byte is the nibble 0x2 and then the value of FUNC (R64, R83). -/
theorem functionSetByte_nibbles (c : Configuration) :
    (0x20 ||| funcValue c).extractLsb' 4 4 = (0x2 : BitVec 4) ∧
    (0x20 ||| funcValue c).extractLsb' 0 4 = (funcValue c).extractLsb' 0 4 := by
  constructor
  · obtain h | h | h := functionSetByte_funcValue c <;> exact congrArg (BitVec.extractLsb' 4 4) h
  · rw [BitVec.extractLsb'_or]
    exact BitVec.zero_or

/-- The priming write leaves EN low, so the latched nibbles are those of the four init nibbles and of the five commands
(R80, R84). -/
theorem latched_startEvents {c : Configuration} (hl : LinesDisjoint c) (bl : Bool) :
    latched c (startEvents c bl) =
      [(false, 0x3), (false, 0x3), (false, 0x3), (false, 0x2),
       (false, 0x2), (false, (funcValue c).extractLsb' 0 4),
       (false, 0x0), (false, 0xC), (false, 0x0), (false, 0x1), (false, 0x0), (false, 0x6), (false, 0x0), (false, 0x2)] := by
  have nibble := fun n rest => latchedFrom_nibbleEvents hl bl n (.inl rfl) rest
  have command := fun v rest => latchedFrom_transmitEvents hl bl v (.inl rfl) rest
  obtain ⟨high, low⟩ := functionSetByte_nibbles c
  simp only [latched, startEvents, handshakeEvents, modeEvents, clearEvents, homeEvents, cmdEvents, List.append_assoc,
    List.cons_append, List.nil_append, latchedFrom, if_pos (blBit_and hl bl).1, nibble, command, high, low]
  rfl

/-- Settles O19: a successful START appends its event list, whose nibbles and commands the controller latches in order. -/
theorem startHandshakeOrder : Obligations.StartHandshakeOrder := by
  intro s hs hvalid h
  refine ⟨startEvents s.cfg s.bl, ⟨s.started.respond okResponse, okResponse, ?_, rfl, rfl, rfl⟩,
    latched_startEvents (linesDisjoint_of_valid hvalid) s.bl⟩
  rw [exec_start_of_unstarted hs, runOf_start_of_answersOk h]

end Sys2Proof.Machine
end

section
/-! SUPPORT. STOP (rules R86 to R88, R121): each of its four steps is a register update and then an event list, so how a
step ends is how that list ends, and STOP goes on from what the step leaves. -/

namespace Sys2Proof.Machine

variable {s t : State} {es : List Event} {e : StepEnd} {as bs : List SinkAnswer}

/-! ## The answers to a step -/

theorem State.AnswersWith.left (h : s.AnswersWith (as ++ bs)) : s.AnswersWith as :=
  fun i a hi => h i a (List.getElem?_append_left (List.getElem?_eq_some_iff.mp hi).1 ▸ hi)

/-- The answers after the first ones are those of a state that those bring nearer. -/
theorem State.AnswersWith.right (h : s.AnswersWith (as ++ bs))
    (ht : ∀ i, t.answerAt i = s.answerAt (as.length + i)) : t.AnswersWith bs := by
  intro i a hi
  rw [ht]
  exact h _ a (by rw [List.getElem?_append_right (Nat.le_add_right _ _), Nat.add_sub_cancel_left, hi])

theorem answersWith_replicate_ok {n : Nat} : s.AnswersWith (List.replicate n .ok) ↔ s.AnswersOk n := by
  simp [State.AnswersWith, State.AnswersOk, List.getElem?_replicate]

theorem State.AnswersWith.failsAt {k : Nat} (h : s.AnswersWith (List.replicate k .ok ++ [.fail])) : s.FailsAt k :=
  ⟨answersWith_replicate_ok.mp h.left, h k .fail (by simp)⟩

/-! ## What a step leaves -/

/-- The state a step whose events on success are `es` leaves, when it ends as `e` says (R87). -/
def StepEnd.leaves (es : List Event) (s : State) : StepEnd → State
  | .success => s.played es
  | .failsAt k =>
    match callAt k es with
    | some (.write v) => s.playedToFailedWrite es k v
    | _ => s

theorem leaves_of_callAt {k : Nat} {v : Byte} (hv : callAt k es = some (.write v)) :
    (StepEnd.failsAt k).leaves es s = s.playedToFailedWrite es k v := by
  simp only [StepEnd.leaves, hv]

/-- What neither the played events nor a failed write touches, a step leaves as it is. -/
theorem leaves_keeps {α : Type} (f : State → α) (hp : ∀ s es, f (State.played s es) = f s)
    (hw : ∀ s es k v, f (State.playedToFailedWrite s es k v) = f s) (e : StepEnd) : f (e.leaves es s) = f s := by
  cases e with
  | success => exact hp s es
  | failsAt k =>
    simp only [StepEnd.leaves]
    split
    · exact hw _ _ _ _
    · rfl

@[simp] theorem leaves_cfg : (e.leaves es s).cfg = s.cfg := leaves_keeps State.cfg (fun _ _ => rfl) (fun _ _ _ _ => rfl) e
@[simp] theorem leaves_bl : (e.leaves es s).bl = s.bl := leaves_keeps State.bl (fun _ _ => rfl) (fun _ _ _ _ => rfl) e
@[simp] theorem leaves_dctrl : (e.leaves es s).dctrl = s.dctrl :=
  leaves_keeps State.dctrl (fun _ _ => rfl) (fun _ _ _ _ => rfl) e
@[simp] theorem leaves_responses : (e.leaves es s).responses = s.responses :=
  leaves_keeps State.responses (fun _ _ => rfl) (fun _ _ _ _ => rfl) e

theorem callCount_beforeCall {k : Nat} (hk : k ≤ callCount es) : callCount (beforeCall k es) = k := by
  induction es generalizing k with
  | nil => exact (Nat.le_zero.mp hk).symm
  | cons x es ih =>
    cases x with
    | delay d =>
      have := ih hk
      cases k <;> simpa [beforeCall, callCount] using this
    | _ =>
      cases k with
      | zero => rfl
      | succ k => simp [beforeCall, callCount, ih (k := k) (by simpa [callCount] using hk)]

section Ends

variable (hp : plain es = true) (he : e.possible es)
include hp he

theorem leaves_trace : (e.leaves es s).trace = s.trace ++ e.events es := by
  cases e with
  | success => rfl
  | failsAt k =>
    obtain ⟨v, hv⟩ := exists_callAt hp he
    rw [leaves_of_callAt hv]
    simp [State.playedToFailedWrite, StepEnd.events, hv, Event.failed]

theorem leaves_answerAt (i : Nat) : (e.leaves es s).answerAt i = s.answerAt ((e.answers es).length + i) := by
  cases e with
  | success => simp [StepEnd.leaves, StepEnd.answers]
  | failsAt k =>
    obtain ⟨v, hv⟩ := exists_callAt hp he
    rw [leaves_of_callAt hv]
    simp [State.playedToFailedWrite, StepEnd.answers, callCount_beforeCall (Nat.le_of_lt he), Nat.add_assoc, Nat.add_comm 1]

/-- With the answers of its end a step completes without an error, or raises the one error it has. -/
theorem play_of_answersWith (h : s.AnswersWith (e.answers es)) :
    (e.errors es = [] ∧ play es s = .done (e.leaves es s)) ∨
    ∃ x, e.errors es = [x] ∧ play es s = .raised x (e.leaves es s) := by
  cases e with
  | success => exact .inl ⟨rfl, play_of_answersOk hp (answersWith_replicate_ok.mp h)⟩
  | failsAt k =>
    obtain ⟨v, hv⟩ := exists_callAt hp he
    refine .inr ⟨.ioError v, by simp only [StepEnd.errors, hv], ?_⟩
    rw [leaves_of_callAt hv, play_of_failsAt hp hv h.failsAt]

end Ends

/-! ## The bodies of the steps -/

/-- Wherever `seq` points, the body makes the register update `upd` and then plays `evs`. -/
def BodyPlays (body : List Action) (upd : State → State) (evs : State → List Event) : Prop :=
  ∀ op k s, ∃ q, runFrom op k body s = (play (evs s) (upd s)).withSeq q

theorem clearBody_plays : BodyPlays clearBody id fun s => clearEvents s.cfg s.bl := by
  intro op k s
  have command : command clearByte (s.pointAt op k) = (play (cmdEvents s.cfg s.bl 0x01) s).withSeq (.running op k) := by
    rw [command_eq_play]; exact play_withSeq _ s _
  simp only [clearBody, runFrom_cons, clearEvents, play_append, both, command, id]
  cases play (cmdEvents s.cfg s.bl 0x01) s with
  | done t => exact ⟨.running op (k + 1), rfl⟩
  | raised x t => exact ⟨.running op k, rfl⟩
  | hung t => exact ⟨.running op k, rfl⟩

/-- A body of an update and one more statement, which plays events. -/
theorem bodyPlays_update {f : State → State} {a : Action} {evs : State → List Event}
    (hf : ∀ s op j k, (f (s.pointAt op j)).pointAt op k = (f s).withSeq (.running op k))
    (ha : ∀ s q, a ((f s).withSeq q) = play (evs s) ((f s).withSeq q)) :
    BodyPlays [fun s => .done (f s), a] f evs := by
  intro op k s
  refine ⟨.running op (k + 1), ?_⟩
  rw [runFrom_cons, andThen_done, runFrom_cons, hf, ha, play_withSeq]
  cases play (evs s) (f s) <;> rfl

theorem backlightOffBody_plays :
    BodyPlays backlightOffBody (fun s => s.setBl false) fun s => backlightEvents s.cfg false :=
  bodyPlays_update (fun _ _ _ _ => rfl) fun _ _ => blOnlyIfWrites_eq_play _

theorem underlineOffBody_plays :
    BodyPlays underlineOffBody (fun s => s.setDctrl (s.dctrl &&& ~~~0x02)) fun s =>
      cmdEvents s.cfg s.bl (0x08 ||| (s.dctrl &&& ~~~0x02)) :=
  bodyPlays_update (fun _ _ _ _ => rfl) fun _ _ => command_eq_play _ _

theorem displayOffBody_plays :
    BodyPlays displayOffBody (fun s => s.setDctrl (s.dctrl &&& ~~~0x04)) fun s =>
      cmdEvents s.cfg s.bl (0x08 ||| (s.dctrl &&& ~~~0x04)) :=
  bodyPlays_update (fun _ _ _ _ => rfl) fun _ _ => command_eq_play _ _

/-! ## One step -/

/-- The end of STOP does not see where `seq` points before its next statement. -/
theorem finishStop_withSeq (errs : List ErrorRecord) (steps : List (Nat × List Action)) (s : State) (q : Seq) :
    finishStop (runStop errs steps (s.withSeq q)) = finishStop (runStop errs steps s) := by
  induction steps with
  | nil => cases errs <;> rfl
  | cons p rest ih =>
    obtain ⟨k, body⟩ := p
    cases body with
    | nil => exact ih
    | cons a body => rfl

variable {body : List Action} {upd : State → State} {evs : State → List Event} {errs : List ErrorRecord} {k : Nat}
  {rest : List (Nat × List Action)}

/-- A step of STOP that ends as `e` says: its errors are appended, and the next step begins in the state it leaves. -/
theorem finishStop_step (hb : BodyPlays body upd evs) (hupd : upd s = t) (hes : evs s = es) (hp : plain es = true)
    (he : e.possible es) (ha : t.AnswersWith (e.answers es)) :
    finishStop (runStop errs ((k, body) :: rest) s) =
      finishStop (runStop (errs ++ e.errors es) rest (e.leaves es t)) := by
  obtain ⟨q, hrun⟩ := hb (Instr.opcode .stop) k s
  subst hupd hes
  obtain ⟨herr, hplay⟩ | ⟨x, herr, hplay⟩ := play_of_answersWith hp he ha <;>
    simp only [runStop, hrun, hplay, Res.withSeq, herr, finishStop_withSeq, List.append_nil]

/-- The response of STOP with the errors of its steps (R86, R87). -/
def stopResponse (errs : List ErrorRecord) : Response :=
  if errs = [] then okResponse else errResponse errs

theorem finishStop_done (errs : List ErrorRecord) (s : State) :
    finishStop (errs, .done s) = s.respond (stopResponse errs) := by
  cases errs <;> rfl

/-! ## The four steps -/

/-- The state STOP's steps leave when they end as `e1` to `e4` say (R86). -/
def stopped (s : State) (e1 e2 e3 e4 : StepEnd) : State :=
  let d := s.dctrl &&& ~~~0x02
  let s1 := e1.leaves (clearEvents s.cfg s.bl) s
  let s2 := e2.leaves (backlightEvents s.cfg false) (s1.setBl false)
  let s3 := e3.leaves (cmdEvents s.cfg false (0x08 ||| d)) (s2.setDctrl d)
  e4.leaves (cmdEvents s.cfg false (0x08 ||| (d &&& ~~~0x04))) (s3.setDctrl (d &&& ~~~0x04))

@[simp] theorem stopped_responses (s : State) (e1 e2 e3 e4 : StepEnd) :
    (stopped s e1 e2 e3 e4).responses = s.responses := by simp [stopped]

/-- A STOP whose steps end as `e1` to `e4` say attempts all four and answers with their errors in order (R86, R87). -/
theorem runOf_stop_of_answersWith {e1 e2 e3 e4 : StepEnd} {es1 es2 es3 es4 : List Event}
    (hes1 : es1 = clearEvents s.cfg s.bl) (hes2 : es2 = backlightEvents s.cfg false)
    (hes3 : es3 = cmdEvents s.cfg false (0x08 ||| (s.dctrl &&& ~~~0x02)))
    (hes4 : es4 = cmdEvents s.cfg false (0x08 ||| ((s.dctrl &&& ~~~0x02) &&& ~~~0x04)))
    (p1 : e1.possible es1) (p2 : e2.possible es2) (p3 : e3.possible es3) (p4 : e4.possible es4)
    (h : s.AnswersWith (e1.answers es1 ++ e2.answers es2 ++ e3.answers es3 ++ e4.answers es4)) :
    runOf .stop s = (stopped s e1 e2 e3 e4).respond
      (stopResponse (e1.errors es1 ++ e2.errors es2 ++ e3.errors es3 ++ e4.errors es4)) ∧
    (stopped s e1 e2 e3 e4).trace = s.trace ++ e1.events es1 ++ e2.events es2 ++ e3.events es3 ++ e4.events es4 := by
  subst hes1 hes2 hes3 hes4
  have plain2 := plain_backlightEvents s.cfg false
  simp only [List.append_assoc] at h
  have h2 := h.right (t := (e1.leaves _ s).setBl false) (leaves_answerAt rfl p1)
  have h3 := h2.right (t := (e2.leaves _ _).setDctrl (s.dctrl &&& ~~~0x02)) (leaves_answerAt plain2 p2)
  have h4 := h3.right (t := (e3.leaves _ _).setDctrl ((s.dctrl &&& ~~~0x02) &&& ~~~0x04)) (leaves_answerAt rfl p3)
  constructor
  · rw [runOf, stopSteps, finishStop_step (t := s) clearBody_plays rfl rfl rfl p1 h.left,
      finishStop_step backlightOffBody_plays rfl (by simp) plain2 p2 h2.left,
      finishStop_step underlineOffBody_plays (by simp) (by simp) rfl p3 h3.left,
      finishStop_step displayOffBody_plays (by simp) (by simp) rfl p4 h4, runStop, finishStop_done]
    rfl
  · simp only [stopped, leaves_trace rfl p4, State.setDctrl_trace, leaves_trace rfl p3, leaves_trace plain2 p2,
      State.setBl_trace, leaves_trace rfl p1]

/-- Settles O25: an admitted STOP goes from each step to the next with the answers that are left, whatever the step did. -/
theorem stopAggregatesTheErrorsOfItsSteps : Obligations.StopAggregatesTheErrorsOfItsSteps := by
  intro s e1 e2 e3 e4 hs es1 es2 es3 es4 p1 p2 p3 p4 h
  obtain ⟨run, trace⟩ := runOf_stop_of_answersWith (es1 := es1) (es2 := es2) (es3 := es3) (es4 := es4)
    rfl rfl rfl rfl p1 p2 p3 p4 h
  refine ⟨_, exec_of_ready Instr.noConfusion hs, ?_⟩
  rw [run]
  exact ⟨rfl, trace, by rw [State.respond_responses, stopped_responses]; rfl⟩

/-- Settles O23: a STOP whose four steps all succeed has no error to return. -/
theorem stopQuiescesTheDisplay : Obligations.StopQuiescesTheDisplay := by
  intro s hs h
  have answers := answersWith_replicate_ok.mpr h
  simp only [stopEvents, callCount_append, ← List.replicate_append_replicate] at answers
  obtain ⟨run, -⟩ := runOf_stop_of_answersWith (e1 := .success) (e2 := .success) (e3 := .success) (e4 := .success)
    rfl rfl rfl rfl trivial trivial trivial trivial answers
  rw [exec_of_ready Instr.noConfusion hs, run]
  simp only [stopEvents, played_append]
  rfl

/-! ## The registers a STOP that has ended leaves -/

/-- However its events are answered, a body leaves BL and DCTRL as its update sets them. -/
theorem BodyPlays.registers (hb : BodyPlays body upd evs) (op : Byte) (k : Nat) (s : State) :
    (runFrom op k body s).state.bl = (upd s).bl ∧ (runFrom op k body s).state.dctrl = (upd s).dctrl := by
  have stable : Stable fun t => t.bl = (upd s).bl ∧ t.dctrl = (upd s).dctrl :=
    ⟨fun _ _ h => h, fun _ _ h => h, fun _ h => h⟩
  have kept := (stable.play (evs s) (upd s) ⟨rfl, rfl⟩).state (fun _ h => h) (fun _ _ h => h.1) fun _ h => h
  obtain ⟨q, hrun⟩ := hb op k s
  rw [hrun]
  cases hplay : play (evs s) (upd s) <;> rw [hplay] at kept <;> exact kept

/-- STOP comes to its end only through what each step leaves. -/
theorem runStop_cons_done (h : (runStop errs ((k, body) :: rest) s).2 = .done t) :
    ∃ errs', (runStop errs' rest (runFrom (Instr.opcode .stop) k body s).state).2 = .done t := by
  simp only [runStop] at h
  cases hrun : runFrom (Instr.opcode .stop) k body s with
  | done u => rw [hrun] at h; exact ⟨_, h⟩
  | raised x u => rw [hrun] at h; exact ⟨_, h⟩
  | hung u => rw [hrun] at h; cases h

theorem runStop_registers (h : (runStop errs stopSteps s).2 = .done t) :
    t.bl = false ∧ t.dctrl = (s.dctrl &&& ~~~0x02) &&& ~~~0x04 := by
  obtain ⟨_, h⟩ := runStop_cons_done h
  obtain ⟨_, h⟩ := runStop_cons_done h
  obtain ⟨_, h⟩ := runStop_cons_done h
  obtain ⟨_, h⟩ := runStop_cons_done h
  obtain rfl := Res.done.inj h
  simp [displayOffBody_plays.registers, underlineOffBody_plays.registers, backlightOffBody_plays.registers,
    clearBody_plays.registers]

/-- A STOP whose `seq` is IDLE again is not stuck in a step, so its steps are done (R118). -/
theorem runStop_done_of_idle (h : (runOf .stop s).seq = .idle) : ∃ errs t, runStop [] stopSteps s = (errs, .done t) := by
  have total : ∀ a : Action, Holds (fun _ => True) (fun _ _ => True) (fun _ => True) a :=
    fun a s _ => by cases a s <;> trivial
  have ends := runStop_sat (fun _ _ h => h) (fun _ _ a _ => total a)
    (fun p hp a ha q => (statements_seq .stop q).stopSteps p hp a ha) (fun _ _ h => h) [] (s := s) trivial
  rw [runOf] at h
  cases hrun : runStop [] stopSteps s with
  | mk errs res =>
    rw [hrun] at h ends
    cases res with
    | done t => exact ⟨errs, t, rfl⟩
    | raised e t => exact ends.elim
    | hung t =>
      obtain ⟨-, k, hseq⟩ := ends
      exact Seq.noConfusion (hseq.symm.trans (by cases errs <;> exact h))

/-- The two cleared bits are all that a legal DCTRL has beside B (R21). -/
theorem clear_cursor_and_display {d : Byte} (h : d &&& 0xF8 = 0) : (d &&& ~~~0x02) &&& ~~~0x04 = d &&& 0x01 := by
  revert d; decide

theorem runOf_stop_registers (h : (runOf .stop s).seq = .idle) (hd : s.dctrl &&& 0xF8 = 0) :
    (runOf .stop s).bl = false ∧ (runOf .stop s).dctrl = s.dctrl &&& 0x01 := by
  obtain ⟨errs, t, hrun⟩ := runStop_done_of_idle h
  obtain ⟨bl, dctrl⟩ := runStop_registers (congrArg Prod.snd hrun)
  rw [runOf, hrun, finishStop_done]
  exact ⟨bl, dctrl.trans (clear_cursor_and_display hd)⟩

/-- START is refused in READY (R119). -/
theorem exec_start_of_ready (h : s.Serves .ready) : exec .start s = .refused (.notAdmitted 0x01 .ready) := by
  rw [exec_eq_serve, serve, h.1, h.2]; rfl

/-- Settles O24: BL and DCTRL are those of the steps, which have all ended; the other registers are in STOP's frame. -/
theorem stopLeavesTheQuiescedRegisters : Obligations.StopLeavesTheQuiescedRegisters := by
  intro s t hd hexec hidle
  obtain ⟨-, hready, rfl⟩ := exec_next hexec
  obtain ⟨bl, dctrl⟩ := runOf_stop_registers hidle hd
  have frame := runOf_readyFramed (i := .stop) Instr.noConfusion s
  have serves : (runOf .stop s).Serves .ready := ⟨hidle, frame.phase.trans hready⟩
  exact ⟨serves.2, bl, dctrl, frame.func, frame.emode rfl, frame.conn, fun i hi => ⟨_, exec_of_ready hi serves⟩,
    exec_start_of_ready serves⟩

end Sys2Proof.Machine
end

section
/-! SUPPORT. Display control (rules R89 to R108): each request is a register update and then one event list, the command
with the wait after it or the backlight byte, so how a request ends is how that list ends. -/

namespace Sys2Proof.Machine

variable {i : Instr} {s r t : State} {es : List Event} {a : Action} {evs : State → List Event} {b : Byte}
  {j k n : Nat}

/-! ## The bodies -/

/-- A body of one statement, which plays events. -/
theorem bodyPlays_call (ha : ∀ s q, a (s.withSeq q) = play (evs s) (s.withSeq q)) : BodyPlays [a] id evs := by
  intro op k s
  refine ⟨.running op k, ?_⟩
  simp only [runFrom_cons, pointAt_eq_withSeq, ha, play_withSeq, id]
  cases play (evs s) s <;> rfl

/-- A wait after a body of one statement. -/
theorem BodyPlays.thenWait {upd : State → State} (h : BodyPlays [a] upd evs) (d : Delay) :
    BodyPlays [a, wait d] upd fun s => evs s ++ [.delay d] := by
  intro op k s
  obtain ⟨q, first⟩ := h op k s
  have split : runFrom op k [a, wait d] s = (runFrom op k [a] s).andThen (runFrom op (k + 1) [wait d]) := by
    simp only [runFrom_cons]
    cases a (s.pointAt op k) <;> rfl
  rw [split, first, play_append]
  simp only [both]
  cases play (evs s) (upd s) with
  | done t => exact ⟨.running op (k + 1), rfl⟩
  | raised x t => exact ⟨q, rfl⟩
  | hung t => exact ⟨q, rfl⟩

theorem bodyPlays_command (v : Byte) : BodyPlays [command v] id fun s => cmdEvents s.cfg s.bl v :=
  bodyPlays_call fun _ _ => command_eq_play _ _

/-- An update of DCTRL and its command (R25). -/
theorem bodyPlays_dctrl (f : Byte → Byte) :
    BodyPlays [fun s => .done (s.setDctrl (f s.dctrl)), commandDctrl] (fun s => s.setDctrl (f s.dctrl)) fun s =>
      cmdEvents s.cfg s.bl (0x08 ||| f s.dctrl) :=
  bodyPlays_update (fun _ _ _ _ => rfl) fun _ _ => command_eq_play _ _

/-- An update of EMODE and its command (R26). -/
theorem bodyPlays_emode (f : Byte → Byte) :
    BodyPlays [fun s => .done (s.setEmode (f s.emode)), commandEmode] (fun s => s.setEmode (f s.emode)) fun s =>
      cmdEvents s.cfg s.bl (0x04 ||| f s.emode) :=
  bodyPlays_update (fun _ _ _ _ => rfl) fun _ _ => command_eq_play _ _

/-- An assignment of BL and the backlight byte (R96, R97). -/
theorem bodyPlays_bl (bl : Bool) :
    BodyPlays [assignBl bl, blOnlyIfWrites] (fun s => s.setBl bl) fun s => backlightEvents s.cfg bl :=
  bodyPlays_update (fun _ _ _ _ => rfl) fun _ _ => blOnlyIfWrites_eq_play _

/-- An assignment to a local name leaves nothing behind but the place of `seq`, which the next statement moves on. -/
theorem BodyPlays.localAssign {body : List Action} {upd : State → State} (h : BodyPlays (a :: body) upd evs) :
    BodyPlays (localAssign :: a :: body) upd evs :=
  fun op k s => h op (k + 1) s

theorem bodyPlays_setCursor (col row : Int) :
    BodyPlays (setCursorBody col row) id fun s =>
      cmdEvents s.cfg s.bl (0x80 ||| BitVec.ofNat 8 (cursorAddress s.cfg col row)) :=
  (bodyPlays_call fun _ _ => command_eq_play _ _).localAssign.localAssign.localAssign

/-! ## A request as an update and an event list -/

/-- Request `i` from `s` updates the registers to those of `r`, plays `es` and ends as R89 says. -/
def RunPlays (i : Instr) (s r : State) (es : List Event) : Prop :=
  ∃ q, runOf i s = finish okResponse ((play es r).withSeq q)

/-- A request whose run is its body plays what the body plays. -/
theorem BodyPlays.runPlays {body : List Action} {upd : State → State} (h : BodyPlays body upd evs)
    (hrun : runOf i s = finish okResponse (runFrom i.opcode 0 body s)) : RunPlays i s (upd s) (evs s) := by
  obtain ⟨q, hbody⟩ := h i.opcode 0 s
  exact ⟨q, hrun.trans (congrArg _ hbody)⟩

/-- The waits of a request that issues one command, after that command (R92, R93). -/
def waitsAfter : Instr → List Event
  | .clear | .home => [.delay .clearHome]
  | _ => []

/-- A request that issues one command is its register update, its command and its wait. -/
theorem runPlays_of_singleCommand (h : singleCommand i s = some (r, b, j)) :
    RunPlays i s r (cmdEvents s.cfg s.bl b ++ waitsAfter i) := by
  cases i with
  | start | stop | backlightOn | backlightOff | registerChar | write => cases h
  | clear | home => cases h; exact ((bodyPlays_command _).thenWait .clearHome).runPlays rfl
  | shiftLeft | shiftRight => cases h; exact (bodyPlays_command _).runPlays rfl
  | displayOn => cases h; exact (bodyPlays_dctrl (· ||| 0x04)).runPlays rfl
  | displayOff => cases h; exact (bodyPlays_dctrl (· &&& ~~~0x04)).runPlays rfl
  | underlineOn => cases h; exact (bodyPlays_dctrl (· ||| 0x02)).runPlays rfl
  | underlineOff => cases h; exact (bodyPlays_dctrl (· &&& ~~~0x02)).runPlays rfl
  | blinkOn => cases h; exact (bodyPlays_dctrl (· ||| 0x01)).runPlays rfl
  | blinkOff => cases h; exact (bodyPlays_dctrl (· &&& ~~~0x01)).runPlays rfl
  | leftToRight => cases h; exact (bodyPlays_emode (· ||| 0x02)).runPlays rfl
  | rightToLeft => cases h; exact (bodyPlays_emode (· &&& ~~~0x02)).runPlays rfl
  | autoscrollOn => cases h; exact (bodyPlays_emode (· ||| 0x01)).runPlays rfl
  | autoscrollOff => cases h; exact (bodyPlays_emode (· &&& ~~~0x01)).runPlays rfl
  | setCursor col row => cases h; exact (bodyPlays_setCursor col row).runPlays rfl

/-- A backlight request is its assignment of BL and the backlight byte (R96, R97). -/
theorem runPlays_backlightOn (s : State) : RunPlays .backlightOn s (s.setBl true) (backlightEvents s.cfg true) :=
  (bodyPlays_bl true).runPlays rfl

theorem runPlays_backlightOff (s : State) : RunPlays .backlightOff s (s.setBl false) (backlightEvents s.cfg false) :=
  (bodyPlays_bl false).runPlays rfl

theorem ne_start_of_singleCommand (h : singleCommand i s = some (r, b, j)) : i ≠ .start := by
  rintro rfl
  cases h

/-- A single-command request updates no register but DCTRL and EMODE (R25, R26). -/
theorem singleCommand_keeps {α : Type} (f : State → α) (hd : ∀ v, f (s.setDctrl v) = f s)
    (he : ∀ v, f (s.setEmode v) = f s) (h : singleCommand i s = some (r, b, j)) : f r = f s := by
  cases i with
  | start | stop | backlightOn | backlightOff | registerChar | write => cases h
  | clear | home | shiftLeft | shiftRight | setCursor => cases h; rfl
  | displayOn | displayOff | underlineOn | underlineOff | blinkOn | blinkOff => cases h; exact hd _
  | leftToRight | rightToLeft | autoscrollOn | autoscrollOff => cases h; exact he _

/-- The register update makes no byte-sink call. -/
theorem singleCommand_answerAt (h : singleCommand i s = some (r, b, j)) (k : Nat) : r.answerAt k = s.answerAt k :=
  singleCommand_keeps (State.answerAt · k) (fun _ => rfl) (fun _ => rfl) h

@[simp] theorem callCount_waitsAfter (i : Instr) : callCount (waitsAfter i) = 0 := by cases i <;> rfl

@[simp] theorem plain_waitsAfter (i : Instr) : plain (waitsAfter i) = true := by cases i <;> rfl

theorem plain_cmdEvents_waitsAfter (c : Configuration) (bl : Bool) (b : Byte) (i : Instr) :
    plain (cmdEvents c bl b ++ waitsAfter i) = true := by
  rw [plain_append, plain_waitsAfter]; rfl

/-! ## How a request ends -/

/-- Every call answered OK: the update, all the events and an OK response (R89). -/
theorem RunPlays.of_answersOk (h : RunPlays i s r es) (hp : plain es = true) (ha : r.AnswersOk (callCount es)) :
    runOf i s = (r.played es).respond okResponse := by
  obtain ⟨q, hrun⟩ := h
  rw [hrun, play_of_answersOk hp ha]; rfl

/-- A failed write is the last event, and the update stands (R90, R117). -/
theorem RunPlays.of_failsAt {v : Byte} (h : RunPlays i s r es) (hp : plain es = true)
    (hv : callAt k es = some (.write v)) (hf : r.FailsAt k) :
    runOf i s = (r.playedToFailedWrite es k v).takeException (.ioError v) := by
  obtain ⟨q, hrun⟩ := h
  rw [hrun, play_of_failsAt hp hv hf]; rfl

/-- What no event, no response and no move of `seq` touches is, after the request, what the update made it, however the
request ends (R90). -/
theorem RunPlays.keeps {α : Type} (f : State → α) (h : RunPlays i s r es) (hst : Stable fun t => f t = f r)
    (hseq : ∀ t q, f (State.withSeq t q) = f t) (hresp : ∀ t x, f (State.respond t x) = f t) :
    f (runOf i s) = f r := by
  obtain ⟨q, hrun⟩ := h
  have kept := hst.play es r rfl
  rw [hrun]
  cases hplay : play es r with
  | done t => rw [hplay] at kept; exact ((hresp _ _).trans (hseq t q)).trans kept
  | raised e t => rw [hplay] at kept; exact ((hresp _ _).trans (hseq t q)).trans kept.1
  | hung t => rw [hplay] at kept; exact (hseq t q).trans kept

/-! ## Single commands answered OK -/

theorem exec_of_singleCommand (hs : s.Serves .ready) (h : singleCommand i s = some (r, b, j)) (ha : s.AnswersOk 4) :
    exec i s = .next ((r.played (cmdEvents s.cfg s.bl b ++ waitsAfter i)).respond okResponse) := by
  have answers : r.AnswersOk (callCount (cmdEvents s.cfg s.bl b ++ waitsAfter i)) := fun m hm => by
    rw [singleCommand_answerAt h]
    exact ha m (by simpa [callCount_append] using hm)
  rw [exec_of_ready (ne_start_of_singleCommand h) hs,
    (runPlays_of_singleCommand h).of_answersOk (plain_cmdEvents_waitsAfter _ _ _ _) answers]

/-- Settles O26: each is its command and the long wait, answered OK. -/
theorem clearAndHomeSendTheirCommandAndWait : Obligations.ClearAndHomeSendTheirCommandAndWait := by
  intro s hs ha
  refine ⟨?_, ?_⟩ <;> exact exec_of_singleCommand hs rfl ha

/-- Settles O27: each is its bit of DCTRL and then its command, answered OK. -/
theorem displayControlRequestsSetAndClearTheirBit : Obligations.DisplayControlRequestsSetAndClearTheirBit := by
  intro s hs ha
  refine ⟨?_, ?_, ?_, ?_, ?_, ?_⟩ <;> exact exec_of_singleCommand hs rfl ha

/-- Settles O28: each is its bit of EMODE and then its command, answered OK. -/
theorem entryModeRequestsSetAndClearTheirBit : Obligations.EntryModeRequestsSetAndClearTheirBit := by
  intro s hs ha
  refine ⟨?_, ?_, ?_, ?_⟩ <;> exact exec_of_singleCommand hs rfl ha

/-- Settles O30: each is its command alone, answered OK. -/
theorem shiftRequestsSendTheirCommand : Obligations.ShiftRequestsSendTheirCommand := by
  intro s hs ha
  refine ⟨?_, ?_⟩ <;> exact exec_of_singleCommand hs rfl ha

/-! ## A command whose write fails -/

/-- What follows the list of a failed write does not happen. -/
theorem playedToFailedWrite_append_left {v : Byte} (hk : k < callCount es) (fs : List Event) :
    s.playedToFailedWrite (es ++ fs) k v = s.playedToFailedWrite es k v := by
  simp only [State.playedToFailedWrite, beforeCall_append_left hk]

/-- Settles O31: the write that fails is one of the command's, after the register update. -/
theorem singleCommandFailure : Obligations.SingleCommandFailure := by
  intro i s r b v j k hs h hf hv
  have hk := callAt_lt hv
  have fails : r.FailsAt k :=
    ⟨fun m hm => (singleCommand_answerAt h m).trans (hf.1 m hm), (singleCommand_answerAt h k).trans hf.2⟩
  rw [exec_of_ready (ne_start_of_singleCommand h) hs,
    (runPlays_of_singleCommand h).of_failsAt (plain_cmdEvents_waitsAfter _ _ _ _)
      ((callAt_append_left hk).trans hv) fails,
    playedToFailedWrite_append_left hk]
  rfl

/-! ## The backlight -/

/-- A backlight request makes at most one call, and none without BL_WRITES (R8). -/
theorem answersOk_backlightEvents (bl : Bool) (ha : s.cfg.blWrites = true → s.AnswersOk 1) :
    s.AnswersOk (callCount (backlightEvents s.cfg bl)) := by
  unfold backlightEvents
  split
  case isTrue writes => exact ha writes
  case isFalse => exact fun m hm => absurd hm m.not_lt_zero

/-- Settles O29: each is its assignment of BL and the backlight byte, answered OK. -/
theorem backlightRequestsWriteTheBacklightByte : Obligations.BacklightRequestsWriteTheBacklightByte := by
  intro s hs ha
  rw [exec_of_ready Instr.noConfusion hs, exec_of_ready Instr.noConfusion hs,
    (runPlays_backlightOn s).of_answersOk (plain_backlightEvents _ _) (answersOk_backlightEvents true ha),
    (runPlays_backlightOff s).of_answersOk (plain_backlightEvents _ _) (answersOk_backlightEvents false ha)]
  exact ⟨rfl, rfl⟩

/-- A backlight request whose write fails leaves BL assigned and the latch at its old value or the byte (R30, R90). -/
theorem exec_backlight_of_failsAt {bl : Bool} (hs : s.Serves .ready) (hi : i ≠ .start)
    (h : RunPlays i s (s.setBl bl) (backlightEvents s.cfg bl)) (hw : s.cfg.blWrites = true) (hf : s.FailsAt 0) :
    ∃ x, (x = s.exp ∨ x = blBit s.cfg bl) ∧
      exec i s = .next ((((s.setBl bl).answered.emit (.writeFailed (blBit s.cfg bl))).latch x).respond
        (errResponse [.ioError (blBit s.cfg bl)])) := by
  rw [show backlightEvents s.cfg bl = [.write (blBit s.cfg bl)] from if_pos hw] at h
  have first : beforeCall 0 [.write (blBit s.cfg bl)] = [] := rfl
  refine ⟨_, latchAfterFailure_cases (s.setBl bl) (blBit s.cfg bl), ?_⟩
  rw [exec_of_ready hi hs, h.of_failsAt rfl rfl hf, State.playedToFailedWrite, first, played_nil]
  rfl

/-- Settles O32: the one write of each fails. -/
theorem backlightWriteFailure : Obligations.BacklightWriteFailure :=
  fun s hs hw hf => ⟨exec_backlight_of_failsAt hs Instr.noConfusion (runPlays_backlightOn s) hw hf,
    exec_backlight_of_failsAt hs Instr.noConfusion (runPlays_backlightOff s) hw hf⟩

/-! ## The register in every next state -/

theorem RunPlays.dctrl (h : RunPlays i s r es) : (runOf i s).dctrl = r.dctrl :=
  h.keeps State.dctrl ⟨fun _ _ h => h, fun _ _ h => h, fun _ h => h⟩ (fun _ _ => rfl) fun _ _ => rfl

theorem RunPlays.emode (h : RunPlays i s r es) : (runOf i s).emode = r.emode :=
  h.keeps State.emode ⟨fun _ _ h => h, fun _ _ h => h, fun _ h => h⟩ (fun _ _ => rfl) fun _ _ => rfl

theorem RunPlays.bl (h : RunPlays i s r es) : (runOf i s).bl = r.bl :=
  h.keeps State.bl ⟨fun _ _ h => h, fun _ _ h => h, fun _ h => h⟩ (fun _ _ => rfl) fun _ _ => rfl

/-- The value a single-command request gives DCTRL is there in every next state. -/
theorem dctrl_of_exec {d : Byte} (hr : singleCommand i s = some (s.setDctrl d, b, j)) (h : exec i s = .next t) :
    t.dctrl = d := by
  obtain ⟨-, -, rfl⟩ := exec_next h
  exact (runPlays_of_singleCommand hr).dctrl

/-- The value a single-command request gives EMODE is there in every next state. -/
theorem emode_of_exec {e : Byte} (hr : singleCommand i s = some (s.setEmode e, b, j)) (h : exec i s = .next t) :
    t.emode = e := by
  obtain ⟨-, -, rfl⟩ := exec_next h
  exact (runPlays_of_singleCommand hr).emode

/-- The value a backlight request gives BL is there in every next state. -/
theorem bl_of_exec {bl : Bool} (hp : RunPlays i s (s.setBl bl) es) (h : exec i s = .next t) : t.bl = bl := by
  obtain ⟨-, -, rfl⟩ := exec_next h
  exact hp.bl

/-- Settles O44: each register keeps the value of the update that comes before the command. -/
theorem registerIsWrittenBeforeTheCommand : Obligations.RegisterIsWrittenBeforeTheCommand :=
  fun s _ => ⟨dctrl_of_exec rfl, dctrl_of_exec rfl, dctrl_of_exec rfl, dctrl_of_exec rfl, dctrl_of_exec rfl,
    dctrl_of_exec rfl, emode_of_exec rfl, emode_of_exec rfl, emode_of_exec rfl, emode_of_exec rfl,
    bl_of_exec (runPlays_backlightOn s), bl_of_exec (runPlays_backlightOff s)⟩

/-! ## On and then off -/

/-- In READY, with its next `n` calls answered OK, request `i` succeeds, the block serves again in READY, and the
answers after those `n` are still to come. -/
def SucceedsWithin (n : Nat) (i : Instr) : Prop :=
  ∀ s : State, s.Serves .ready → s.AnswersOk n →
    ∃ t, exec i s = .next t ∧ t.Serves .ready ∧ t.responses = s.responses ++ [okResponse] ∧
      ∀ m, s.AnswersOk (n + m) → t.AnswersOk m

/-- Two such requests in a row. -/
theorem SucceedsWithin.pair {i' : Instr} (h : SucceedsWithin n i) (h' : SucceedsWithin n i') (hs : s.Serves .ready)
    (ha : s.AnswersOk (n + n)) :
    ∃ t u, exec i s = .next t ∧ exec i' t = .next u ∧ u.responses = s.responses ++ [okResponse, okResponse] := by
  obtain ⟨t, exec1, serves, responses1, rest⟩ := h s hs (ha.mono (Nat.le_add_right n n))
  obtain ⟨u, exec2, -, responses2, -⟩ := h' t serves (rest n ha)
  exact ⟨t, u, exec1, exec2, by rw [responses2, responses1, List.append_assoc]; rfl⟩

theorem singleCommand_succeeds (h : ∀ s, (singleCommand i s).isSome) : SucceedsWithin 4 i := by
  intro s hs ha
  obtain ⟨⟨r, b, j⟩, hr⟩ := Option.isSome_iff_exists.mp (h s)
  refine ⟨_, exec_of_singleCommand hs hr ha, ⟨rfl, ?_⟩, ?_, fun m hm x hx => ?_⟩
  · exact (singleCommand_keeps State.phase (fun _ => rfl) (fun _ => rfl) hr).trans hs.2
  · have responses : r.responses = s.responses := singleCommand_keeps State.responses (fun _ => rfl) (fun _ => rfl) hr
    rw [State.respond_responses, State.played_responses, responses]
  · simpa [callCount_append, singleCommand_answerAt hr] using hm (4 + x) (by omega)

theorem backlight_succeeds {bl : Bool} (hi : i ≠ .start)
    (h : ∀ s, RunPlays i s (s.setBl bl) (backlightEvents s.cfg bl)) : SucceedsWithin 1 i := by
  intro s hs ha
  have calls : callCount (backlightEvents s.cfg bl) ≤ 1 := by
    unfold backlightEvents
    split
    · exact Nat.le_refl 1
    · exact Nat.zero_le 1
  refine ⟨_, exec_of_ready hi hs, ?_⟩
  rw [(h s).of_answersOk (plain_backlightEvents _ _) (ha.mono calls)]
  refine ⟨⟨rfl, hs.2⟩, rfl, fun m hm x hx => ?_⟩
  simpa using hm (callCount (backlightEvents s.cfg bl) + x) (by omega)

/-- A bit set and then cleared is a bit cleared. -/
theorem clear_set (x m : Byte) : (x ||| m) &&& ~~~m = x &&& ~~~m := by
  rw [BitVec.and_or_distrib_right, BitVec.and_not_self]
  exact BitVec.or_zero

theorem and_not_and (x m : Byte) : (x &&& ~~~m) &&& m = 0 := by
  rw [BitVec.and_assoc, BitVec.not_and_self]
  exact BitVec.and_zero

theorem and_not_of_and_eq_zero {x m : Byte} (h : x &&& m = 0) : x &&& ~~~m = x := by
  calc x &&& ~~~m = (x &&& ~~~m) ||| (x &&& m) := by rw [h]; exact BitVec.or_zero.symm
    _ = x := by rw [← BitVec.and_or_distrib_left, BitVec.not_or_self, BitVec.and_allOnes]

/-- Two single-command requests that set and clear the bits of `m` in the register `read` (R91), one after the other. -/
theorem toggle_roundTrip {on off : Instr} {read : State → Byte} {m : Byte} (hon : ∀ s, (singleCommand on s).isSome)
    (hoff : ∀ s, (singleCommand off s).isSome) (sets : ∀ s t, exec on s = .next t → read t = read s ||| m)
    (clears : ∀ s t, exec off s = .next t → read t = read s &&& ~~~m) (hs : s.Serves .ready) (ha : s.AnswersOk 8) :
    ∃ t u, exec on s = .next t ∧ exec off t = .next u ∧ u.responses = s.responses ++ [okResponse, okResponse] ∧
      read u &&& m = 0 ∧ read u &&& ~~~m = read s &&& ~~~m ∧ (read s &&& m = 0 → read u = read s) := by
  obtain ⟨t, u, execOn, execOff, responses⟩ := (singleCommand_succeeds hon).pair (singleCommand_succeeds hoff) hs ha
  have register : read u = read s &&& ~~~m := by rw [clears t u execOff, sets s t execOn, clear_set]
  refine ⟨t, u, execOn, execOff, responses, ?_⟩
  rw [register]
  exact ⟨and_not_and _ _, by rw [BitVec.and_assoc, BitVec.and_self], and_not_of_and_eq_zero⟩

/-- Settles O34: each of the five pairs sets its bit and then clears it, and so does the pair on BL. -/
theorem toggleRoundTrip : Obligations.ToggleRoundTrip := by
  refine ⟨fun s on off read m hs ha pair => ?_, fun s hs ha => ?_⟩
  · obtain ⟨rfl, rfl, rfl, rfl⟩ | ⟨rfl, rfl, rfl, rfl⟩ | ⟨rfl, rfl, rfl, rfl⟩ | ⟨rfl, rfl, rfl, rfl⟩ |
      ⟨rfl, rfl, rfl, rfl⟩ := pair
    iterate 3
      exact toggle_roundTrip (fun _ => rfl) (fun _ => rfl) (fun _ _ => dctrl_of_exec rfl)
        (fun _ _ => dctrl_of_exec rfl) hs ha
    iterate 2
      exact toggle_roundTrip (fun _ => rfl) (fun _ => rfl) (fun _ _ => emode_of_exec rfl)
        (fun _ _ => emode_of_exec rfl) hs ha
  · have on := backlight_succeeds Instr.noConfusion runPlays_backlightOn
    have off := backlight_succeeds Instr.noConfusion runPlays_backlightOff
    obtain ⟨t, u, execOn, execOff, responses⟩ := on.pair off hs ha
    have cleared := bl_of_exec (runPlays_backlightOff t) execOff
    exact ⟨t, u, execOn, execOff, responses, cleared, fun h => cleared.trans h.symm⟩

end Sys2Proof.Machine
end

section
/-! SUPPORT. The requests that take operands (rules R110 to R114): the clamped cell of SET_CURSOR, REGISTER_CHAR as its
command and its eight data bytes, and the count that WRITE alone reports. -/

namespace Sys2Proof

/-- R10: every column of every row of a valid geometry has an address below 0x80. -/
theorem Configuration.rowBase_add_cols_le {c : Configuration} (h : c.addressesFit = true) {r : Nat} (hr : r < c.rows) :
    rowBase r + c.cols ≤ 0x80 := by
  simp only [addressesFit, List.all_eq_true, List.mem_range, decide_eq_true_eq] at h
  exact h r hr

/-- ROW_BASE is the table of R9 on its four rows. -/
theorem rowBase_eq_getD {r : Nat} (hr : r < 4) : rowBase r = [0x00, 0x40, 0x14, 0x54].getD r 0 := by
  interval_cases r <;> rfl

end Sys2Proof

namespace Sys2Proof.Machine

variable {i : Instr} {s : State} {c : Configuration}

/-! ## SET_CURSOR -/

/-- Settles O35: SET_CURSOR is its command alone, answered OK. -/
theorem setCursorSendsTheClampedAddress : Obligations.SetCursorSendsTheClampedAddress :=
  fun _ _ _ hs ha => exec_of_singleCommand hs rfl ha

/-- `m` is the index below `n` that `x` clamps to (R110). -/
structure ClampsTo (n : Nat) (x : Int) (m : Nat) : Prop where
  lt : m < n
  below : x < 0 → m = 0
  above : (n : Int) ≤ x → m = n - 1
  inside : 0 ≤ x → x < n → (m : Int) = x

theorem clamp_clampsTo {n : Nat} (hn : 1 ≤ n) (x : Int) : ClampsTo n x (clamp x 0 ((n : Int) - 1)).toNat := by
  unfold clamp
  split
  next below => constructor <;> omega
  next =>
    split
    next above => constructor <;> omega
    next inside => constructor <;> omega

theorem setDdramByte_toNat {addr : Nat} (h : addr ≤ 0x7F) : (setDdramByte addr).toNat = 0x80 + addr := by
  have lt : addr < 2 ^ 7 := Nat.lt_succ_of_le h
  rw [setDdramByte, BitVec.toNat_or, BitVec.toNat_ofNat, Nat.mod_eq_of_lt (by omega)]
  exact (Nat.two_pow_add_eq_or_of_lt lt 1).symm

theorem cursorAddress_le (h : c.addressesFit = true) {col row : Int} (hr : clampRow c row < c.rows)
    (hc : clampCol c col < c.cols) : cursorAddress c col row ≤ 0x7F := by
  have fits := c.rowBase_add_cols_le h hr
  rw [cursorAddress]
  omega

/-- Settles O36: a valid configuration has a row and a column to clamp to, and the cell's address fits seven bits. -/
theorem cursorAddressIsClampedAndFits : Obligations.CursorAddressIsClampedAndFits := by
  intro c col row hv
  simp only [Configuration.valid, Bool.and_eq_true, decide_eq_true_eq] at hv
  obtain ⟨⟨⟨⟨⟨rows, rowsMax⟩, cols⟩, fits⟩, -⟩, -⟩ := hv
  have x : ClampsTo c.cols col (clampCol c col) := clamp_clampsTo cols col
  have y : ClampsTo c.rows row (clampRow c row) := clamp_clampsTo rows row
  have le := cursorAddress_le fits y.lt x.lt
  refine ⟨clampCol c col, clampRow c row, x.lt, y.lt, x.below, x.above, x.inside, y.below, y.above, y.inside, ?_, le,
    setDdramByte_toNat le⟩
  rw [cursorAddress, rowBase_eq_getD (Nat.lt_of_lt_of_le y.lt rowsMax)]

/-! ## REGISTER_CHAR -/

/-- The command and the data bytes of REGISTER_CHAR as rows (R112). -/
def registerCharRows (c : Configuration) (bl : Bool) (slot : Int) (bm : Bitmap) : List Row :=
  ⟨command (setCgramByte (slotOf slot)), {}, cmdEvents c bl (setCgramByte (slotOf slot))⟩ ::
    dataRows c bl (bitmapBytes bm)

theorem registerCharRows_play (c : Configuration) (bl : Bool) (slot : Int) (bm : Bitmap) :
    ∀ r ∈ registerCharRows c bl slot bm, r.Plays c bl :=
  List.forall_mem_cons.mpr
    ⟨⟨rfl, fun t hc hb => by subst hc hb; exact command_eq_play _ t⟩, dataRows_play c bl (bitmapBytes bm)⟩

/-- REGISTER_CHAR assigns no register (R112). -/
theorem registerCharRows_writes (c : Configuration) (bl : Bool) (slot : Int) (bm : Bitmap) :
    ∀ r ∈ registerCharRows c bl slot bm, r.writes = {} := by
  simp [registerCharRows, dataRows]

theorem registerCharRows_events (c : Configuration) (bl : Bool) (slot : Int) (bm : Bitmap) :
    rowsEvents (registerCharRows c bl slot bm) = registerCharEvents c bl slot bm := by
  simp [rowsEvents, registerCharRows, dataRows, bitmapBytes, registerCharEvents]

/-- The eight bytes of R112's event list are those of the bitmap in index order (R37). -/
theorem registerCharEvents_eq (c : Configuration) (bl : Bool) (slot : Int) (bm : Bitmap) :
    registerCharEvents c bl slot bm =
      cmdEvents c bl (setCgramByte (slotOf slot)) ++ (bitmapBytes bm).flatMap (datEvents c bl) := by
  simp [registerCharEvents, bitmapBytes]

/-- REGISTER_CHAR is its local assignment and then its rows. -/
theorem runOf_registerChar (slot : Int) (bm : Bitmap) (s : State) :
    runOf (.registerChar slot bm) s = finish { status := .ok, code := slotOf slot }
      (runFrom (Instr.opcode (.registerChar slot bm)) 1 ((registerCharRows s.cfg s.bl slot bm).map Row.act)
        (s.pointAt (Instr.opcode (.registerChar slot bm)) 0)) := rfl

theorem mem_of_mem_rowsTo {rows : List Row} {k : Nat} {r : Row} (h : r ∈ rowsTo rows k) : r ∈ rows := by
  induction rows generalizing k with
  | nil => exact h
  | cons x rest ih =>
    rw [rowsTo] at h
    split at h
    · exact List.mem_cons.mpr (.inl (List.mem_singleton.mp h))
    · obtain rfl | h := List.mem_cons.mp h
      · exact List.mem_cons_self
      · exact List.mem_cons_of_mem x (ih h)

theorem callCount_registerCharEvents (c : Configuration) (bl : Bool) (slot : Int) (bm : Bitmap) :
    callCount (registerCharEvents c bl slot bm) = 36 := rfl

theorem runOf_registerChar_of_answersOk (slot : Int) (bm : Bitmap) (h : s.AnswersOk 36) :
    runOf (.registerChar slot bm) s =
      (s.played (registerCharEvents s.cfg s.bl slot bm)).respond { status := .ok, code := slotOf slot } := by
  have play := registerCharRows_play s.cfg s.bl slot bm
  have writes := registerCharRows_writes s.cfg s.bl slot bm
  obtain ⟨q, hrows⟩ := rows_ok (op := Instr.opcode (.registerChar slot bm)) play 1 (s.pointAt _ 0) rfl rfl
    (by rw [registerCharRows_events, callCount_registerCharEvents]; exact h)
  rw [runOf_registerChar, hrows, rowsWrites_none writes, registerCharRows_events]
  rfl

theorem runOf_registerChar_of_failsAt (slot : Int) (bm : Bitmap) {k : Nat} {v : Byte} (h : s.FailsAt k)
    (hv : callAt k (registerCharEvents s.cfg s.bl slot bm) = some (.write v)) :
    runOf (.registerChar slot bm) s =
      (s.playedToFailedWrite (registerCharEvents s.cfg s.bl slot bm) k v).takeException (.ioError v) := by
  have play := registerCharRows_play s.cfg s.bl slot bm
  have writes := registerCharRows_writes s.cfg s.bl slot bm
  rw [← registerCharRows_events] at hv ⊢
  obtain ⟨q, hrows⟩ := rows_fail (op := Instr.opcode (.registerChar slot bm)) play 1 (s.pointAt _ 0) rfl rfl h hv
  rw [runOf_registerChar, hrows, rowsWrites_none fun r hr => writes r (mem_of_mem_rowsTo hr)]
  rfl

/-- Settles O37: an admitted REGISTER_CHAR is its rows, every call of which is answered OK, and then the code point. -/
theorem registerCharProgramsTheSlot : Obligations.RegisterCharProgramsTheSlot := by
  intro s slot bm hs h
  rw [exec_of_ready Instr.noConfusion hs, runOf_registerChar_of_answersOk slot bm h, registerCharEvents_eq]
  rfl

/-- Settles O38: a failed write ends the rows of REGISTER_CHAR, and the exception's response has no code point. -/
theorem registerCharFailure : Obligations.RegisterCharFailure := by
  intro s slot bm k v hs h hv
  rw [exec_of_ready Instr.noConfusion hs, runOf_registerChar_of_failsAt slot bm h hv]
  rfl

/-! ## The count of WRITE -/

theorem runOf_write_of_failsAt (bytes : List Byte) {k : Nat} {v : Byte} (h : s.FailsAt k)
    (hv : callAt k (bytes.flatMap (datEvents s.cfg s.bl)) = some (.write v)) :
    runOf (.write bytes) s =
      (s.playedToFailedWrite (bytes.flatMap (datEvents s.cfg s.bl)) k v).takeException (.ioError v) (k / 4) := by
  obtain ⟨q, hloop⟩ := sendBytes_of_failsAt (Instr.opcode (.write bytes)) bytes 1 0 s k v h hv
  rw [runOf, hloop, finishWrite, withSeq_takeException, Nat.zero_add]

/-- `t` has answered `rs` and at most one response more, which carries no count. -/
def AnswersUncounted (rs : List Response) (t : State) : Prop :=
  t.responses = rs ∨ ∃ r, t.responses = rs ++ [r] ∧ r.count = 0

theorem finish_uncounted {ok : Response} (h : ok.count = 0) (res : Res) :
    AnswersUncounted res.state.responses (finish ok res) := by
  cases res with
  | done t => exact .inr ⟨ok, rfl, h⟩
  | raised e t => exact .inr ⟨errResponse [e], rfl, rfl⟩
  | hung t => exact .inl rfl

theorem finishStart_uncounted (res : Res) : AnswersUncounted res.state.responses (finishStart res) := by
  cases res with
  | done t => exact .inr ⟨okResponse, rfl, rfl⟩
  | raised e t => exact .inr ⟨errResponse [e], rfl, rfl⟩
  | hung t => exact .inl rfl

theorem finishStop_uncounted (errs : List ErrorRecord) (res : Res) :
    AnswersUncounted res.state.responses (finishStop (errs, res)) := by
  have responds : AnswersUncounted res.state.responses (finishStop (errs, .done res.state)) := by
    cases errs with
    | nil => exact .inr ⟨okResponse, rfl, rfl⟩
    | cons e es => exact .inr ⟨errResponse (e :: es), rfl, rfl⟩
  cases res with
  | done t => exact responds
  | raised e t => cases errs <;> exact responds
  | hung t => cases errs <;> exact .inl rfl

/-- The success response of a body carries no count (R70). -/
theorem bodyOf_count (i : Instr) : (bodyOf i).2.count = 0 := by cases i <;> rfl

/-- No statement of a request answers it (R70). -/
theorem runFrom_unanswered {body : List Action} (k : Nat)
    (hb : ∀ a ∈ body, Holds (Unanswered s) (Raised i (Unanswered s)) (Unanswered s) a) (hq : ∀ a ∈ body, SeqFixed a) :
    (runFrom i.opcode k body s).state.responses = s.responses :=
  (runFrom_sat (unanswered_kept i s).pointAt hb hq k rfl).state (fun _ h => h) (fun _ _ h => h.1) fun _ h => h.1

theorem runStop_unanswered (s : State) : (runStop [] stopSteps s).2.state.responses = s.responses := by
  have kept := unanswered_kept .stop s
  have sat := runStop_sat kept.pointAt kept.statements.stopSteps
    (fun p hp a ha q => (statements_seq .stop q).stopSteps p hp a ha) (fun _ _ h => h.1) [] rfl
  exact sat.state (fun _ h => h) (fun _ _ h => h.elim) fun _ h => h.1

/-- A request other than WRITE responds at most once and without a count: its statements answer nothing, and its end
counts nothing (R70). -/
theorem runOf_uncounted (hi : ∀ bytes, i ≠ .write bytes) (s : State) : AnswersUncounted s.responses (runOf i s) := by
  have statements := (unanswered_kept i s).statements
  have plainBody : AnswersUncounted s.responses (finish (bodyOf i).2 (runFrom i.opcode 0 (bodyOf i).1 s)) := by
    rw [← runFrom_unanswered 0 statements.body fun a ha q => (statements_seq i q).body a ha]
    exact finish_uncounted (bodyOf_count i) _
  cases i with
  | start =>
    rw [← runFrom_unanswered 1 statements.initSequence initStates_seqFixed]
    exact finishStart_uncounted _
  | stop =>
    rw [← runStop_unanswered s]
    exact finishStop_uncounted _ _
  | write bytes => exact absurd rfl (hi bytes)
  | _ => exact plainBody

/-- Settles O41: the loop of WRITE counts a byte for every four writes, and no other request's end has a count. -/
theorem writeReportsThePartialCount : Obligations.WriteReportsThePartialCount := by
  refine ⟨fun s bytes k v hs h hv => ?_, fun i s t r hi hexec hr => ?_⟩
  · rw [exec_of_ready Instr.noConfusion hs, runOf_write_of_failsAt bytes h hv]
    rfl
  · obtain ⟨-, -, rfl⟩ := exec_next hexec
    obtain silent | ⟨r', hr', count⟩ := runOf_uncounted hi s
    · exact absurd (hr.symm.trans silent) (by simp)
    · obtain rfl : r' = r := List.singleton_inj.mp (List.append_cancel_left (hr'.symm.trans hr))
      exact count

end Sys2Proof.Machine
end

section
/-! SUPPORT. Admission, hangs and errors (rules R116, R118, R119, R121, R122): where a request is admitted and what
refuses it elsewhere, where an unanswered call leaves a request, and what an error response names. -/

namespace Sys2Proof.Machine

variable {i : Instr} {s r : State} {es : List Event} {b op : Byte} {j k : Nat}

/-! ## With nothing on the port -/

theorem fetch_of_port_nil (h : s.port = []) : s.fetch = none := by
  rw [State.fetch, h]

/-- A block in the middle of a request has no next step (R118). -/
theorem step_of_running (hport : s.port = []) (hseq : s.seq = .running op k) : step s = .fault (.hung op k) := by
  simp only [step, fetch_of_port_nil hport, hseq]

/-- Settles O7: without a request `step` looks at `seq` alone. -/
theorem withoutARequestNothingRuns : Obligations.WithoutARequestNothingRuns := by
  refine ⟨fun s hport hseq => ?_, fun s op k => step_of_running⟩
  simp only [step, fetch_of_port_nil hport, hseq]

/-! ## Admission -/

/-- R119: the phase column of the table. -/
theorem gateOf_eq (i : Instr) : gateOf i = if i = .start then .unstarted else .ready := by
  split
  case isTrue hi => rw [hi]; rfl
  case isFalse hi => exact gateOf_of_ne_start hi

theorem exec_of_wrong_phase (hseq : s.seq = .idle) (hphase : s.phase ≠ gateOf i) :
    exec i s = .refused (.notAdmitted i.opcode s.phase) := by
  simp only [exec_eq_serve, serve, hseq, if_neg hphase]

theorem exec_of_running (hseq : s.seq = .running op k) : exec i s = .refused (.requestInProgress i.opcode) := by
  simp only [exec_eq_serve, serve, hseq]

/-- Settles O8: every request is admission around its run, in the phase of the table. -/
theorem admissionFollowsTheTable : Obligations.AdmissionFollowsTheTable := by
  intro i s
  rw [← gateOf_eq]
  exact ⟨fun ⟨hseq, hphase⟩ => ⟨_, exec_of_admitted hseq hphase⟩, exec_of_wrong_phase, fun _ _ => exec_of_running⟩

/-- R119: FAILED admits no request. -/
theorem failed_ne_gateOf (i : Instr) : Phase.failed ≠ gateOf i := by
  rw [gateOf_eq]; split <;> exact Phase.noConfusion

/-! ## START without the expander -/

/-- A failed acquisition ends START at S1 (R85, R116). -/
theorem runOf_start_of_acquire_failed (h : s.answerAt 0 = .fail) :
    runOf .start s = failStart (.connectionError s.cfg.i2cAddr s.cfg.busIndex)
      (s.answered.emit (.acquireFailed s.cfg.i2cAddr s.cfg.busIndex)) := by
  obtain ⟨-, failed, -⟩ := acquireFollowsTheByteSink (s.pointAt (Instr.opcode .start) 1)
  rw [runOf_start, failed h]; rfl

/-- Settles O20: START ends in FAILED at its acquisition, and FAILED admits nothing. -/
theorem startAcquisitionFailure : Obligations.StartAcquisitionFailure := by
  intro s hs hf t
  refine ⟨?_, fun i => exec_of_wrong_phase (s := t) rfl (failed_ne_gateOf i)⟩
  rw [exec_start_of_unstarted hs, runOf_start_of_acquire_failed hf.2]
  rfl

/-! ## START stuck in a call -/

/-- The code of the init state that makes START's call number `k` (R81): the acquisition and the priming write are one
call each, a nibble is two, and a command is four. -/
def initCodeOfCall (k : Nat) : Nat :=
  if k = 0 then 1 else if k = 1 then 3 else if k < 10 then 5 + (k - 2) / 2 else 9 + (k - 10) / 4

/-- The rows of START begin at S2, code 2, and their first call is START's second. -/
theorem length_rowsTo_startRows (c : Configuration) (bl : Bool) (hk : k < 29) :
    2 + (rowsTo (startRows c bl) k).length - 1 = initCodeOfCall (k + 1) := by
  interval_cases k <;> rfl

theorem runOf_start_of_acquire_hung (h : s.answerAt 0 = .never) :
    runOf .start s = s.pointAt (Instr.opcode .start) 1 := by
  obtain ⟨-, -, hung⟩ := acquireFollowsTheByteSink (s.pointAt (Instr.opcode .start) 1)
  rw [runOf_start, hung h]; rfl

/-- Once acquired, an unanswered call leaves START in the row that makes it. -/
theorem runOf_start_of_row_hung (h : s.HangsAt (k + 1)) (hk : k < 29) :
    runOf .start s =
      ((s.acquired.assign (rowsWrites (rowsTo (startRows s.cfg s.bl) k))).played
        (beforeCall k (rowsEvents (startRows s.cfg s.bl)))).pointAt (Instr.opcode .start) (initCodeOfCall (k + 1)) := by
  have hangs : s.acquired.HangsAt k :=
    ⟨fun i hi => by rw [State.acquired_answerAt]; exact h.1 (i + 1) (Nat.succ_lt_succ hi),
      by rw [State.acquired_answerAt]; exact h.2⟩
  rw [runOf_start_of_acquired (h.1 0 (Nat.succ_pos k)),
    rows_hang (startRows_play s.cfg s.bl) 2 s.acquired rfl rfl hangs hk, length_rowsTo_startRows _ _ hk]
  rfl

/-- Settles O22: the call is the acquisition or one of the rows', and no row answers or moves `phase`. -/
theorem startHangsInItsInitState : Obligations.StartHangsInItsInitState := by
  intro s k hs h hk
  refine ⟨runOf .start s, exec_start_of_unstarted hs, ?_⟩
  rw [startRows_events]
  cases k with
  | zero =>
    rw [runOf_start_of_acquire_hung h.2]
    exact ⟨rfl, (List.append_nil _).symm, rfl, hs.2⟩
  | succ k =>
    rw [runOf_start_of_row_hung h (Nat.lt_of_succ_lt_succ hk)]
    exact ⟨rfl, List.append_assoc _ _ _, rfl, hs.2⟩

/-! ## A command stuck in a call -/

/-- An unanswered call leaves the update and the events before the call, and `seq` where it was (R118). -/
theorem RunPlays.of_hangsAt (h : RunPlays i s r es) (hp : plain es = true) (hk : k < callCount es) (hf : r.HangsAt k) :
    ∃ q, runOf i s = (r.played (beforeCall k es)).withSeq q := by
  obtain ⟨q, hrun⟩ := h
  refine ⟨q, ?_⟩
  rw [hrun, play_of_hangsAt hp hk hf]; rfl

/-- A request that has answered nothing is stuck in a call. -/
theorem stuckIn_of_unanswered (h : (runOf i s).responses = s.responses) : StuckIn i (runOf i s) := by
  obtain ⟨stuck, -⟩ | ⟨-, r, answer, -⟩ := runOf_answers i s
  · exact stuck
  · exact absurd (answer.symm.trans h) (by simp)

/-- The command is the one statement that calls the byte-sink. -/
theorem callStatements_of_singleCommand (h : singleCommand i s = some (r, b, j)) : callStatements i = [j] := by
  cases i with
  | start | stop | backlightOn | backlightOff | registerChar | write => cases h
  | _ => cases h; rfl

theorem runOf_singleCommand_of_hangsAt (h : singleCommand i s = some (r, b, j)) (hf : s.HangsAt k) (hk : k < 4) :
    runOf i s = (r.played (beforeCall k (cmdEvents s.cfg s.bl b))).pointAt i.opcode j := by
  have hangs : r.HangsAt k :=
    ⟨fun m hm => (singleCommand_answerAt h m).trans (hf.1 m hm), (singleCommand_answerAt h k).trans hf.2⟩
  obtain ⟨q, hrun⟩ := (runPlays_of_singleCommand h).of_hangsAt (plain_cmdEvents_waitsAfter _ _ _ _)
    (by rw [callCount_append]; exact Nat.lt_add_right _ hk) hangs
  rw [beforeCall_append_left hk] at hrun
  have unanswered : r.responses = s.responses := singleCommand_keeps State.responses (fun _ => rfl) (fun _ => rfl) h
  obtain ⟨n, hn, hseq⟩ := stuckIn_of_unanswered ((congrArg State.responses hrun).trans unanswered)
  rw [callStatements_of_singleCommand h, List.mem_singleton] at hn
  have atCommand : q = .running i.opcode j := by rw [hrun, hn] at hseq; exact hseq
  rw [hrun, atCommand]
  rfl

/-- Settles O33: the request is stuck at its command, and the empty port of the state it began in is still empty. -/
theorem singleCommandHang : Obligations.SingleCommandHang := by
  intro i s r b j k hs h hf hk
  refine ⟨?_, fun hport => step_of_running ?_ rfl⟩
  · rw [exec_of_ready (ne_start_of_singleCommand h) hs, runOf_singleCommand_of_hangsAt h hf hk]
  · exact (singleCommand_keeps State.port (fun _ => rfl) (fun _ => rfl) h).trans hport

/-! ## The error of a response -/

/-- An error response of a request other than STOP has one error, the failed primitive it names is the last event, and
only START's can be an acquisition (R121, R122). -/
theorem runOf_error_named {x : Response} (hi : i ≠ .stop) (hx : (runOf i s).responses = s.responses ++ [x])
    (herr : x.status = .err) :
    ∃ e, x.errs = [e] ∧ Named e (runOf i s) ∧ ((∃ v, e = .ioError v) ∨ i = .start) := by
  have answered : (runOf i s).seq = .idle := by
    obtain ⟨-, silent⟩ | ⟨idle, -⟩ := runOf_answers i s
    · exact absurd (hx.symm.trans silent) (by simp)
    · exact idle
  have ends := (extends_kept i s).run_cases (.refl s)
  generalize runOf i s = t at hx answered ends ⊢
  obtain ⟨k, -, hseq, -⟩ | ⟨u, x', -, rfl, ending⟩ := ends
  · exact Seq.noConfusion (answered.symm.trans hseq)
  · obtain rfl : x' = x := List.singleton_inj.mp (List.append_inj_right' hx rfl)
    obtain ⟨hok, -⟩ | ⟨-, e, es, herrs, one⟩ := ending
    · exact Status.noConfusion (hok.symm.trans herr)
    · obtain ⟨rfl, -, named, primitive⟩ := one hi
      refine ⟨e, herrs, ?_, primitive⟩
      simpa only [Named, State.respond_trace, State.respond_cfg, closing_trace, closing_cfg] using named

/-- Settles O47: the error is an IOError and its write the last event, or it is START's ConnectionError. -/
theorem errorIsTheLastEvent : Obligations.ErrorIsTheLastEvent := by
  intro i s t x hi hexec hx herr
  obtain ⟨-, -, rfl⟩ := exec_next hexec
  obtain ⟨e, herrs, ⟨before, io | ⟨rfl, htrace⟩⟩, primitive⟩ := runOf_error_named hi hx herr
  · obtain ⟨v, rfl, htrace⟩ := io
    exact ⟨before, .inl ⟨v, herrs, htrace⟩⟩
  · have hstart : i = .start := primitive.resolve_left fun ⟨_, h⟩ => ErrorRecord.noConfusion h
    rw [(runOf_extends i s).cfg] at herrs htrace
    exact ⟨before, .inr ⟨hstart, herrs, htrace⟩⟩

end Sys2Proof.Machine
end

section
/-! SUPPORT. Runs of requests in READY (rules R119, R123, R147) and what the requests cost (rules R72, R145): a request
whose calls are answered leaves the block ready for the next one, and each event list has its numbers of writes and
waits and the sum of its waits. -/

namespace Sys2Proof.Machine

variable {i : Instr} {s r t u : State} {c : Configuration} {bl : Bool} {τ : Timing} {es fs : List Event}
  {j n writes waits bound writes' waits' bound' : Nat} {b : Byte} {q : Request} {rest : List Request}

/-! ## Runs in READY -/

/-- The block is in READY and IDLE, and the byte-sink answers each of its next `n` calls. -/
structure State.ReadyFor (s : State) (n : Nat) : Prop where
  serves : s.Serves .ready
  answered : s.Answered n

/-- Any request but START whose calls are answered returns one response and leaves the block in READY, whatever failed,
with the answers after its own still to come (R89, R123). -/
theorem runOf_of_readyFor (hi : i ≠ .start) (h : s.ReadyFor (callBound i + n)) :
    (runOf i s).ReadyFor n ∧ (runOf i s).responses.length = s.responses.length + 1 := by
  obtain ⟨idle, answered⟩ := runOf_answered hi h.answered
  have ready : (runOf i s).phase = .ready := (runOf_readyFramed hi s).phase.trans h.serves.2
  refine ⟨⟨⟨idle, ready⟩, answered⟩, ?_⟩
  obtain ⟨⟨k, -, stuck⟩, -⟩ | ⟨-, x, responses, -⟩ := runOf_answers i s
  · exact Seq.noConfusion (idle.symm.trans stuck)
  · rw [responses, List.length_append, List.length_singleton]

/-- The step that runs such a request leaves the requests after it on the port (R47). -/
theorem step_of_readyFor (h : s.ReadyFor (callBound i + n)) (hport : s.port = q :: rest) (hdecode : decode q = .ok i)
    (hi : i ≠ .start) :
    ∃ t, step s = .next t ∧ t.ReadyFor n ∧ t.port = rest ∧ t.responses.length = s.responses.length + 1 := by
  have ready : State.ReadyFor { s with port := rest } (callBound i + n) := ⟨h.serves, h.answered⟩
  obtain ⟨after, responses⟩ := runOf_of_readyFor hi ready
  exact ⟨_, (stepRunsTheDecodedRequest s q rest i hport hdecode).trans (exec_of_ready hi ready.serves), after,
    (runOf_readyFramed hi _).port, responses⟩

/-- A run goes on from the state its first step leads to. -/
theorem run_succ_of_step (M : Host.Core) {x y : M.State} (h : M.step x = .next y) (n : Nat) :
    M.run (n + 1) x = M.run n y := by
  rw [Host.Core.run, h]

/-- A run that has no step to take has ended, if nothing is on the port and `seq` is IDLE. -/
theorem endsNormally_zero (hport : s.port = []) (hseq : s.seq = .idle) : EndsNormally 0 s s := ⟨rfl, hport, hseq⟩

/-- A run whose first step has a next state ends as it ends from there. -/
theorem EndsNormally.cons (h : EndsNormally n t u) (hstep : step s = .next t) : EndsNormally (n + 1) s u := by
  obtain ⟨run, port, seq⟩ := h
  exact ⟨(run_succ_of_step Sys2Proof.core hstep n).trans run, port, seq⟩

/-- A run of requests that READY admits, with an answer for every call they can make, ends in READY with one response
for each request. -/
theorem endsNormally_of_readyFor {port : List Request} (hs : s.ReadyFor (portCalls port)) (hport : s.port = port)
    (hreq : ∀ r ∈ port, ∃ i, decode r = .ok i ∧ i ≠ .start) :
    ∃ t, EndsNormally port.length s t ∧ t.phase = .ready ∧
      t.responses.length = s.responses.length + port.length := by
  induction port generalizing s with
  | nil => exact ⟨s, endsNormally_zero hport hs.serves.1, hs.serves.2, rfl⟩
  | cons q rest ih =>
    obtain ⟨⟨i, hdecode, hi⟩, hrest⟩ := List.forall_mem_cons.mp hreq
    have calls : portCalls (q :: rest) = callBound i + portCalls rest := by rw [portCalls, hdecode]
    obtain ⟨u, hstep, ready, left, one⟩ := step_of_readyFor (calls ▸ hs) hport hdecode hi
    obtain ⟨t, ends, phase, responses⟩ := ih ready left hrest
    refine ⟨t, ends.cons hstep, phase, ?_⟩
    rw [responses, one, List.length_cons, Nat.add_assoc, Nat.add_comm 1]

/-- Settles O50: by induction on the port, each request leaving the block ready for those after it. -/
theorem runsOfReadyRequestsEndNormally : Obligations.RunsOfReadyRequestsEndNormally :=
  fun _ serves answered hreq => endsNormally_of_readyFor ⟨serves, answered⟩ rfl hreq

/-! ## The cost of an event list -/

/-- `es` has this many writes and wait events, and its waits add up to `bound` (R72, R145). -/
structure Tally (τ : Timing) (es : List Event) (writes waits bound : Nat) : Prop where
  writes : writeCount es = writes
  waits : waitCount es = waits
  bound : durationBound τ es = bound

/-- Consecutive event lists add up (R46, R72). -/
theorem Tally.append (h : Tally τ es writes waits bound) (h' : Tally τ fs writes' waits' bound') :
    Tally τ (es ++ fs) (writes + writes') (waits + waits') (bound + bound') where
  writes := by rw [writeCount_append, h.writes, h'.writes]
  waits := by rw [waitCount_append, h.waits, h'.waits]
  bound := by rw [durationBound_append, h.bound, h'.bound]

/-- The same counts, written another way. -/
theorem Tally.congr (h : Tally τ es writes waits bound) (hw : writes = writes') (hd : waits = waits')
    (hb : bound = bound') : Tally τ es writes' waits' bound' := hw ▸ hd ▸ hb ▸ h

theorem tally_nil : Tally τ [] 0 0 0 := ⟨rfl, rfl, rfl⟩

theorem tally_delay (d : Delay) : Tally τ [.delay d] 0 1 (τ.value d) := ⟨rfl, rfl, rfl⟩

theorem tally_nibbleEvents (v mode : Byte) : Tally τ (nibbleEvents c bl v mode) 2 2 (τ.enPw + τ.settle) :=
  ⟨rfl, rfl, rfl⟩

theorem tally_transmitEvents (v mode : Byte) : Tally τ (transmitEvents c bl v mode) 4 4 (2 * (τ.enPw + τ.settle)) :=
  ((tally_nibbleEvents _ mode).append (tally_nibbleEvents _ mode)).congr rfl rfl (Nat.two_mul _).symm

theorem tally_cmdEvents (v : Byte) : Tally τ (cmdEvents c bl v) 4 4 (2 * (τ.enPw + τ.settle)) :=
  tally_transmitEvents v _

/-- CLEAR and HOME, and the steps of START and STOP that are one of them (R92, R93). -/
theorem tally_cmdEvents_wait (v : Byte) :
    Tally τ (cmdEvents c bl v ++ [.delay .clearHome]) 4 5 (2 * (τ.enPw + τ.settle) + τ.clearHome) :=
  (tally_cmdEvents v).append (tally_delay .clearHome)

/-- One write with BL_WRITES and nothing without (R8). -/
theorem tally_backlightEvents : Tally τ (backlightEvents c bl) (if c.blWrites then 1 else 0) 0 0 := by
  unfold backlightEvents
  split <;> exact ⟨rfl, rfl, rfl⟩

/-- Four writes and four waits for every data byte (R113). -/
theorem tally_flatMap_datEvents (bytes : List Byte) :
    Tally τ (bytes.flatMap (datEvents c bl)) (4 * bytes.length) (4 * bytes.length)
      (2 * bytes.length * (τ.enPw + τ.settle)) := by
  induction bytes with
  | nil => exact tally_nil.congr rfl rfl (Nat.zero_mul _).symm
  | cons v rest ih =>
    rw [List.flatMap_cons, List.length_cons]
    exact ((tally_transmitEvents v c.rsMask).append ih).congr (by ring) (by ring) (by ring)

theorem tally_registerCharEvents (slot : Int) (bm : Bitmap) :
    Tally τ (registerCharEvents c bl slot bm) 36 36 (18 * (τ.enPw + τ.settle)) := by
  rw [registerCharEvents_eq]
  refine ((tally_cmdEvents _).append (tally_flatMap_datEvents (bitmapBytes bm))).congr rfl rfl ?_
  rw [← Nat.add_mul]
  rfl

/-- START up to S8: the acquisition is neither a write nor a wait, and there are four nibbles (R82). -/
theorem tally_handshakeEvents :
    Tally τ (handshakeEvents c bl) 9 13
      (τ.powerOn + τ.prime + τ.sync1 + τ.sync2 + τ.sync3 + 4 * (τ.enPw + τ.settle)) where
  writes := rfl
  waits := rfl
  bound := by
    simp only [handshakeEvents, durationBound_append, durationBound_nibbleEvents, durationBound, Timing.value]
    ring

/-- START from S9: five commands, two of them with the long wait (R82). -/
theorem tally_modeEvents : Tally τ (modeEvents c bl) 20 22 (10 * (τ.enPw + τ.settle) + 2 * τ.clearHome) :=
  (((((tally_cmdEvents _).append (tally_cmdEvents _)).append (tally_cmdEvents_wait _)).append
    (tally_cmdEvents _)).append (tally_cmdEvents_wait _)).congr rfl rfl (by ring)

theorem tally_startEvents :
    Tally τ (startEvents c bl) 29 35
      (τ.powerOn + τ.prime + τ.sync1 + τ.sync2 + τ.sync3 + 14 * (τ.enPw + τ.settle) + 2 * τ.clearHome) :=
  (tally_handshakeEvents.append tally_modeEvents).congr rfl rfl (by ring)

theorem tally_stopEvents (d : Byte) :
    Tally τ (stopEvents c bl d) (if c.blWrites then 13 else 12) 13 (6 * (τ.enPw + τ.settle) + τ.clearHome) :=
  ((((tally_cmdEvents_wait _).append tally_backlightEvents).append (tally_cmdEvents _)).append
    (tally_cmdEvents _)).congr (by split <;> rfl) rfl (by ring)

theorem callCount_stopEvents (d : Byte) :
    callCount (stopEvents c bl d) = if c.blWrites then 13 else 12 := by
  unfold stopEvents backlightEvents
  split <;> rfl

/-! ## The cost of a request -/

/-- What a request that plays `es` and succeeds appends is `es`. -/
theorem appends_of_exec {x : Response} (h : exec i s = .next ((r.played es).respond x)) (htrace : r.trace = s.trace)
    (hresp : r.responses = s.responses) (hok : x.status = .ok) : Appends i s es :=
  ⟨_, x, h, congrArg (· ++ es) htrace, congrArg (· ++ [x]) hresp, hok⟩

/-- A request costs what the event list it appends does. -/
theorem Appends.costs (h : Appends i s es) (ht : Tally s.cfg.timing es writes waits bound) :
    Costs i s writes waits bound := ⟨es, h, ht.writes, ht.waits, ht.bound⟩

theorem start_appends (hs : s.Serves .unstarted) (h : s.AnswersOk 30) : Appends .start s (startEvents s.cfg s.bl) :=
  appends_of_exec (startInitialisesTheController s hs h) rfl rfl rfl

/-- No wait is a write. -/
theorem tally_waitsAfter (i : Instr) :
    Tally τ (waitsAfter i) 0 (waitCount (waitsAfter i)) (durationBound τ (waitsAfter i)) :=
  ⟨by cases i <;> rfl, rfl, rfl⟩

/-- A request of one command costs that command and the wait after it. -/
theorem costs_of_singleCommand (hs : s.Serves .ready) (ha : s.AnswersOk 4) (h : singleCommand i s = some (r, b, j)) :
    Costs i s 4 (4 + waitCount (waitsAfter i))
      (2 * (s.cfg.timing.enPw + s.cfg.timing.settle) + durationBound s.cfg.timing (waitsAfter i)) := by
  have htrace : r.trace = s.trace := singleCommand_keeps State.trace (fun _ => rfl) (fun _ => rfl) h
  have hresp : r.responses = s.responses := singleCommand_keeps State.responses (fun _ => rfl) (fun _ => rfl) h
  exact (appends_of_exec (exec_of_singleCommand hs h ha) htrace hresp rfl).costs
    ((tally_cmdEvents b).append (tally_waitsAfter i))

/-- A backlight request costs its byte (R96, R97). -/
theorem costs_of_backlight (hs : s.Serves .ready) (ha : s.AnswersOk (if s.cfg.blWrites then 1 else 0))
    (hi : i ≠ .start) (h : RunPlays i s (s.setBl bl) (backlightEvents s.cfg bl)) :
    Costs i s (if s.cfg.blWrites then 1 else 0) 0 0 := by
  have answers : s.AnswersOk (callCount (backlightEvents s.cfg bl)) :=
    answersOk_backlightEvents bl fun hw => by rwa [if_pos hw] at ha
  have run := h.of_answersOk (plain_backlightEvents _ _) answers
  exact (appends_of_exec ((exec_of_ready hi hs).trans (congrArg _ run)) rfl rfl rfl).costs tally_backlightEvents

theorem costs_stop (hs : s.Serves .ready) (ha : s.AnswersOk (if s.cfg.blWrites then 13 else 12)) :
    Costs .stop s (if s.cfg.blWrites then 13 else 12) 13
      (6 * (s.cfg.timing.enPw + s.cfg.timing.settle) + s.cfg.timing.clearHome) := by
  rw [← callCount_stopEvents (bl := s.bl) s.dctrl] at ha
  exact (appends_of_exec (stopQuiescesTheDisplay s hs ha) rfl rfl rfl).costs (tally_stopEvents s.dctrl)

theorem costs_registerChar (hs : s.Serves .ready) (ha : s.AnswersOk 36) (slot : Int) (bm : Bitmap) :
    Costs (.registerChar slot bm) s 36 36 (18 * (s.cfg.timing.enPw + s.cfg.timing.settle)) := by
  have run := runOf_registerChar_of_answersOk slot bm ha
  exact (appends_of_exec ((exec_of_ready Instr.noConfusion hs).trans (congrArg _ run)) rfl rfl rfl).costs
    (tally_registerCharEvents slot bm)

theorem costs_write (hs : s.Serves .ready) (bytes : List Byte) (ha : s.AnswersOk (4 * bytes.length)) :
    Costs (.write bytes) s (4 * bytes.length) (4 * bytes.length)
      (2 * bytes.length * (s.cfg.timing.enPw + s.cfg.timing.settle)) :=
  (appends_of_exec (writeSendsEveryByte s bytes hs ha) rfl rfl rfl).costs (tally_flatMap_datEvents bytes)

/-- Settles O51: each request answered OK appends its event list, and the list's tally is the request's row of R145. -/
theorem countsAndDurationsPerRequest : Obligations.CountsAndDurationsPerRequest := by
  refine ⟨fun s hs ha => ?_, fun s hs => ⟨costs_stop hs, fun ha => ?_, fun ha => ?_, costs_registerChar hs,
    costs_write hs⟩⟩
  · have appends := start_appends hs ha
    exact ⟨appends.costs tally_startEvents, _, appends, rfl⟩
  · refine ⟨?_, ?_, fun col row => costs_of_singleCommand hs ha rfl⟩
    · simp only [List.forall_mem_cons, List.not_mem_nil, false_implies, implies_true, and_true]
      refine ⟨?_, ?_⟩ <;> exact costs_of_singleCommand hs ha rfl
    · simp only [List.forall_mem_cons, List.not_mem_nil, false_implies, implies_true, and_true]
      refine ⟨?_, ?_, ?_, ?_, ?_, ?_, ?_, ?_, ?_, ?_, ?_, ?_⟩ <;> exact costs_of_singleCommand hs ha rfl
  · simp only [List.forall_mem_cons, List.not_mem_nil, false_implies, implies_true, and_true]
    exact ⟨costs_of_backlight hs ha Instr.noConfusion (runPlays_backlightOn s),
      costs_of_backlight hs ha Instr.noConfusion (runPlays_backlightOff s)⟩

end Sys2Proof.Machine
end
